-- ==== Sys2Proof/Word.lean ====
section
/-! DEFINITION. The word types of MZC: bytes, 32-bit words, register numbers and FixedPoint values
(spec/00_scope.md R16, R18; spec/10_state.md R20). -/
namespace Sys2Proof

/-- One byte of device memory (R47). -/
abbrev Byte := BitVec 8

/-- A 32-bit command word, descriptor word, output word or control register (R30, R50, R70). -/
abbrev Word := BitVec 32

/-- A register field: 4 bits, naming one of f0 to f15; all sixteen values are valid (R72). -/
abbrev Reg := BitVec 4

/-- A FixedPoint value: K = 4 limbs of `w` bits, laid out most significant first; `l0` is the
signed integer limb, `l1` to `l3` are the unsigned fractional digits (R16, R20, R21). -/
structure FixedPoint (w : Nat) where
  l0 : BitVec w
  l1 : BitVec w
  l2 : BitVec w
  l3 : BitVec w
  deriving DecidableEq, Repr

end Sys2Proof
end

