-- ==== Sys2Proof/Syntax.lean ====
section
/-! DEFINITION. The command set of MZC: one constructor for each row of the opcode map
(spec/30_encoding.md R75). -/
namespace Sys2Proof

/-- A decoded command. Register operands are the fields the command uses, in the order rd, ra, rb, rc;
a word1 operand is a device address or a 32-bit immediate (R71, R72, R75). -/
inductive Instr where
  /-- No operation (R134). -/
  | nop
  /-- End the run (R135). -/
  | halt
  /-- Load a FixedPoint value (R136). -/
  | ldf (rd : Reg) (addr : Word)
  /-- Store a FixedPoint value (R137). -/
  | stf (ra : Reg) (addr : Word)
  /-- Load a small integer (R138). -/
  | ldi (rd : Reg) (imm : Word)
  /-- Copy a register (R139). -/
  | mov (rd ra : Reg)
  /-- Add one ulp (R98). -/
  | inc (rd ra : Reg)
  /-- Two's-complement negation (R99). -/
  | neg (rd ra : Reg)
  /-- One-bit left shift (R107). -/
  | dbl (rd ra : Reg)
  /-- Carry-propagating addition (R106). -/
  | add (rd ra rb : Reg)
  /-- Signed fixed-point multiply (R116). -/
  | mul (rd ra rb : Reg)
  /-- Square (R117). -/
  | sqr (rd ra : Reg)
  /-- Decimal text to FixedPoint (R91). -/
  | parse (rd : Reg) (addr : Word)
  /-- FixedPoint to decimal text (R92). -/
  | fmt (ra : Reg) (addr : Word)
  /-- One frame of escape-time iteration (R118). -/
  | escape (ra rb rc : Reg) (desc : Word)
  deriving DecidableEq, Repr

end Sys2Proof
end

