-- ==== Sys2Proof/WellFormed.lean ====
section
/-! DEFINITION. When two command words are a well-formed command: the match and mask pairs that
spec/30_encoding.md R75 gives in its second paragraph, with the ZERO rows' word1. A term of `Instr` is
well formed by its types (4-bit register numbers, 32-bit words), so the checks stand on the raw words.
The decoder (Decode.lean) is written from R74 instead, and the two are held against each other. -/
namespace Sys2Proof

/-- One row of R75's match and mask list. -/
structure MatchRow where
  mnemonic  : String
  value     : Word
  mask      : Word
  /-- word1 must be 0 (a ZERO row). -/
  word1Zero : Bool
  deriving DecidableEq, Repr

/-- The fifteen rows of R75. -/
def matchRows : List MatchRow :=
  [⟨"NOP", 0x00000000, 0xFFFFFFFF, true⟩,
   ⟨"HALT", 0x01000000, 0xFFFFFFFF, true⟩,
   ⟨"LDF", 0x10000000, 0xFF0FFFFF, false⟩,
   ⟨"STF", 0x11000000, 0xFFF0FFFF, false⟩,
   ⟨"LDI", 0x12000000, 0xFF0FFFFF, false⟩,
   ⟨"MOV", 0x13000000, 0xFF00FFFF, true⟩,
   ⟨"INC", 0x20000000, 0xFF00FFFF, true⟩,
   ⟨"NEG", 0x21000000, 0xFF00FFFF, true⟩,
   ⟨"DBL", 0x22000000, 0xFF00FFFF, true⟩,
   ⟨"ADD", 0x30000000, 0xFF000FFF, true⟩,
   ⟨"MUL", 0x40000000, 0xFF000FFF, true⟩,
   ⟨"SQR", 0x41000000, 0xFF00FFFF, true⟩,
   ⟨"PARSE", 0x50000000, 0xFF0FFFFF, false⟩,
   ⟨"FMT", 0x51000000, 0xFFF0FFFF, false⟩,
   ⟨"ESCAPE", 0x60000000, 0xFFF000FF, false⟩]

/-- word0 selects the row when `w & mask == match`; a ZERO row also needs word1 = 0 (R75). -/
def MatchRow.selects (r : MatchRow) (w0 w1 : Word) : Bool :=
  (w0 &&& r.mask == r.value) && (!r.word1Zero || w1 == 0)

/-- The two words are a command: some row selects them (R75, R76). -/
def wellFormed (w0 w1 : Word) : Bool := matchRows.any fun r => r.selects w0 w1

end Sys2Proof
end

