-- ==== Sys2Proof/Decode.lean ====
section
/-! DEFINITION. The decoder, written from spec/30_encoding.md R70, R71, R74, R75 and R76, and after it the
encoder, written from the same rules. -/
namespace Sys2Proof

/-- The mnemonics of the opcode map (R75). -/
inductive Opcode where
  | nop | halt | ldf | stf | ldi | mov | inc | neg | dbl | add | mul | sqr | parse | fmt | escape
  deriving DecidableEq, Repr

/-- What word1 holds (R71). -/
inductive Word1Kind where
  | zero | addr | imm
  deriving DecidableEq, Repr

/-- Why two words are no command; every one of these raises ILLEGAL (R74, R76). -/
inductive DecodeError where
  /-- Fewer than 8 bytes are there to decode (a command is always 8 bytes, R70). -/
  | truncated
  /-- The opcode is not in the map. -/
  | reservedOpcode
  /-- `word0[7:0]` is not 0. -/
  | reservedField
  /-- A register field that the opcode does not use is not 0. -/
  | unusedField
  /-- word1 of a ZERO command is not 0. -/
  | word1NotZero
  deriving DecidableEq, Repr

/-- The outcome of decoding two words. -/
inductive Decoded where
  | command (i : Instr)
  | illegal (e : DecodeError)
  deriving DecidableEq, Repr

/-- The opcode numbers (R75). -/
def Opcode.number : Opcode → BitVec 8
  | .nop => 0x00
  | .halt => 0x01
  | .ldf => 0x10
  | .stf => 0x11
  | .ldi => 0x12
  | .mov => 0x13
  | .inc => 0x20
  | .neg => 0x21
  | .dbl => 0x22
  | .add => 0x30
  | .mul => 0x40
  | .sqr => 0x41
  | .parse => 0x50
  | .fmt => 0x51
  | .escape => 0x60

/-- Every opcode of the map. -/
def Opcode.all : List Opcode :=
  [.nop, .halt, .ldf, .stf, .ldi, .mov, .inc, .neg, .dbl, .add, .mul, .sqr, .parse, .fmt, .escape]

/-- The opcode a number stands for; `none` for a reserved number (R76). -/
def Opcode.ofNumber (n : BitVec 8) : Option Opcode := Opcode.all.find? fun o => o.number == n

/-- Whether the opcode uses field rd (R75, column "uses"). -/
def Opcode.usesRd : Opcode → Bool
  | .ldf | .ldi | .mov | .inc | .neg | .dbl | .add | .mul | .sqr | .parse => true
  | .nop | .halt | .stf | .fmt | .escape => false

/-- Whether the opcode uses field ra (R75). -/
def Opcode.usesRa : Opcode → Bool
  | .stf | .mov | .inc | .neg | .dbl | .add | .mul | .sqr | .fmt | .escape => true
  | .nop | .halt | .ldf | .ldi | .parse => false

/-- Whether the opcode uses field rb (R75). -/
def Opcode.usesRb : Opcode → Bool
  | .add | .mul | .escape => true
  | .nop | .halt | .ldf | .stf | .ldi | .mov | .inc | .neg | .dbl | .sqr | .parse | .fmt => false

/-- Whether the opcode uses field rc (R75). -/
def Opcode.usesRc : Opcode → Bool
  | .escape => true
  | .nop | .halt | .ldf | .stf | .ldi | .mov | .inc | .neg | .dbl | .add | .mul | .sqr | .parse
  | .fmt => false

/-- The opcode's word1 kind (R75). -/
def Opcode.word1 : Opcode → Word1Kind
  | .ldf | .stf | .parse | .fmt | .escape => .addr
  | .ldi => .imm
  | .nop | .halt | .mov | .inc | .neg | .dbl | .add | .mul | .sqr => .zero

/-- `op = word0[31:24]` (R71). -/
def fieldOp (w0 : Word) : BitVec 8 := w0.extractLsb' 24 8
/-- `rd = word0[23:20]` (R71). -/
def fieldRd (w0 : Word) : Reg := w0.extractLsb' 20 4
/-- `ra = word0[19:16]` (R71). -/
def fieldRa (w0 : Word) : Reg := w0.extractLsb' 16 4
/-- `rb = word0[15:12]` (R71). -/
def fieldRb (w0 : Word) : Reg := w0.extractLsb' 12 4
/-- `rc = word0[11:8]` (R71). -/
def fieldRc (w0 : Word) : Reg := w0.extractLsb' 8 4
/-- `rsv = word0[7:0]` (R71). -/
def fieldRsv (w0 : Word) : BitVec 8 := w0.extractLsb' 0 8

/-- The command of an opcode with its fields (R74, last line). -/
def Opcode.build (o : Opcode) (rd ra rb rc : Reg) (w1 : Word) : Instr :=
  match o with
  | .nop => .nop
  | .halt => .halt
  | .ldf => .ldf rd w1
  | .stf => .stf ra w1
  | .ldi => .ldi rd w1
  | .mov => .mov rd ra
  | .inc => .inc rd ra
  | .neg => .neg rd ra
  | .dbl => .dbl rd ra
  | .add => .add rd ra rb
  | .mul => .mul rd ra rb
  | .sqr => .sqr rd ra
  | .parse => .parse rd w1
  | .fmt => .fmt ra w1
  | .escape => .escape ra rb rc w1

/-- Decode two words, in the order of R74's checks. It depends on no state. -/
def decodeWords (w0 w1 : Word) : Decoded :=
  match Opcode.ofNumber (fieldOp w0) with
  | none => .illegal .reservedOpcode
  | some o =>
    if fieldRsv w0 ≠ 0 then .illegal .reservedField
    else if o.usesRd = false ∧ fieldRd w0 ≠ 0 then .illegal .unusedField
    else if o.usesRa = false ∧ fieldRa w0 ≠ 0 then .illegal .unusedField
    else if o.usesRb = false ∧ fieldRb w0 ≠ 0 then .illegal .unusedField
    else if o.usesRc = false ∧ fieldRc w0 ≠ 0 then .illegal .unusedField
    else if o.word1 = .zero ∧ w1 ≠ 0 then .illegal .word1NotZero
    else .command (o.build (fieldRd w0) (fieldRa w0) (fieldRb w0) (fieldRc w0) w1)

/-- Four bytes in memory order as a little-endian word (R50, R70). -/
def wordOfBytes (b0 b1 b2 b3 : Byte) : Word := b3 ++ b2 ++ b1 ++ b0

/-- The bytes of a little-endian word in memory order (R50). -/
def bytesOfWord (w : Word) : List Byte :=
  [w.extractLsb' 0 8, w.extractLsb' 8 8, w.extractLsb' 16 8, w.extractLsb' 24 8]

/-- Decode the command at the front of a list of bytes; a command always takes 8 bytes (R70). -/
def decode : List Byte → Decoded × List Byte
  | b0 :: b1 :: b2 :: b3 :: b4 :: b5 :: b6 :: b7 :: rest =>
    (decodeWords (wordOfBytes b0 b1 b2 b3) (wordOfBytes b4 b5 b6 b7), rest)
  | short => (.illegal .truncated, short)

/-! ### The encoder (R71, R75, R77) -/

/-- The opcode of a command. -/
def Instr.opcode : Instr → Opcode
  | .nop => .nop
  | .halt => .halt
  | .ldf _ _ => .ldf
  | .stf _ _ => .stf
  | .ldi _ _ => .ldi
  | .mov _ _ => .mov
  | .inc _ _ => .inc
  | .neg _ _ => .neg
  | .dbl _ _ => .dbl
  | .add _ _ _ => .add
  | .mul _ _ _ => .mul
  | .sqr _ _ => .sqr
  | .parse _ _ => .parse
  | .fmt _ _ => .fmt
  | .escape _ _ _ _ => .escape

/-- `word0 = (op << 24) | (rd << 20) | (ra << 16) | (rb << 12) | (rc << 8)` (R71). -/
def packWord0 (op : BitVec 8) (rd ra rb rc : Reg) : Word := op ++ rd ++ ra ++ rb ++ rc ++ 0#8

/-- word0 of a command; a register field the opcode does not use is 0 (R71). -/
def Instr.word0 (i : Instr) : Word :=
  match i with
  | .nop | .halt => packWord0 i.opcode.number 0 0 0 0
  | .ldf rd _ | .ldi rd _ | .parse rd _ => packWord0 i.opcode.number rd 0 0 0
  | .stf ra _ | .fmt ra _ => packWord0 i.opcode.number 0 ra 0 0
  | .mov rd ra | .inc rd ra | .neg rd ra | .dbl rd ra | .sqr rd ra =>
    packWord0 i.opcode.number rd ra 0 0
  | .add rd ra rb | .mul rd ra rb => packWord0 i.opcode.number rd ra rb 0
  | .escape ra rb rc _ => packWord0 i.opcode.number 0 ra rb rc

/-- word1 of a command: its address or immediate, else 0 (R71, R75). -/
def Instr.word1 : Instr → Word
  | .ldf _ a | .stf _ a | .parse _ a | .fmt _ a | .escape _ _ _ a => a
  | .ldi _ imm => imm
  | .nop | .halt | .mov _ _ | .inc _ _ | .neg _ _ | .dbl _ _ | .add _ _ _ | .mul _ _ _
  | .sqr _ _ => 0

/-- The 8 bytes of a command as they lie in memory: word0 then word1, each little-endian (R70). -/
def encode (i : Instr) : List Byte := bytesOfWord i.word0 ++ bytesOfWord i.word1

/-- The instruction the decoder reads from the bits `w` as the opcode table numbers them: word0 is bits 31..0,
word1 is bits 63..32; bits from `nbits` on are 0. Each word is laid out in its little-endian byte order. -/
def decodeTableWord (nbits w : Nat) : Option Instr :=
  let bits := w % 2 ^ nbits
  match decode (bytesOfWord (BitVec.ofNat 32 bits) ++ bytesOfWord (BitVec.ofNat 32 (bits / 2 ^ 32))) with
  | (.command i, _) => some i
  | (.illegal _, _) => none

end Sys2Proof
end

