-- ==== Sys2Proof/Config.lean ====
section
/-! DEFINITION. What one MZC device fixes (spec/00_scope.md section 4), the constants of the spec, and the
one free value of the model: what a byte of device memory holds before anything wrote it. -/
namespace Sys2Proof

/-- The limb width W: one of the two configurations the source requires (R6). -/
inductive Width where
  | w32
  | w64
  deriving DecidableEq, Repr

/-- W in bits (R6). -/
def Width.bits : Width → Nat
  | .w32 => 32
  | .w64 => 64

/-- CARRY_MODE: the adder's carry network (R8). -/
inductive CarryMode where
  /-- Exact addition modulo 2^N (R101); the default. -/
  | full
  /-- The source's two-pass scheme as the spec reads it (R102). -/
  | twoPass
  deriving DecidableEq, Repr

/-- NEG_INT_PARSE: how PARSE treats a negative string with a zero fraction (R9, R85). -/
inductive NegIntParse where
  /-- A zero fraction is not adjusted; the default. -/
  | exact
  /-- The source's literal procedure. -/
  | literal
  deriving DecidableEq, Repr

/-- The parameters of one device (R6 to R13). They are held in `State`, so that every statement about all
states is a statement about all devices; no step changes them. -/
structure Device where
  /-- W (R6). -/
  width       : Width
  /-- CARRY_MODE (R8). -/
  carryMode   : CarryMode
  /-- NEG_INT_PARSE (R9). -/
  negIntParse : NegIntParse
  /-- MEM_SIZE is 2^(16 + memSizeLog): a power of two from 2^16 to 2^31 (R10). -/
  memSizeLog  : Fin 16
  /-- NLANES - 1, so NLANES lies in 1..256 (R11, R32). -/
  lanesLess1  : BitVec 8
  /-- HOST_MEM_BASE, left OPEN by the spec (R13): any number, a multiple of 4 or not (log entry 9). -/
  hostMemBase : Nat
  /-- HOST_CSR_BASE, left OPEN by the spec (R13): any number, a multiple of 4 or not (log entry 9). -/
  hostCsrBase : Nat
  deriving DecidableEq, Repr

/-- MEM_SIZE in bytes (R10). -/
def Device.memSize (d : Device) : Nat := 2 ^ (16 + d.memSizeLog.val)

/-- NLANES (R11). -/
def Device.nlanes (d : Device) : Nat := d.lanesLess1.toNat + 1

namespace Config

/-- STR_MAX: the longest decimal string PARSE accepts, without its NUL (R12). -/
def strMax : Nat := 4095

/-- MUL_ROUND: the rounding constant of MUL and SQR, in units of the least significant limb (R14). -/
def mulRound : Nat := 3

/-- The constant value of the ID register (R31). -/
def idValue : Word := 0x4D5A4301

/-- The reset value of PALSIZE (R42). -/
def palsizeReset : Word := 767

/-- NOESC, the output word of a pixel that did not escape (R125). -/
def noEscape : Word := 0xFFFFFFFF

/-- The device of `State.reset`: W = 32, the spec's defaults CARRY_MODE = FULL (R8) and NEG_INT_PARSE = EXACT (R9),
the smallest memory, one lane. DESIGN CHOICE (safe for statements over all states; log entry 1). -/
def defaultDevice : Device where
  width := .w32
  carryMode := .full
  negIntParse := .exact
  memSizeLog := 0
  lanesLess1 := 0
  hostMemBase := 0
  hostCsrBase := 0x80000000

/-- FREE VALUE: the byte that device memory holds at an address before anything has written it, one draw per
address for each platform reset (first argument: how many resets came so far), stable until written
(R49, R155; 93_implementation_defined.md I10, I11). It has no body: nothing can be proved about it. Log entry 3. -/
opaque powerOnByte : Nat → Nat → Byte

end Config

end Sys2Proof
end

