-- ==== Sys2Proof/Machine/FixedPoint.lean ====
section
/-! DEFINITION. FixedPoint values as the spec reads them: limbs by index, the N-bit pattern and the signed
value (spec/10_state.md R20 to R22), and the 64-bit containers in which State holds limbs of either width. -/
namespace Sys2Proof.FixedPoint

variable {w : Nat}

/-- LB = W / 8, the bytes of a limb (R7). -/
def limbBytes (w : Nat) : Nat := w / 8

/-- VB = N / 8, the bytes of a FixedPoint value (R7). -/
def valueBytes (w : Nat) : Nat := 4 * w / 8

/-- `X.l[i]` for i = 0..3; limb 0 is the most significant (R16). -/
def limb (x : FixedPoint w) : Nat → BitVec w
  | 0 => x.l0
  | 1 => x.l1
  | 2 => x.l2
  | _ => x.l3

/-- The value whose limb i is `f i`. -/
def ofLimbs (f : Nat → BitVec w) : FixedPoint w := ⟨f 0, f 1, f 2, f 3⟩

/-- `X.l[i] <- v`. -/
def setLimb (x : FixedPoint w) (i : Nat) (v : BitVec w) : FixedPoint w :=
  ofLimbs fun k => if k = i then v else x.limb k

/-- `pat(X)`: the sum of `X.l[i] * 2^(W*(K-1-i))` (R20). -/
def pat (x : FixedPoint w) : Nat :=
  x.l0.toNat * 2 ^ (3 * w) + x.l1.toNat * 2 ^ (2 * w) + x.l2.toNat * 2 ^ w + x.l3.toNat

/-- The value whose pattern is `n mod 2^N` (R20). -/
def ofPat (n : Nat) : FixedPoint w :=
  ofLimbs fun i => BitVec.ofNat w (n / 2 ^ (w * (3 - i)))

/-- `sint_N(pat(X))`: the value of X in units of one ulp, `val(X) * 2^F` (R21). -/
def sval (x : FixedPoint w) : Int :=
  if x.pat < 2 ^ (4 * w - 1) then (x.pat : Int) else (x.pat : Int) - 2 ^ (4 * w)

/-- The sign bit of the whole pattern: bit W-1 of limb 0 (R109). -/
def negative (x : FixedPoint w) : Bool := x.l0.msb

/-- The all-zero pattern, the only zero (R22). -/
def zero : FixedPoint w := ⟨0, 0, 0, 0⟩

/-- The value of `n` ulp for a small n: limbs [0, 0, 0, n] (R111). -/
def ulps (n : Nat) : FixedPoint w := ⟨0, 0, 0, BitVec.ofNat w n⟩

/-- A register of State has four 64-bit limb containers; a W-bit limb stands in the low bits of its
container, the rest is 0. -/
def toContainer (x : FixedPoint w) : FixedPoint 64 :=
  ⟨x.l0.setWidth 64, x.l1.setWidth 64, x.l2.setWidth 64, x.l3.setWidth 64⟩

/-- The W-bit limbs in four containers. -/
def ofContainer (w : Nat) (x : FixedPoint 64) : FixedPoint w :=
  ⟨x.l0.setWidth w, x.l1.setWidth w, x.l2.setWidth w, x.l3.setWidth w⟩

end Sys2Proof.FixedPoint
end

