-- ==== Sys2Proof/Machine/State.lean ====
section
/-! DEFINITION. Everything the spec gives MZC to hold, as plain data, and the machine right after reset
(spec/10_state.md; spec/70_reset_and_hazards.md R155). -/
namespace Sys2Proof.Machine

/-- The fault causes of FCAUSE (R140). Codes 8 to 255 are never produced. -/
inductive Cause where
  /-- Code 0: never raised; the reset value. -/
  | none
  /-- Code 1: decode. -/
  | illegal
  /-- Code 2: fetch, LDF, STF, ESCAPE. -/
  | align
  /-- Code 3: fetch, LDF, STF, PARSE, FMT, ESCAPE. -/
  | bus
  /-- Code 4: PARSE. -/
  | parseSyntax
  /-- Code 5: PARSE. -/
  | parseRange
  /-- Code 6: ESCAPE. -/
  | param
  /-- Code 7: ESCAPE. -/
  | overlap
  deriving DecidableEq, Repr

/-- One move of the world outside MZC (R2, R59, R60, R143). Addresses are the host's own. -/
inductive HostMove where
  /-- The host makes no access: MZC moves. -/
  | pass
  /-- An 8-bit host read. -/
  | read8 (addr : Nat)
  /-- An 8-bit host write. -/
  | write8 (addr : Nat) (v : Byte)
  /-- A 32-bit host read. -/
  | read32 (addr : Nat)
  /-- A 32-bit host write. -/
  | write32 (addr : Nat) (v : Word)
  /-- The platform's reset input (R155). -/
  | reset
  deriving DecidableEq, Repr

/-- Model faults. There are none: every fault of MZC is a state the spec describes (STATUS.FAULT set, the run
ended, R141), which the model reaches as a next state, and every register holds a value (log entry 2).
Safe: nothing is cut short. -/
inductive Fault where
  deriving DecidableEq, Repr

/-- Why a step has no meaning. -/
inductive Refusal where
  /-- Raised by an arm of `exec` whose instruction has no meaning yet; no arm does. Safe. -/
  | notModelled (mnemonic : String)
  /-- Raised by a host move that the spec does not define: a control-block access that is not 32 bits wide at a
  multiple of 4, or a 32-bit memory-window access that is not at a multiple of 4 (R60; 93_implementation_defined.md
  I15, "refuse"). Safe: the spec gives the host no such move. Log entry 5. -/
  | hostAccessUndefined
  deriving DecidableEq, Repr

/-- The state of MZC and, in its last four fields, the model's own bookkeeping. -/
structure State where
  /-- The device's parameters, constant (R6 to R13). -/
  dev       : Device
  /-- f0 to f15, four limb containers each (R24); the accessors are `readF` and `writeF`. -/
  f         : Vector (FixedPoint 64) 16
  /-- The command pointer CP (R28). -/
  cp        : Word
  /-- CTRL.IE (R35). -/
  ie        : Bool
  /-- STATUS.BUSY (R36). -/
  busy      : Bool
  /-- STATUS.DONE (R36). -/
  done      : Bool
  /-- STATUS.FAULT (R36). -/
  fault     : Bool
  /-- STATUS.HERR (R36). -/
  herr      : Bool
  /-- CPSTART (R37). -/
  cpStart   : Word
  /-- FCAUSE (R39). -/
  fcause    : Cause
  /-- FADDR (R40). -/
  faddr     : Word
  /-- FCMD0 (R41). -/
  fcmd0     : Word
  /-- FCMD1 (R41). -/
  fcmd1     : Word
  /-- PALSIZE (R42). -/
  palsize   : Word
  /-- The bytes of device memory written since reset: strictly rising addresses (R47, R49). -/
  mem       : List Host.Cell
  /-- Model's own: whether a command has written the register since reset (R25). -/
  written   : Vector Bool 16
  /-- Model's own: how many platform resets came so far; it selects the draws of unwritten memory (R49). -/
  resets    : Nat
  /-- Model's own: the moves of the outside world still to come, the next one first (R65, R143). -/
  host      : List HostMove
  /-- Model's own: what the latest host read returned. -/
  hostRData : Word
  deriving DecidableEq, Repr

/-- The device `d` right after a reset (R155), `n` resets having come before. The FixedPoint registers are
unspecified in the spec; the model holds 0 in them (DESIGN CHOICE, unsafe; log entry 2). -/
def State.resetOf (d : Device) (n : Nat) : State where
  dev := d
  f := Vector.replicate 16 ⟨0, 0, 0, 0⟩
  cp := 0
  ie := false
  busy := false
  done := false
  fault := false
  herr := false
  cpStart := 0
  fcause := .none
  faddr := 0
  fcmd0 := 0
  fcmd1 := 0
  palsize := Config.palsizeReset
  mem := []
  written := Vector.replicate 16 false
  resets := n
  host := []
  hostRData := 0

/-- The machine right after reset (R155), for the default device. -/
def State.reset : State := State.resetOf Config.defaultDevice 0

end Sys2Proof.Machine
end

