-- ==== Sys2Proof/Machine/Ops.lean ====
section
/-! DEFINITION. The named operations over registers, memory and the run: reading and writing a register or a
byte, little-endian accesses, finishing a command, ending a run by HALT, and taking a fault
(spec/10_state.md, spec/20_memory.md, spec/60_exceptions.md). -/
namespace Sys2Proof.Machine

/-! ### Sizes (R7, R10) -/

/-- W of the device. -/
def State.w (s : State) : Nat := s.dev.width.bits

/-- MEM_SIZE. -/
def State.memSize (s : State) : Nat := s.dev.memSize

/-- LB of the device (R7). -/
def State.limbBytes (s : State) : Nat := FixedPoint.limbBytes s.w

/-- VB of the device (R7). -/
def State.valueBytes (s : State) : Nat := FixedPoint.valueBytes s.w

/-! ### FixedPoint registers (R24, R26, R27) -/

/-- `f[r]` (R18, R24). -/
def State.readF (s : State) (r : Reg) : FixedPoint s.w :=
  FixedPoint.ofContainer s.w (s.f[r.toNat]'r.isLt)

/-- `f[r] <- x`, by a command (R18, R24). -/
def State.writeF (s : State) (r : Reg) {w : Nat} (x : FixedPoint w) : State :=
  { s with
    f := s.f.set r.toNat x.toContainer r.isLt
    written := s.written.set r.toNat true r.isLt }

/-! ### Device memory (R47, R49, R50, R56) -/

/-- What has been written at an address: the listed byte, or `none` for an unlisted address. -/
def Memory.lookup : List Host.Cell → Nat → Option Byte
  | [], _ => none
  | (b, v) :: rest, a => if a = b then some v else Memory.lookup rest a

/-- Write one byte, keeping the addresses strictly rising. -/
def Memory.store : List Host.Cell → Nat → Byte → List Host.Cell
  | [], a, v => [(a, v)]
  | (b, u) :: rest, a, v =>
    if a < b then (a, v) :: (b, u) :: rest
    else if a = b then (a, v) :: rest
    else (b, u) :: Memory.store rest a v

/-- The canonical form of memory: strictly rising addresses, all inside device memory. An unlisted address holds
no written byte, so no entry can equal what an unlisted address holds, and equal contents are equal lists. -/
def Memory.wf (size : Nat) : List Host.Cell → Bool
  | [] => true
  | [(a, _)] => decide (a < size)
  | (a, _) :: (b, v) :: rest => decide (a < b) && Memory.wf size ((b, v) :: rest)

/-- What an unlisted address reads as: the byte that was there at reset, a free value, one draw per address and
reset (R49). -/
def State.unlistedByte (s : State) (a : Nat) : Byte := Config.powerOnByte s.resets a

/-- The byte at an address of device memory (R47, R56). -/
def State.byteAt (s : State) (a : Nat) : Byte := (Memory.lookup s.mem a).getD (s.unlistedByte a)

/-- Write the byte at an address of device memory. -/
def State.setByte (s : State) (a : Nat) (v : Byte) : State := { s with mem := Memory.store s.mem a v }

/-- `MemRead(a, n)`: n bytes from a, little-endian (R18, R50). -/
def State.memRead (s : State) (a : Nat) : Nat → Nat
  | 0 => 0
  | n + 1 => (s.byteAt a).toNat + 256 * s.memRead (a + 1) n

/-- `MemWrite(a, n, v)`: the n low-order bytes of v, little-endian (R18, R50). -/
def State.memWrite (s : State) (a : Nat) (n : Nat) (v : Nat) : State :=
  match n with
  | 0 => s
  | n + 1 => (s.setByte a (BitVec.ofNat 8 v)).memWrite (a + 1) n (v / 256)

/-- The 32-bit word at an address. -/
def State.wordAt (s : State) (a : Nat) : Word := BitVec.ofNat 32 (s.memRead a 4)

/-- Write bytes at ascending addresses. -/
def State.writeBytes (s : State) (a : Nat) : List Byte → State
  | [] => s
  | b :: bs => (s.setByte a b).writeBytes (a + 1) bs

/-- `LoadFP(A)` of a W-bit-limb value: limb i from `A + i*LB` (R51). -/
def State.loadFP (s : State) (w : Nat) (a : Nat) : FixedPoint w :=
  FixedPoint.ofLimbs fun i =>
    BitVec.ofNat w (s.memRead (a + i * FixedPoint.limbBytes w) (FixedPoint.limbBytes w))

/-- `StoreFP(A, X)`: limb i to `A + i*LB`, i = 0..3 (R51). -/
def State.storeFP (s : State) (a : Nat) {w : Nat} (x : FixedPoint w) : State :=
  [0, 1, 2, 3].foldl
    (fun t i => t.memWrite (a + i * FixedPoint.limbBytes w) (FixedPoint.limbBytes w) (x.limb i).toNat) s

/-! ### Ends of a command -/

/-- A command other than HALT completes: `cp <- cp + 8` (R28, R131). -/
def State.advance (s : State) : State := { s with cp := s.cp + 8 }

/-- HALT ends the run: `BUSY = 0 ; DONE = 1`; CP keeps the HALT's own address (R135). -/
def State.endRun (s : State) : State := { s with busy := false, done := true }

/-- The code of a cause, FCAUSE[7:0] (R140). -/
def Cause.code : Cause → BitVec 8
  | .none => 0
  | .illegal => 1
  | .align => 2
  | .bus => 3
  | .parseSyntax => 4
  | .parseRange => 5
  | .param => 6
  | .overlap => 7

/-- TAKING A FAULT (R141): the cause, the address and the command's two words are recorded (0, 0 where no word was
fetched), FAULT is set, BUSY cleared, DONE unchanged; CP keeps the faulting command's address and nothing else
changes. There is no handler and no return command: the host acknowledges and starts again (R144). -/
def State.takeFault (s : State) (c : Cause) (addr : Word) (word0 word1 : Word) : State :=
  { s with
    fcause := c
    faddr := addr
    fcmd0 := word0
    fcmd1 := word1
    fault := true
    busy := false }

/-- A fault raised by the command `i` while it executes: FCMD0 and FCMD1 are its own two words (R41, R141). -/
def State.faultIn (s : State) (i : Instr) (c : Cause) (addr : Word) : State :=
  s.takeFault c addr i.word0 i.word1

end Sys2Proof.Machine
end

