-- ==== Sys2Proof/Machine/Operands.lean ====
section
/-! DEFINITION. The operand forms: a FixedPoint address with its two checks, an immediate, and a decimal string
in memory (spec/20_memory.md R52, R53; spec/30_encoding.md R72; spec/40_codec.md R91). -/
namespace Sys2Proof.Machine

/-- An access of n bytes at A is in range when `A + n <= MEM_SIZE` on unbounded integers (R53). -/
def State.inRange (s : State) (a n : Nat) : Bool := decide (a + n ≤ s.memSize)

/-- The fault of a FixedPoint access at A, if any: ALIGN when A is not a multiple of LB, then BUS when the VB
bytes do not fit (R52, R53, R136, R137). FADDR is A in both. -/
def State.valueAddrFault (s : State) (a : Word) : Option Cause :=
  if a.toNat % s.limbBytes ≠ 0 then some .align
  else if s.inRange a.toNat s.valueBytes = false then some .bus
  else none

/-- An IMM word1 as a FixedPoint value: limb 0 is the immediate sign-extended to W bits, the others are 0
(R72, R138). -/
def immediate (w : Nat) (imm : Word) : FixedPoint w := ⟨imm.signExtend w, 0, 0, 0⟩

/-- What the byte scan of a string operand finds (R91). -/
inductive TextScan where
  /-- A byte address at or above MEM_SIZE, met before any NUL. -/
  | outOfRange (addr : Nat)
  /-- No NUL in the bytes scanned. -/
  | noEnd
  /-- The bytes before the first NUL. -/
  | text (bytes : List Byte)
  deriving DecidableEq, Repr

/-- A byte put in front of what the scan of the rest found. -/
def TextScan.cons (c : Byte) : TextScan → TextScan
  | .text bytes => .text (c :: bytes)
  | .outOfRange addr => .outOfRange addr
  | .noEnd => .noEnd

/-- Scan at most n bytes from a, one at a time, for a NUL (R91). -/
def State.scanText (s : State) (a : Nat) : Nat → TextScan
  | 0 => .noEnd
  | n + 1 =>
    if s.memSize ≤ a then .outOfRange a
    else if s.byteAt a = 0 then .text []
    else (s.scanText (a + 1) n).cons (s.byteAt a)

end Sys2Proof.Machine
end

