-- ==== Sys2Proof/Machine/Codec.lean ====
section
/-! DEFINITION. The exact codec between decimal text and FixedPoint, and the commands PARSE and FMT
(spec/40_codec.md). -/
namespace Sys2Proof.Codec

/-! ### Text (R81, R82, R83) -/

/-- The minus sign (R81). -/
def minusSign : Byte := 0x2D
/-- The full stop (R81). -/
def fullStop : Byte := 0x2E

/-- A byte from '0' to '9' (R81). -/
def isDigit (c : Byte) : Bool := decide (0x30 ≤ c.toNat ∧ c.toNat ≤ 0x39)

/-- The integer that a list of digit bytes denotes, the most significant first (R83). -/
def digitsValue (ds : List Byte) : Nat := ds.foldl (fun n c => 10 * n + (c.toNat - 0x30)) 0

/-- A well-formed string, split (R83): whether it begins with '-', the integer its integer digits denote, the integer
d its m fractional digits denote, and m. -/
structure DecimalText where
  neg      : Bool
  whole    : Nat
  fraction : Nat
  places   : Nat
  deriving DecidableEq, Repr

/-- The unsigned part `digit+ ['.' digit*]` of the grammar; `none` when the text is malformed (R82). -/
def splitUnsigned (neg : Bool) (s : List Byte) : Option DecimalText :=
  let ds := s.takeWhile isDigit
  if ds.isEmpty then none
  else match s.dropWhile isDigit with
    | [] => some ⟨neg, digitsValue ds, 0, 0⟩
    | c :: fs =>
      if c = fullStop ∧ fs.all isDigit then some ⟨neg, digitsValue ds, digitsValue fs, fs.length⟩ else none

/-- The grammar `['-'] digit+ ['.' digit*]`; `none` for any other string (R82, R83). -/
def split (s : List Byte) : Option DecimalText :=
  match s with
  | [] => none
  | c :: rest => if c = minusSign then splitUnsigned true rest else splitUnsigned false s

/-- I: the integer that the sign and the integer digits denote (R83). -/
def DecimalText.integer (t : DecimalText) : Int := if t.neg then -(t.whole : Int) else (t.whole : Int)

/-- The denominator 10^m of the fractional part f = d / 10^m (R83). -/
def DecimalText.denominator (t : DecimalText) : Nat := 10 ^ t.places

/-- The adjusted pair (I', f'), with f' as a numerator over `denominator` (R85). -/
def DecimalText.adjusted (mode : NegIntParse) (t : DecimalText) : Int × Nat :=
  if t.neg = true ∧ 0 < t.fraction then (t.integer - 1, t.denominator - t.fraction)
  else if t.neg = true ∧ mode = .literal then (t.integer - 1, t.denominator)
  else (t.integer, t.fraction)

/-! ### Fraction to bits (R86) -/

/-- The doubling procedure for n more bits: r is the remaining fraction as a numerator over den; once it has been
exactly 1, only zeros follow (R86). -/
def fractionBits (den : Nat) : Nat → Nat → Bool → List Bool
  | 0, _, _ => []
  | n + 1, r, true => false :: fractionBits den n r true
  | n + 1, r, false =>
    if den < 2 * r then true :: fractionBits den n (2 * r - den) false
    else if 2 * r = den then true :: fractionBits den n (2 * r) true
    else false :: fractionBits den n (2 * r) false

/-- A list of bits, the most significant first, as a number. -/
def bitsValue (bs : List Bool) : Nat := bs.foldl (fun n b => 2 * n + b.toNat) 0

/-- An integer lies in the signed range of one limb (R84). -/
def inLimbRange (w : Nat) (i : Int) : Bool := decide (-(2 : Int) ^ (w - 1) ≤ i ∧ i ≤ 2 ^ (w - 1) - 1)

/-- The limbs of I' and the F fraction bits, sliced into limb-width chunks (R87). -/
def assemble (w : Nat) (i : Int) (bits : List Bool) : FixedPoint w :=
  FixedPoint.ofLimbs fun k =>
    if k = 0 then BitVec.ofInt w i else BitVec.ofNat w (bitsValue ((bits.drop ((k - 1) * w)).take w))

/-- `PARSE_VALUE` of a well-formed string; `none` is PARSE_RANGE, by the check on I (R84) or on I' (R85). -/
def parseValue (w : Nat) (mode : NegIntParse) (t : DecimalText) : Option (FixedPoint w) :=
  if inLimbRange w t.integer = false then none
  else if (t.adjusted mode).1 < -(2 : Int) ^ (w - 1) then none
  else some (assemble w (t.adjusted mode).1
    (fractionBits t.denominator (3 * w) (t.adjusted mode).2 false))

/-! ### FixedPoint to text (R88, R89) -/

/-- Fraction bit k of X, k = 1..F: pattern bit F - k (R88). -/
def fractionBit {w : Nat} (x : FixedPoint w) (k : Nat) : Bool := x.pat.testBit (3 * w - k)

/-- `FORMAT_VALUE(X)` in units of 10^-F: the signed integer limb, plus for each fraction bit k that is 1 the term
2^-k, which is `5^k * 10^(F-k)` of these units (R88). No rounding occurs. -/
def formatValue {w : Nat} (x : FixedPoint w) : Int :=
  (List.range (3 * w)).foldl
    (fun v k => if fractionBit x (k + 1) then v + 5 ^ (k + 1) * 10 ^ (3 * w - (k + 1)) else v)
    (x.l0.toInt * 10 ^ (3 * w))

/-- The n low-order decimal digits of a number, the most significant first. -/
def decimalDigits : Nat → Nat → List Nat
  | 0, _ => []
  | n + 1, x => decimalDigits n (x / 10) ++ [x % 10]

/-- The digit characters of a list of digits (R81). -/
def digitChars (ds : List Nat) : List Byte := ds.map fun d => BitVec.ofNat 8 (0x30 + d)

/-- The characters of an integer part with no leading zero; "0" when it is 0 (R89). 20 digits hold every
|v| <= 2^63. -/
def wholeText (n : Nat) : List Byte :=
  if n = 0 then digitChars [0] else digitChars ((decimalDigits 20 n).dropWhile fun d => d == 0)

/-- The characters of a fraction of n digits with trailing zeros removed; "0" when it is 0 (R89). -/
def fractionText (n x : Nat) : List Byte :=
  if x = 0 then digitChars [0] else digitChars ((decimalDigits n x).rdropWhile fun d => d == 0)

/-- The text FMT writes, without its NUL (R89). -/
def formatText {w : Nat} (x : FixedPoint w) : List Byte :=
  let v := formatValue x
  let scale := 10 ^ (3 * w)
  (if v < 0 then [minusSign] else []) ++ wholeText (v.natAbs / scale) ++ [fullStop]
    ++ fractionText (3 * w) (v.natAbs % scale)

end Sys2Proof.Codec

namespace Sys2Proof.Machine

/-- What PARSE makes of the string at a: a value, or a fault with its address (R91). -/
def State.parseAt (s : State) (a : Word) : (FixedPoint s.w) ⊕ (Cause × Word) :=
  match s.scanText a.toNat (Config.strMax + 1) with
  | .outOfRange addr => .inr (.bus, BitVec.ofNat 32 addr)
  | .noEnd => .inr (.parseSyntax, a)
  | .text bytes =>
    match Codec.split bytes with
    | none => .inr (.parseSyntax, a)
    | some t =>
      match Codec.parseValue s.w s.dev.negIntParse t with
      | none => .inr (.parseRange, a)
      | some x => .inl x

/-- PARSE fd, [A] (R91). On a fault `f[rd]` is unchanged. -/
def execParse (rd : Reg) (a : Word) (s : State) : Host.Outcome State Fault Refusal :=
  .next (match s.parseAt a with
    | .inl x => (s.writeF rd x).advance
    | .inr (c, addr) => s.faultIn (.parse rd a) c addr)

/-- FMT fa, [A] (R92): BUS when the L + 1 bytes do not fit, before any byte is written. -/
def execFmt (ra : Reg) (a : Word) (s : State) : Host.Outcome State Fault Refusal :=
  .next (
    let t := Codec.formatText (s.readF ra)
    if s.inRange a.toNat (t.length + 1) = false then s.faultIn (.fmt ra a) .bus a
    else (s.writeBytes a.toNat (t ++ [0])).advance)

end Sys2Proof.Machine
end

