-- ==== Sys2Proof/Machine/Adder.lean ====
section
/-! DEFINITION. The carry-propagating adder with its two carry networks, the one-bit left shift, and the commands
ADD and DBL (spec/42_adder.md). -/
namespace Sys2Proof.FixedPoint

variable {w : Nat}

/-- The limb-wise sum `s[i] = (u.l[i] + v.l[i]) mod 2^W` (R100). -/
def limbSums (u v : FixedPoint w) : FixedPoint w := ofLimbs fun i => u.limb i + v.limb i

/-- `c1[i]`, the carry out of limb i: `s[i] <u u.l[i]` (R100). -/
def carryOut (u v : FixedPoint w) (i : Nat) : Bool := decide ((limbSums u v).limb i < u.limb i)

/-- A carry as a limb, 0 or 1. -/
def carryLimb (w : Nat) (c : Bool) : BitVec w := if c then 1 else 0

/-- One limb of ADD_FULL: `t = u.l[i] + v.l[i] + carry`, `r[i] = t mod 2^W`, `carry = t div 2^W` (R101). -/
def addFullLimb (u v : FixedPoint w) (rc : FixedPoint w × Nat) (i : Nat) : FixedPoint w × Nat :=
  let t := (u.limb i).toNat + (v.limb i).toNat + rc.2
  (rc.1.setLimb i (BitVec.ofNat w t), t / 2 ^ w)

/-- `ADD_FULL`: carries propagate from limb 3 to limb 0; the last one is discarded (R101). -/
def addFull (u v : FixedPoint w) : FixedPoint w :=
  ([3, 2, 1, 0].foldl (addFullLimb u v) (limbSums u v, 0)).1

/-- The sum after the first carry pass: `t[i] = s[i] + c1[i+1]` for i = 0..2 (R102). -/
def firstPass (u v : FixedPoint w) : FixedPoint w :=
  ofLimbs fun i =>
    if i ≤ 2 then (limbSums u v).limb i + carryLimb w (carryOut u v (i + 1)) else (limbSums u v).limb i

/-- `c2[i]` for i = 1, 2: limb i received a first-pass carry while it held ONES, so it wrapped (R102). The test
reads s, the limb before the first pass (90_conflicts.md C8). -/
def secondCarry (u v : FixedPoint w) (i : Nat) : Bool :=
  carryOut u v (i + 1) && decide ((limbSums u v).limb i = BitVec.allOnes w)

/-- `ADD_TWOPASS`: exactly two carry passes; a carry that the second pass makes is lost (R102). -/
def addTwoPass (u v : FixedPoint w) : FixedPoint w :=
  ofLimbs fun i =>
    if i ≤ 1 then (firstPass u v).limb i + carryLimb w (secondCarry u v (i + 1)) else (firstPass u v).limb i

/-- `ADD`: the adder CARRY_MODE selects (R8, R106). -/
def add (m : CarryMode) (u v : FixedPoint w) : FixedPoint w :=
  match m with
  | .full => addFull u v
  | .twoPass => addTwoPass u v

/-- `DBL(X)`: the pattern shifted left by one bit, the bit crossing each limb boundary carried (R105). -/
def dbl (x : FixedPoint w) : FixedPoint w :=
  ofLimbs fun i =>
    if i ≤ 2 then (x.limb i <<< 1) ||| carryLimb w (x.limb (i + 1)).msb else x.limb i <<< 1

end Sys2Proof.FixedPoint

namespace Sys2Proof.Machine

/-- DBL fd, fa: `f[rd] <- DBL(f[ra])` (R107). -/
def execDbl (rd ra : Reg) (s : State) : Host.Outcome State Fault Refusal :=
  .next (s.writeF rd (s.readF ra).dbl).advance

/-- ADD fd, fa, fb: `f[rd] <- ADD(f[ra], f[rb])` (R106). -/
def execAdd (rd ra rb : Reg) (s : State) : Host.Outcome State Fault Refusal :=
  .next (s.writeF rd (FixedPoint.add s.dev.carryMode (s.readF ra) (s.readF rb))).advance

end Sys2Proof.Machine
end

