-- ==== Sys2Proof/Machine/TwosComplement.lean ====
section
/-! DEFINITION. The two's-complement primitives and the commands INC and NEG (spec/41_twos_complement.md).
They are exact on patterns under both carry modes. -/
namespace Sys2Proof.FixedPoint

variable {w : Nat}

/-- `NOT(X)`: every limb XOR ONES (R94). -/
def compl (x : FixedPoint w) : FixedPoint w := ofLimbs fun i => x.limb i ^^^ BitVec.allOnes w

/-- The loop of INC from limb i upwards: a saturated limb becomes 0 and the carry goes on to limb i-1; the carry out
of limb 0 is discarded (R95). -/
def incFrom : Nat → FixedPoint w → FixedPoint w
  | 0, y => if y.limb 0 = BitVec.allOnes w then y.setLimb 0 0 else y.setLimb 0 (y.limb 0 + 1)
  | i + 1, y =>
    if y.limb (i + 1) = BitVec.allOnes w then incFrom i (y.setLimb (i + 1) 0)
    else y.setLimb (i + 1) (y.limb (i + 1) + 1)

/-- `INC(X)` (R95). -/
def inc (x : FixedPoint w) : FixedPoint w := incFrom 3 x

/-- `NEG(X) = INC(NOT(X))` (R96). -/
def neg (x : FixedPoint w) : FixedPoint w := inc (compl x)

end Sys2Proof.FixedPoint

namespace Sys2Proof.Machine

/-- INC fd, fa: `f[rd] <- INC(f[ra])` (R98). -/
def execInc (rd ra : Reg) (s : State) : Host.Outcome State Fault Refusal :=
  .next (s.writeF rd (s.readF ra).inc).advance

/-- NEG fd, fa: `f[rd] <- NEG(f[ra])` (R99). -/
def execNeg (rd ra : Reg) (s : State) : Host.Outcome State Fault Refusal :=
  .next (s.writeF rd (s.readF ra).neg).advance

end Sys2Proof.Machine
end

