-- ==== Sys2Proof/Machine/Multiplier.lean ====
section
/-! DEFINITION. The single-limb wide multiply, the multi-limb multiplier and squarer, and the commands MUL and SQR
(spec/43_multiplier.md). -/
namespace Sys2Proof.FixedPoint

variable {w : Nat}

/-- `WMUL(a, b) = (hi, lo)`: the exact product of two unsigned limbs (R108). -/
def wmul (a b : BitVec w) : BitVec w × BitVec w :=
  (BitVec.ofNat w (a.toNat * b.toNat / 2 ^ w), BitVec.ofNat w (a.toNat * b.toNat))

/-- The half-word combination R108 writes out, with H = W/2, on integers; the claim that it is `wmul` is an
obligation, and only the exact (hi, lo) is architectural. -/
def wmulHalves (w a b : Nat) : Nat × Nat :=
  let h := w / 2
  let a1 := a / 2 ^ h
  let a0 := a % 2 ^ h
  let b1 := b / 2 ^ h
  let b0 := b % 2 ^ h
  let p00 := a0 * b0
  let p01 := a0 * b1
  let p10 := a1 * b0
  let p11 := a1 * b1
  let mid := p00 / 2 ^ h + p01 % 2 ^ h + p10 % 2 ^ h
  (p11 + p01 / 2 ^ h + p10 / 2 ^ h + mid / 2 ^ h, (mid % 2 ^ h) * 2 ^ h + p00 % 2 ^ h)

/-- The operand after sign normalisation, read as unsigned digits: `NEG(u)` when the sign bit is 1, else u
(R109). -/
def magnitude (u : FixedPoint w) : FixedPoint w := if u.negative then u.neg else u

/-- `T(i, j)` for i + j <= 3: lo of `WMUL(U_i, V_j)` in limb i + j, hi in limb i + j - 1 (dropped when i + j = 0),
every other limb 0 (R110). -/
def partialProduct (u v : FixedPoint w) (i j : Nat) : FixedPoint w :=
  ofLimbs fun k =>
    if k = i + j then (wmul (u.limb i) (v.limb j)).2
    else if k + 1 = i + j then (wmul (u.limb i) (v.limb j)).1
    else 0

/-- The digit pairs (i, j) with i + j <= 3 in the order MUL accumulates them: result position ascending, then i
ascending (R111). -/
def mulPairs : List (Nat × Nat) :=
  (List.range 4).flatMap fun p => (List.range (p + 1)).map fun i => (i, p - i)

/-- The off-diagonal pairs i < j with i + j <= 3, positions ascending, then i ascending (R114). -/
def sqrPairs : List (Nat × Nat) := mulPairs.filter fun ij => ij.1 < ij.2

/-- The diagonal pairs with 2*i <= 3, i ascending (R114). -/
def sqrDiagonal : List (Nat × Nat) :=
  ((List.range 4).filter fun i => 2 * i ≤ 3).map fun i => (i, i)

/-- Add the partial products of the pairs, in order, to an accumulator, with the adder CARRY_MODE selects. -/
def accumulate (m : CarryMode) (u v : FixedPoint w) (pairs : List (Nat × Nat)) (acc : FixedPoint w) :
    FixedPoint w :=
  pairs.foldl (fun a ij => add m a (partialProduct u v ij.1 ij.2)) acc

/-- `MUL(u, v)`: accumulate the partial products of the magnitudes, add MUL_ROUND, negate if exactly one operand was
negative (R109, R110, R111). -/
def mul (m : CarryMode) (u v : FixedPoint w) : FixedPoint w :=
  let acc := accumulate m u.magnitude v.magnitude mulPairs zero
  let rounded := add m acc (ulps Config.mulRound)
  if u.negative ^^ v.negative then rounded.neg else rounded

/-- `SQR(u)`: the off-diagonal products summed and doubled once, then the diagonal ones, then MUL_ROUND; never
negated (R114). -/
def sqr (m : CarryMode) (u : FixedPoint w) : FixedPoint w :=
  let off := accumulate m u.magnitude u.magnitude sqrPairs zero
  let acc := accumulate m u.magnitude u.magnitude sqrDiagonal off.dbl
  add m acc (ulps Config.mulRound)

end Sys2Proof.FixedPoint

namespace Sys2Proof.Machine

/-- MUL fd, fa, fb: `f[rd] <- MUL(f[ra], f[rb])` (R116). -/
def execMul (rd ra rb : Reg) (s : State) : Host.Outcome State Fault Refusal :=
  .next (s.writeF rd (FixedPoint.mul s.dev.carryMode (s.readF ra) (s.readF rb))).advance

/-- SQR fd, fa: `f[rd] <- SQR(f[ra])` (R117). -/
def execSqr (rd ra : Reg) (s : State) : Host.Outcome State Fault Refusal :=
  .next (s.writeF rd (FixedPoint.sqr s.dev.carryMode (s.readF ra))).advance

end Sys2Proof.Machine
end

