-- ==== Sys2Proof/Machine/Escape.lean ====
section
/-! DEFINITION. The escape-time iteration pipeline and the command ESCAPE (spec/44_escape.md). -/
namespace Sys2Proof.Machine

/-- What an executing ESCAPE holds: the three registers, the six descriptor words and PALSIZE, all read before any
pixel starts (R45, R119, R120). It exists only inside the command. -/
structure Snapshot (w : Nat) where
  scale   : FixedPoint w
  cx      : FixedPoint w
  cy      : FixedPoint w
  table   : Word
  out     : Word
  width   : Word
  height  : Word
  cap     : Word
  flags   : Word
  palsize : Word
  deriving DecidableEq, Repr

/-- The working values of one lane while it processes one pixel (R44). -/
structure Pixel (w : Nat) where
  cr  : FixedPoint w
  ci  : FixedPoint w
  zr  : FixedPoint w
  zi  : FixedPoint w
  zr2 : FixedPoint w
  zi2 : FixedPoint w
  n   : Word
  deriving DecidableEq, Repr

/-- The snapshot of `ESCAPE fa, fb, fc, [D]` (R120). -/
def State.snapshot (s : State) (ra rb rc : Reg) (d : Word) : Snapshot s.w where
  scale := s.readF ra
  cx := s.readF rb
  cy := s.readF rc
  table := s.wordAt d.toNat
  out := s.wordAt (d.toNat + 4)
  width := s.wordAt (d.toNat + 8)
  height := s.wordAt (d.toNat + 12)
  cap := s.wordAt (d.toNat + 16)
  flags := s.wordAt (d.toNat + 20)
  palsize := s.palsize

/-- `NPIX = WIDTH * HEIGHT`, without wrap (R119). -/
def Snapshot.npix {w : Nat} (sn : Snapshot w) : Nat := sn.width.toNat * sn.height.toNat

/-- FLAGS bit 0 (R119). -/
def Snapshot.raw {w : Nat} (sn : Snapshot w) : Bool := sn.flags.getLsbD 0

/-- What the checks of ESCAPE answer. -/
inductive EscapeVerdict where
  /-- A check failed. -/
  | fault (c : Cause) (addr : Word)
  /-- NPIX = 0: the command completes with no further effect. -/
  | empty
  /-- Every check passed. -/
  | render
  deriving DecidableEq, Repr

/-- The bytes of the CoordinateTable: `2*VB*NPIX` (R121, R122). -/
def State.tableBytes (s : State) (npix : Nat) : Nat := 2 * s.valueBytes * npix

/-- Checks 3 to 10 of R121 on the snapshot, in order, first failure wins. -/
def State.snapshotVerdict (s : State) {w : Nat} (d : Word) (sn : Snapshot w) : EscapeVerdict :=
  if sn.flags >>> 1 ≠ 0 then .fault .param (d + 20)
  else if sn.raw = false ∧ sn.palsize = 0 then .fault .param (d + 20)
  else if sn.npix = 0 then .empty
  else if sn.table.toNat % s.limbBytes ≠ 0 then .fault .align sn.table
  else if sn.out.toNat % 4 ≠ 0 then .fault .align sn.out
  else if s.inRange sn.table.toNat (s.tableBytes sn.npix) = false then .fault .bus sn.table
  else if s.inRange sn.out.toNat (4 * sn.npix) = false then .fault .bus sn.out
  else if sn.out.toNat < sn.table.toNat + s.tableBytes sn.npix ∧ sn.table.toNat < sn.out.toNat + 4 * sn.npix then
    .fault .overlap sn.out
  else .render

/-- All ten checks of R121: 1 and 2 on the descriptor's address, then those on the snapshot. -/
def State.escapeVerdict (s : State) (ra rb rc : Reg) (d : Word) : EscapeVerdict :=
  if d.toNat % 4 ≠ 0 then .fault .align d
  else if s.inRange d.toNat 24 = false then .fault .bus d
  else s.snapshotVerdict d (s.snapshot ra rb rc d)

/-! ### One pixel (R123 to R125) -/

/-- The working values before the loop: c from the offsets, the scale and the centre, z = 0 (R123). -/
def Pixel.start {w : Nat} (m : CarryMode) (sn : Snapshot w) (oR oI : FixedPoint w) : Pixel w where
  cr := FixedPoint.add m (FixedPoint.mul m oR sn.scale) sn.cx
  ci := FixedPoint.add m (FixedPoint.mul m oI sn.scale) sn.cy
  zr := FixedPoint.zero
  zi := FixedPoint.zero
  zr2 := FixedPoint.zero
  zi2 := FixedPoint.zero
  n := 0

/-- `BAIL_OK(mag)`: the integer limb, read signed, is below 4 (R124). -/
def bailOk {w : Nat} (mag : FixedPoint w) : Bool := decide (mag.l0.toInt < 4)

/-- One step z <- z^2 + c of the loop (R123). -/
def Pixel.step {w : Nat} (m : CarryMode) (p : Pixel w) : Pixel w :=
  let t := FixedPoint.mul m p.zr p.zi
  let zi' := FixedPoint.add m t.dbl p.ci
  let d := FixedPoint.add m p.zr2 p.zi2.neg
  let zr' := FixedPoint.add m d p.cr
  { p with
    zr := zr'
    zi := zi'
    zr2 := FixedPoint.sqr m zr'
    zi2 := FixedPoint.sqr m zi'
    n := p.n + 1 }

/-- The loop goes on: `BAIL_OK(mag) and n < CAP` with `mag = ADD(zr2, zi2)` (R123). -/
def Pixel.goesOn {w : Nat} (m : CarryMode) (cap : Word) (p : Pixel w) : Bool :=
  bailOk (FixedPoint.add m p.zr2 p.zi2) && decide (p.n < cap)

/-- The loop of R123. The first argument bounds the number of steps; a start with n = 0 takes at most CAP of them
(R127). -/
def Pixel.loop {w : Nat} (m : CarryMode) (cap : Word) : Nat → Pixel w → Pixel w
  | 0, p => p
  | k + 1, p => if p.goesOn m cap then Pixel.loop m cap k (p.step m) else p

/-- `OUTPUT(n)` (R125). -/
def Snapshot.output {w : Nat} (sn : Snapshot w) (n : Word) : Word :=
  if sn.raw then n else if n < sn.cap then n % sn.palsize else Config.noEscape

/-- The final count of a pixel with the given offsets (R123). -/
def Snapshot.count {w : Nat} (m : CarryMode) (sn : Snapshot w) (oR oI : FixedPoint w) : Word :=
  (Pixel.loop m sn.cap sn.cap.toNat (Pixel.start m sn oR oI)).n

/-! ### All pixels (R122, R126) -/

/-- One lane processes pixel k: it reads table entry k from memory as it stands, and writes output word k
(R118, R122). -/
def State.renderPixel {w : Nat} (sn : Snapshot w) (s : State) (k : Nat) : State :=
  let entry := sn.table.toNat + k * (2 * FixedPoint.valueBytes w)
  let oR := s.loadFP w entry
  let oI := s.loadFP w (entry + FixedPoint.valueBytes w)
  s.memWrite (sn.out.toNat + 4 * k) 4 (sn.output (sn.count s.dev.carryMode oR oI)).toNat

/-- The pixels in a given order. Any order of 0..NPIX-1 gives the same memory (R126); the meaning takes them
ascending. -/
def State.renderInOrder {w : Nat} (sn : Snapshot w) (s : State) (order : List Nat) : State :=
  order.foldl (State.renderPixel sn) s

/-- ESCAPE fa, fb, fc, [D] (R118): the snapshot and the checks, then every pixel. A faulting ESCAPE writes
nothing. -/
def execEscape (ra rb rc : Reg) (d : Word) (s : State) : Host.Outcome State Fault Refusal :=
  .next (match s.escapeVerdict ra rb rc d with
    | .fault c addr => s.faultIn (.escape ra rb rc d) c addr
    | .empty => s.advance
    | .render =>
      let sn := s.snapshot ra rb rc d
      (s.renderInOrder sn (List.range sn.npix)).advance)

end Sys2Proof.Machine
end

