-- ==== Sys2Proof/Machine/Transfer.lean ====
section
/-! DEFINITION. The control commands NOP and HALT and the data movement LDF, STF, LDI and MOV
(spec/45_system_and_transfer.md sections 2 and 3). -/
namespace Sys2Proof.Machine

/-- NOP: nothing but the advance of CP (R134). -/
def execNop (s : State) : Host.Outcome State Fault Refusal := .next s.advance

/-- HALT ends the run; CP keeps its own address (R135). -/
def execHalt (s : State) : Host.Outcome State Fault Refusal := .next s.endRun

/-- LDF fd, [A]: ALIGN, then BUS, else `f[rd] <- LoadFP(A)` (R136). -/
def execLdf (rd : Reg) (a : Word) (s : State) : Host.Outcome State Fault Refusal :=
  .next (match s.valueAddrFault a with
    | some c => s.faultIn (.ldf rd a) c a
    | none => (s.writeF rd (s.loadFP s.w a.toNat)).advance)

/-- STF fa, [A]: ALIGN, then BUS, else `StoreFP(A, f[ra])` (R137). -/
def execStf (ra : Reg) (a : Word) (s : State) : Host.Outcome State Fault Refusal :=
  .next (match s.valueAddrFault a with
    | some c => s.faultIn (.stf ra a) c a
    | none => (s.storeFP a.toNat (s.readF ra)).advance)

/-- LDI fd, #imm: the integer imm exactly (R138). -/
def execLdi (rd : Reg) (imm : Word) (s : State) : Host.Outcome State Fault Refusal :=
  .next (s.writeF rd (immediate s.w imm)).advance

/-- MOV fd, fa: `f[rd] <- f[ra]` (R139). -/
def execMov (rd ra : Reg) (s : State) : Host.Outcome State Fault Refusal :=
  .next (s.writeF rd (s.readF ra)).advance

end Sys2Proof.Machine
end

