-- ==== Sys2Proof/Machine/Dispatch.lean ====
section
/-! DEFINITION. One arm per command of the opcode map (spec/30_encoding.md R75). -/
namespace Sys2Proof.Machine

def exec (i : Instr) (s : State) : Host.Outcome State Fault Refusal :=
  match i with
  | .nop => Sys2Proof.Machine.execNop s
  | .halt => Sys2Proof.Machine.execHalt s
  | .ldf rd addr => Sys2Proof.Machine.execLdf rd addr s
  | .stf ra addr => Sys2Proof.Machine.execStf ra addr s
  | .ldi rd imm => Sys2Proof.Machine.execLdi rd imm s
  | .mov rd ra => Sys2Proof.Machine.execMov rd ra s
  | .inc rd ra => Sys2Proof.Machine.execInc rd ra s
  | .neg rd ra => Sys2Proof.Machine.execNeg rd ra s
  | .dbl rd ra => Sys2Proof.Machine.execDbl rd ra s
  | .add rd ra rb => Sys2Proof.Machine.execAdd rd ra rb s
  | .mul rd ra rb => Sys2Proof.Machine.execMul rd ra rb s
  | .sqr rd ra => Sys2Proof.Machine.execSqr rd ra s
  | .parse rd addr => Sys2Proof.Machine.execParse rd addr s
  | .fmt ra addr => Sys2Proof.Machine.execFmt ra addr s
  | .escape ra rb rc desc => Sys2Proof.Machine.execEscape ra rb rc desc s

end Sys2Proof.Machine
end

