-- ==== Sys2Proof/Machine/Flags.lean ====
section
/-! DEFINITION. Status bits. MZC has no flags, condition codes or predicates: no command reports carry or overflow
(spec/10_state.md R29). The only status bits are those of STATUS (R36), which report the state of a run, and the
interrupt output computed from them (spec/60_exceptions.md R147). -/
namespace Sys2Proof.Machine

/-- One bit as a word. -/
def bitWord (b : Bool) : Word := (BitVec.ofBool b).setWidth 32

/-- STATUS as the host reads it: BUSY, DONE, FAULT, HERR in bits 0 to 3; bits [31:4] read 0 (R36). -/
def State.statusWord (s : State) : Word :=
  bitWord s.busy ||| bitWord s.done <<< 1 ||| bitWord s.fault <<< 2 ||| bitWord s.herr <<< 3

/-- A host write of v to STATUS: DONE, FAULT and HERR are write-1-to-clear; BUSY and bits [31:4] are not
written (R36). -/
def State.writeStatus (s : State) (v : Word) : State :=
  { s with
    done := s.done && !v.getLsbD 1
    fault := s.fault && !v.getLsbD 2
    herr := s.herr && !v.getLsbD 3 }

/-- `IRQ = CTRL.IE AND (STATUS.DONE OR STATUS.FAULT)`, a level (R147). -/
def State.irq (s : State) : Bool := s.ie && (s.done || s.fault)

end Sys2Proof.Machine
end

