-- ==== Sys2Proof/Machine/HostPort.lean ====
section
/-! DEFINITION. The host port: the control block and the memory window, starting a run, and the reset input
(spec/10_state.md section 5; spec/20_memory.md R59 to R61; spec/45_system_and_transfer.md R133;
spec/60_exceptions.md R143 to R147; spec/70_reset_and_hazards.md R155). -/
namespace Sys2Proof.Machine

/-- Where a host address leads (R59). -/
inductive HostTarget where
  /-- An offset in the control block, 0x000 to 0xFFF. -/
  | control (offset : Nat)
  /-- A device-memory address. -/
  | memory (addr : Nat)
  /-- Neither window: the access does not reach MZC. -/
  | outside
  deriving DecidableEq, Repr

/-- The two windows of the host's address space (R59). DESIGN CHOICE (log entry 9): the control block is looked up
first, where the two windows overlap; and an access is routed by its first byte alone, so that a 32-bit access which
begins below a window and ends inside it is outside. -/
def routeHost (d : Device) (a : Nat) : HostTarget :=
  if d.hostCsrBase ≤ a ∧ a < d.hostCsrBase + 0x1000 then .control (a - d.hostCsrBase)
  else if d.hostMemBase ≤ a ∧ a < d.hostMemBase + d.memSize then .memory (a - d.hostMemBase)
  else .outside

/-! ### Control block, reads (R30 to R43) -/

/-- CFG: W, K, NLANES - 1, CARRY_MODE, NEG_INT_PARSE (R32). -/
def cfgWord (d : Device) : Word :=
  BitVec.ofNat 32 d.width.bits ||| BitVec.ofNat 32 4 <<< 8 ||| d.lanesLess1.setWidth 32 <<< 16
    ||| bitWord (d.carryMode == .twoPass) <<< 24 ||| bitWord (d.negIntParse == .literal) <<< 25

/-- CTRL as read: IE in bit 1; START and bits [31:2] read 0 (R35). -/
def State.ctrlWord (s : State) : Word := bitWord s.ie <<< 1

/-- What a host read of the control register at an offset returns (R30 to R43); reserved offsets read 0. -/
def State.csrRead (s : State) (offset : Nat) : Word :=
  match offset with
  | 0x000 => Config.idValue
  | 0x004 => cfgWord s.dev
  | 0x008 => BitVec.ofNat 32 s.memSize
  | 0x00C => BitVec.ofNat 32 Config.strMax
  | 0x010 => s.ctrlWord
  | 0x014 => s.statusWord
  | 0x018 => s.cpStart
  | 0x01C => s.cp
  | 0x020 => s.fcause.code.setWidth 32
  | 0x024 => s.faddr
  | 0x028 => s.fcmd0
  | 0x02C => s.fcmd1
  | 0x030 => s.palsize
  | _ => 0

/-! ### Control block, writes -/

/-- HERR is set by a refused access, which has no other effect (R146). -/
def State.hostError (s : State) : State := { s with herr := true }

/-- An accepted START: `BUSY = 1 ; DONE = 0 ; cp = CPSTART` (R133). -/
def State.startRun (s : State) : State := { s with busy := true, done := false, cp := s.cpStart }

/-- A host write of v to CTRL: IE is written; START is refused with HERR while BUSY or FAULT is 1, else it begins a
run (R35, R133). -/
def State.writeCtrl (s : State) (v : Word) : State :=
  let s := { s with ie := v.getLsbD 1 }
  if v.getLsbD 0 then (if s.busy || s.fault then s.hostError else s.startRun) else s

/-- A host write to CPSTART: ignored with HERR while BUSY (R37). -/
def State.writeCpStart (s : State) (v : Word) : State :=
  if s.busy then s.hostError else { s with cpStart := v }

/-- A host write to PALSIZE: ignored with HERR while BUSY (R42). -/
def State.writePalsize (s : State) (v : Word) : State :=
  if s.busy then s.hostError else { s with palsize := v }

/-- A host write to the control register at an offset (R30 to R43); writes to read-only and reserved offsets are
ignored. -/
def State.csrWrite (s : State) (offset : Nat) (v : Word) : State :=
  match offset with
  | 0x010 => s.writeCtrl v
  | 0x014 => s.writeStatus v
  | 0x018 => s.writeCpStart v
  | 0x030 => s.writePalsize v
  | _ => s

/-! ### Memory window (R60, R61) -/

/-- The host's read of n bytes of device memory: while BUSY it returns 0 and sets HERR (R61). -/
def State.windowRead (s : State) (a n : Nat) : State :=
  if s.busy then { s.hostError with hostRData := 0 }
  else { s with hostRData := BitVec.ofNat 32 (s.memRead a n) }

/-- The host's write of n bytes to device memory: while BUSY it is ignored and sets HERR (R61). -/
def State.windowWrite (s : State) (a n v : Nat) : State :=
  if s.busy then s.hostError else s.memWrite a n v

/-! ### One access, and reset -/

/-- One 8-bit or 32-bit host read (R59, R60). DESIGN CHOICE (log entry 9): 'at a multiple of 4' is measured on the
offset inside the window, not on the host's own address; the two differ where a window's base is no multiple of 4. -/
def State.hostRead (s : State) (addr n : Nat) : Host.Outcome State Fault Refusal :=
  match routeHost s.dev addr with
  | .outside => .next s
  | .control offset =>
    if n = 4 ∧ offset % 4 = 0 then .next { s with hostRData := s.csrRead offset } else .refused .hostAccessUndefined
  | .memory a => if n = 1 ∨ a % 4 = 0 then .next (s.windowRead a n) else .refused .hostAccessUndefined

/-- One 8-bit or 32-bit host write (R59, R60). DESIGN CHOICE (log entry 9): 'at a multiple of 4' is measured on the
offset inside the window, as for a read. -/
def State.hostWrite (s : State) (addr n : Nat) (v : Word) : Host.Outcome State Fault Refusal :=
  match routeHost s.dev addr with
  | .outside => .next s
  | .control offset =>
    if n = 4 ∧ offset % 4 = 0 then .next (s.csrWrite offset v) else .refused .hostAccessUndefined
  | .memory a => if n = 1 ∨ a % 4 = 0 then .next (s.windowWrite a n v.toNat) else .refused .hostAccessUndefined

/-- The platform's reset input: every field as R155 says, with fresh draws for memory; the outside world keeps its
own moves and what it last read. -/
def State.platformReset (s : State) : State :=
  { State.resetOf s.dev (s.resets + 1) with host := s.host, hostRData := s.hostRData }

end Sys2Proof.Machine
end

