-- ==== Sys2Proof/Machine/Cycle.lean ====
section
/-! DEFINITION. The command cycle: fetch, decode, execute (spec/30_encoding.md R73, R74;
spec/45_system_and_transfer.md R131), and one move of the machine, by the host or by MZC. -/
namespace Sys2Proof.Machine

/-- The fault of the fetch at CP, if any: ALIGN, then BUS (R73). -/
def State.fetchFault (s : State) : Option Cause :=
  if s.cp.toNat % 8 ≠ 0 then some .align
  else if s.inRange s.cp.toNat 8 = false then some .bus
  else none

/-- word0, the word at CP (R73). -/
def State.fetch0 (s : State) : Word := s.wordAt s.cp.toNat

/-- word1, the word at CP + 4 (R73). -/
def State.fetch1 (s : State) : Word := s.wordAt (s.cp.toNat + 4)

/-- One command of a run: fetch, decode, execute; a fault in any of them ends the run (R131). A fetch fault records no
words, an ILLEGAL records the two words fetched (R41, R74). -/
def commandCycle (s : State) : Host.Outcome State Fault Refusal :=
  match s.fetchFault with
  | some c => .next (s.takeFault c s.cp 0 0)
  | none =>
    match decodeWords s.fetch0 s.fetch1 with
    | .illegal _ => .next (s.takeFault .illegal s.cp s.fetch0 s.fetch1)
    | .command i => exec i s

/-- MZC moves: one command while a run is in progress; idle otherwise, executing nothing until a START (R154, R155). -/
def deviceMove (s : State) : Host.Outcome State Fault Refusal :=
  if s.busy then commandCycle s else .next s

/-- One move of the outside world, wholly between two commands (R143). -/
def hostMove (m : HostMove) (s : State) : Host.Outcome State Fault Refusal :=
  match m with
  | .pass => deviceMove s
  | .read8 addr => s.hostRead addr 1
  | .write8 addr v => s.hostWrite addr 1 (v.setWidth 32)
  | .read32 addr => s.hostRead addr 4
  | .write32 addr v => s.hostWrite addr 4 v
  | .reset => .next s.platformReset

/-- One step: the next move of the outside world, or, when none is left, MZC's own. -/
def machineMove (s : State) : Host.Outcome State Fault Refusal :=
  match s.host with
  | [] => deviceMove s
  | m :: rest => hostMove m { s with host := rest }

/-- The state in which a run is in progress and the next move is MZC's, started as an accepted START would if no run
is in progress (R133), with CP at an address a command can be fetched from. -/
def State.readyToFetch (s : State) : State :=
  let s := if s.busy then s else { s with fault := false }.startRun
  let s := { s with host := [] }
  if s.fetchFault = none then s else { s with cp := 0 }

end Sys2Proof.Machine
end

