-- ==== Sys2Proof/Machine/Step.lean ====
section
/-! DEFINITION. One step of the machine, and the state in which a given command is the next one fetched. -/
namespace Sys2Proof.Machine

/-- One step: a move of the host or one command of MZC (R2, R131, R143). -/
def step (s : State) : Host.Outcome State Fault Refusal := machineMove s

/-- `s` with the command whose bits are `w` (numbered as the opcode table numbers them: word0 is bits 31..0, word1 bits
63..32; bits from `nbits` on are 0) stored where `step` fetches next: the program is loaded from outside and
the run started by the host, which this stands for (log entry 7). -/
def State.withFetchWord (s : State) (nbits w : Nat) : State :=
  s.readyToFetch.memWrite s.readyToFetch.cp.toNat 8 (w % 2 ^ nbits)

end Sys2Proof.Machine
end

