-- ==== Sys2Proof/Machine/Assembler.lean ====
section
/-! DEFINITION. The assembly language of spec/30_encoding.md section 4: command lines (R78), data directives (R79) and
pseudo-instructions (R80), from lines of text to the bytes of a memory image. No step of the machine uses it; it says
what a program text means. What R78 and R79 leave open (white space, the characters of a label, the range of `.word`,
the operands of `.org`, `.align` and `.zero`, the case of directive names, the first emission address) is chosen in log
entry 8. -/
namespace Sys2Proof.Assembler

/-- An address or value expression: an integer, a label, or a label plus or minus an integer (R78). -/
inductive Expr where
  | number (n : Int)
  | label (name : List Char) (offset : Int)
  deriving DecidableEq, Repr

/-- An operand: a register, a memory operand `[expr]`, or an immediate `#expr` (R78). -/
inductive Operand where
  | reg (r : Reg)
  | mem (e : Expr)
  | imm (e : Expr)
  deriving DecidableEq, Repr

/-- One statement of a program. -/
inductive Line where
  /-- `name:` (R78). -/
  | label (name : List Char)
  /-- A command or pseudo-instruction, mnemonic in lower case (R78, R80). -/
  | command (mnemonic : List Char) (operands : List Operand)
  /-- `.org a` (R79). -/
  | org (a : Nat)
  /-- `.align n` (R79). -/
  | align (n : Nat)
  /-- `.word v` (R79). -/
  | word (v : Expr)
  /-- `.zero n` (R79). -/
  | zero (n : Nat)
  /-- `.asciz "text"` (R79). -/
  | asciz (text : List Byte)
  /-- `.fixed "decimal"` (R79). -/
  | fixed (text : List Byte)
  deriving DecidableEq, Repr

/-! ### Pseudo-instructions (R80) -/

/-- `SUB fd, fa, fb, ft`: `NEG ft, fb ; ADD fd, fa, ft`; ft must differ from fa (R80). DESIGN CHOICE (log entry 8): where
it does not, the line is an assembly error. -/
def expandSub (fd fa fb ft : Reg) : Option (List Instr) :=
  if ft = fa then none else some [.neg ft fb, .add fd fa ft]

/-- `CLR fd`: `LDI fd, #0` (R80). -/
def expandClr (fd : Reg) : List Instr := [.ldi fd 0]

/-- `LD1 fd`: `LDI fd, #1` (R80). -/
def expandLd1 (fd : Reg) : List Instr := [.ldi fd 1]

/-- `SCALE fs, fr`: `MUL fs, fs, fr` (R80). -/
def expandScale (fs fr : Reg) : List Instr := [.mul fs fs fr]

/-! ### Expressions and commands (R78) -/

/-- The label addresses of a program. -/
abbrev Labels := List (List Char × Nat)

/-- The value of an expression; `none` for an undefined label. -/
def Expr.value (env : Labels) : Expr → Option Int
  | .number n => some n
  | .label name k => (env.lookup name).map fun a => (a : Int) + k

/-- An address operand: outside [0, 2^32 - 1] is an assembly error (R78). -/
def Expr.address (env : Labels) (e : Expr) : Option Word :=
  (e.value env).bind fun v => if 0 ≤ v ∧ v < 2 ^ 32 then some (BitVec.ofInt 32 v) else none

/-- An immediate operand: outside [-2^31, 2^31 - 1] is an assembly error (R78). -/
def Expr.immediate (env : Labels) (e : Expr) : Option Word :=
  (e.value env).bind fun v => if -2 ^ 31 ≤ v ∧ v < 2 ^ 31 then some (BitVec.ofInt 32 v) else none

/-- The commands a command line stands for: one of R78's forms or of R80's; `none` is an assembly error. -/
def commandInstrs (env : Labels) (mnemonic : List Char) (ops : List Operand) : Option (List Instr) :=
  match String.ofList mnemonic, ops with
  | "nop", [] => some [.nop]
  | "halt", [] => some [.halt]
  | "ldf", [.reg d, .mem e] => (e.address env).map fun a => [.ldf d a]
  | "stf", [.reg a, .mem e] => (e.address env).map fun addr => [.stf a addr]
  | "ldi", [.reg d, .imm e] => (e.immediate env).map fun i => [.ldi d i]
  | "mov", [.reg d, .reg a] => some [.mov d a]
  | "inc", [.reg d, .reg a] => some [.inc d a]
  | "neg", [.reg d, .reg a] => some [.neg d a]
  | "dbl", [.reg d, .reg a] => some [.dbl d a]
  | "add", [.reg d, .reg a, .reg b] => some [.add d a b]
  | "mul", [.reg d, .reg a, .reg b] => some [.mul d a b]
  | "sqr", [.reg d, .reg a] => some [.sqr d a]
  | "parse", [.reg d, .mem e] => (e.address env).map fun a => [.parse d a]
  | "fmt", [.reg a, .mem e] => (e.address env).map fun addr => [.fmt a addr]
  | "escape", [.reg a, .reg b, .reg c, .mem e] => (e.address env).map fun d => [.escape a b c d]
  | "sub", [.reg d, .reg a, .reg b, .reg t] => expandSub d a b t
  | "clr", [.reg d] => some (expandClr d)
  | "ld1", [.reg d] => some (expandLd1 d)
  | "scale", [.reg s, .reg r] => some (expandScale s r)
  | _, _ => none

/-! ### Two passes over the lines -/

/-- The bytes of a FixedPoint value in memory order (R51). -/
def valueBytesOf {w : Nat} (x : FixedPoint w) : List Byte :=
  [0, 1, 2, 3].flatMap fun i =>
    (List.range (FixedPoint.limbBytes w)).map fun k => (x.limb i).extractLsb' (8 * k) 8

/-- The bytes a line emits at an address, given the labels; `none` is an assembly error. `.org` emits nothing. -/
def lineBytes (d : Device) (env : Labels) (at_ : Nat) : Line → Option (List Byte)
  | .label _ => some []
  | .command m ops => (commandInstrs env m ops).map fun is => is.flatMap encode
  | .org a => if at_ ≤ a then some [] else none
  | .align n => if n = 0 then none else some (List.replicate ((n - at_ % n) % n) 0)
  | .word v => (v.value env).bind fun x =>
      if -2 ^ 31 ≤ x ∧ x < 2 ^ 32 then some (bytesOfWord (BitVec.ofInt 32 x)) else none
  | .zero n => some (List.replicate n 0)
  | .asciz text => some (text ++ [0])
  | .fixed text => if Config.strMax < text.length then none else (Codec.split text).bind fun t =>
      (Codec.parseValue d.width.bits d.negIntParse t).map fun x => valueBytesOf x

/-- How many bytes a line emits; it does not depend on label values. -/
def lineSize (d : Device) (at_ : Nat) : Line → Nat
  | .label _ | .org _ => 0
  | .command m _ => if m = "sub".toList then 16 else 8
  | .align n => (n - at_ % n) % n
  | .word _ => 4
  | .zero n => n
  | .asciz text => text.length + 1
  | .fixed _ => FixedPoint.valueBytes d.width.bits

/-- The emission address after a line: `.org` moves it (R79). -/
def nextAddr (d : Device) (at_ : Nat) : Line → Nat
  | .org a => a
  | l => at_ + lineSize d at_ l

/-- The address of the next byte that lines emit, the lines that emit none (a label, an `.org`, an `.align` with
nothing to pad, a `.zero 0`) passed over (R78). DESIGN CHOICE (log entry 8): where no byte follows, the emission address
at the end. -/
def nextByteAddr (d : Device) (at_ : Nat) : List Line → Nat
  | [] => at_
  | l :: rest => if lineSize d at_ l = 0 then nextByteAddr d (nextAddr d at_ l) rest else at_

/-- First pass: the address of every label, which is that of the next emitted byte, so a label before an `.org` is the
address the `.org` moves to (R78); `none` when a label is defined twice. -/
def labelsOf (d : Device) (at_ : Nat) (env : Labels) : List Line → Option Labels
  | [] => some env
  | .label name :: rest =>
    if (env.lookup name).isSome then none else labelsOf d at_ ((name, nextByteAddr d at_ rest) :: env) rest
  | l :: rest => labelsOf d (nextAddr d at_ l) env rest

/-- Second pass: the bytes with their addresses, ascending; `none` is an assembly error. -/
def emit (d : Device) (env : Labels) (at_ : Nat) : List Line → Option (List Host.Cell)
  | [] => some []
  | l :: rest =>
    match lineBytes d env at_ l, emit d env (nextAddr d at_ l) rest with
    | some bytes, some cells => some ((bytes.zipIdx at_).map (fun bi => (bi.2, bi.1)) ++ cells)
    | _, _ => none

/-- The memory image of a program (R78, R79). DESIGN CHOICE (log entry 8): emission starts at address 0, since the
spec gives no emission address before the first `.org`. -/
def assemble (d : Device) (lines : List Line) : Option (List Host.Cell) :=
  (labelsOf d 0 [] lines).bind fun env => emit d env 0 lines

/-! ### Reading one line of text (R78) -/

/-- White space inside a line. -/
def isBlank (c : Char) : Bool := c = ' ' || c = '\t' || c = '\r'

/-- A list of characters without its blanks at both ends. -/
def trim (cs : List Char) : List Char := (cs.dropWhile isBlank).rdropWhile isBlank

/-- The characters before a `;` that stands outside quotes. -/
def dropComment (quoted : Bool) : List Char → List Char
  | [] => []
  | c :: cs => if c = ';' ∧ quoted = false then [] else c :: dropComment (quoted ^^ (c = '"')) cs

/-- Split at the commas. -/
def splitCommas (word : List Char) : List Char → List (List Char)
  | [] => [word.reverse]
  | c :: cs => if c = ',' then word.reverse :: splitCommas [] cs else splitCommas (c :: word) cs

/-- The value of a digit character in base 10 or 16. -/
def digitOf (base : Nat) (c : Char) : Option Nat :=
  let n := c.toNat
  let v := if 0x30 ≤ n ∧ n ≤ 0x39 then n - 0x30
    else if 0x61 ≤ n ∧ n ≤ 0x66 then n - 0x61 + 10
    else if 0x41 ≤ n ∧ n ≤ 0x46 then n - 0x41 + 10 else 99
  if v < base then some v else none

/-- A nonempty list of digits in a base. -/
def digitsIn (base : Nat) (cs : List Char) : Option Nat :=
  if cs = [] then none
  else cs.foldl (fun acc c => acc.bind fun n => (digitOf base c).map fun d => base * n + d) (some 0)

/-- A decimal or `0x` hexadecimal integer without sign (R78). DESIGN CHOICE (log entry 8): hexadecimal digits are taken
in either case, the `0x` in lower case only, and leading zeros are accepted. -/
def readNat (cs : List Char) : Option Nat :=
  match cs with
  | '0' :: 'x' :: hex => digitsIn 16 hex
  | _ => digitsIn 10 cs

/-- A label name: letters, digits and `_`, not a digit first. -/
def isName (cs : List Char) : Bool :=
  match cs with
  | [] => false
  | c :: rest => (c.isAlpha || c = '_') && rest.all fun k => k.isAlphanum || k = '_'

/-- An expression (R78). DESIGN CHOICE (log entry 8): a number by itself may have a leading '-', hexadecimal too, and no
leading '+'; the integer after `label +` or `label -` has no sign of its own; blanks may stand around the expression, after the '-' and on
either side of a label's '+' or '-'; R78 says only 'a decimal or 0x hexadecimal
integer'. -/
def readExpr (cs : List Char) : Option Expr :=
  match trim cs with
  | '-' :: n => (readNat (trim n)).map fun k => .number (-(k : Int))
  | t =>
    match readNat t with
    | some n => some (.number n)
    | none =>
      let name := trim (t.takeWhile fun c => c != '+' && c != '-')
      if isName name = false then none
      else match t.dropWhile fun c => c != '+' && c != '-' with
        | [] => some (.label name 0)
        | sign :: n => (readNat (trim n)).map fun k => .label name (if sign = '+' then k else -(k : Int))

/-- A register name `f0` to `f15`, case-insensitive (R78). -/
def readReg (cs : List Char) : Option Reg :=
  match cs with
  | f :: ds => if f = 'f' ∨ f = 'F' then (digitsIn 10 ds).bind fun n =>
      if n < 16 ∧ ds.length ≤ 2 ∧ (ds.length = 2 → 10 ≤ n) then some (BitVec.ofNat 4 n) else none else none
  | [] => none

/-- An operand (R78). DESIGN CHOICE (log entry 8): blanks may stand around it, inside the brackets and after the '#', but
not inside a register name; R78 writes `[expr]` and `#expr` without any and does not say. -/
def readOperand (cs : List Char) : Option Operand :=
  match trim cs with
  | '[' :: rest => if rest.getLast? = some ']' then (readExpr rest.dropLast).map .mem else none
  | '#' :: rest => (readExpr rest).map .imm
  | t => (readReg t).map .reg

/-- Read every operand of a list, or none. -/
def readOperands : List (List Char) → Option (List Operand)
  | [] => some []
  | t :: ts => match readOperand t, readOperands ts with
    | some o, some os => some (o :: os)
    | _, _ => none

/-- A quoted text as bytes. -/
def readQuoted (cs : List Char) : Option (List Byte) :=
  match cs with
  | '"' :: rest =>
    if rest.getLast? = some '"' ∧ rest.dropLast.all (fun c => c != '"' && c.toNat < 128) then
      some (rest.dropLast.map fun c => BitVec.ofNat 8 c.toNat) else none
  | _ => none

/-- A directive, a command or a pseudo-instruction: a word, then its operands (R78, R79). DESIGN CHOICE (log entry 8):
a directive's name is case-insensitive, of which R78 says nothing (it says so of mnemonics and register names); `.org`,
`.align` and `.zero` take an unsigned integer only, `.word` any expression, since R79 does not say what their operands
may be. -/
def readStatement (t : List Char) : Option Line :=
  let m := (t.takeWhile fun c => !isBlank c).map Char.toLower
  let rest := trim (t.dropWhile fun c => !isBlank c)
  match String.ofList m with
  | ".org" => (readNat rest).map .org
  | ".align" => (readNat rest).map .align
  | ".word" => (readExpr rest).map .word
  | ".zero" => (readNat rest).map .zero
  | ".asciz" => (readQuoted rest).map .asciz
  | ".fixed" => (readQuoted rest).map .fixed
  | _ => (if rest = [] then some [] else readOperands (splitCommas [] rest)).map fun os => .command m os

/-- One line of text: an optional `name:`, an optional statement, an optional comment (R78). DESIGN CHOICE (log entry
8): a line holds at most one label, which may stand alone or before a statement, and a second label on it is an assembly
error; blanks may stand before and after the ':' and around the statement; R78 does not say. -/
def readLine (text : String) : Option (List Line) :=
  let t := trim (dropComment false text.toList)
  let name := trim (t.takeWhile fun c => c != ':')
  let labelled := t.any (fun c => c = ':') && isName name
  let body := if labelled then trim ((t.dropWhile fun c => c != ':').drop 1) else t
  let front := if labelled then [Line.label name] else []
  if body = [] then some front else (readStatement body).map fun l => front ++ [l]

/-- A program text, one line a list entry. -/
def readProgram : List String → Option (List Line)
  | [] => some []
  | t :: ts => match readLine t, readProgram ts with
    | some ls, some rest => some (ls ++ rest)
    | _, _ => none

/-- From program text to memory image; `none` is an assembly error. -/
def assembleText (d : Device) (text : List String) : Option (List Host.Cell) :=
  (readProgram text).bind (assemble d)

end Sys2Proof.Assembler
end

