-- ==== Sys2Proof/Safety.lean ====
section
/-! DEFINITION. What counts as a safe run, and the invariants and frames that claims use.
MZC itself never stops the model; what a program must not do is read a FixedPoint register that no command has
written since reset (spec/10_state.md R25, spec/70_reset_and_hazards.md R156). -/
namespace Sys2Proof.Machine

/-! ### The program's duty (R25) -/

/-- The FixedPoint registers a command reads (R24, R75). -/
def sources : Instr → List Reg
  | .nop | .halt | .ldf _ _ | .ldi _ _ | .parse _ _ => []
  | .stf ra _ | .fmt ra _ => [ra]
  | .mov _ ra | .inc _ ra | .neg _ ra | .dbl _ ra | .sqr _ ra => [ra]
  | .add _ ra rb | .mul _ ra rb => [ra, rb]
  | .escape ra rb rc _ => [ra, rb, rc]

/-- A command has written the register since reset. -/
def State.isWritten (s : State) (r : Reg) : Bool := s.written[r.toNat]'r.isLt

/-- Every register the command reads has been written (R25). The spec calls the opposite a "model fault"; the model
goes on with the value of the register, and a run that does so is not safe (log entry 2). -/
def State.sourcesWritten (s : State) (i : Instr) : Bool := (sources i).all s.isWritten

/-- The command MZC executes next, if a run is in progress and the fetch and the decode succeed (R131). -/
def State.nextCommand (s : State) : Option Instr :=
  if s.busy = true ∧ s.fetchFault = none then
    match decodeWords s.fetch0 s.fetch1 with
    | .command i => some i
    | .illegal _ => none
  else none

/-- The next command reads only written registers. -/
def State.safe (s : State) : Bool := s.nextCommand.all s.sourcesWritten

/-! ### Invariants -/

/-- Memory is in its canonical form: strictly rising addresses inside device memory (R47). -/
def State.memoryCanonical (s : State) : Prop := Memory.wf s.memSize s.mem = true

/-- Every register holds an N-bit pattern: its limb containers hold W-bit limbs (R20, R23). -/
def State.limbsFit (s : State) : Prop := ∀ r : Reg, (s.readF r).toContainer = s.f[r.toNat]'r.isLt

/-- While a run is in progress neither DONE nor FAULT is set, and DONE and FAULT are never both set
(R36, R133, R135, R141). -/
def State.runBitsExclusive (s : State) : Prop :=
  (s.busy = true → s.done = false ∧ s.fault = false) ∧ ¬ (s.done = true ∧ s.fault = true)

/-- An unacknowledged fault has a recorded cause (R39, R141). -/
def State.faultRecorded (s : State) : Prop := s.fault = true → s.fcause ≠ .none

/-- A register no command has written since reset still holds the value the model gives it at reset. -/
def State.unwrittenAtReset (s : State) : Prop :=
  ∀ r : Reg, s.isWritten r = false → s.f[r.toNat]'r.isLt = ⟨0, 0, 0, 0⟩

/-- The invariant of the machine. -/
structure State.Inv (s : State) : Prop where
  memory   : s.memoryCanonical
  limbs    : s.limbsFit
  runBits  : s.runBitsExclusive
  recorded : s.faultRecorded
  fresh    : s.unwrittenAtReset

/-! ### Values as integers -/

/-- The pattern of a register, an N-bit unsigned integer (R20). -/
def State.patF (s : State) (r : Reg) : Nat := (s.readF r).pat

/-- 2^N, the number of patterns (R7). -/
def State.patterns (s : State) : Nat := 2 ^ (4 * s.w)

/-- 2^F, one unit of the integer limb in ulp (R7). -/
def State.unit (s : State) : Nat := 2 ^ (3 * s.w)

/-- The sum of the products that MUL keeps, on the magnitudes: `U_i * V_j * 2^(W*(3-i-j))` over i + j <= 3 (R111). -/
def keptProducts {w : Nat} (u v : FixedPoint w) : Nat :=
  ((List.range 4).map fun i => ((List.range 4).map fun j =>
    if i + j ≤ 3 then (u.magnitude.limb i).toNat * (v.magnitude.limb j).toNat * 2 ^ (w * (3 - i - j)) else 0).sum).sum

/-- v * 10^m for the value v that a split string denotes, m its number of fractional digits (R83). -/
def decimalNumerator (t : Codec.DecimalText) : Int :=
  let n : Int := (t.whole * 10 ^ t.places + t.fraction : Nat)
  if t.neg then -n else n

/-- Every byte is one of the ASCII digits '0' to '9' (R81). -/
def areDigits (s : List Byte) : Prop := ∀ c ∈ s, 0x30 ≤ c.toNat ∧ c.toNat ≤ 0x39

/-- The integer that digit bytes denote in base 10, the most significant first (R83). -/
def decimalValue (s : List Byte) : Nat := Nat.ofDigits 10 (s.reverse.map fun c => c.toNat - 0x30)

/-- The text of a value as R89 writes it: a '-' exactly when the value is negative, the digits of the whole part with no
leading zero, a '.', and the digits of the fraction with no trailing zero, either part being "0" when it is 0. The two
numbers are those of |val(X)| = |sval| / 2^F (R21); together the clauses determine the text. -/
def IsTextOf {w : Nat} (x : FixedPoint w) (text : List Byte) : Prop :=
  ∃ ds fs : List Byte,
    text = (if x.sval < 0 then [0x2D] else []) ++ ds ++ [0x2E] ++ fs ∧
    ds ≠ [] ∧ areDigits ds ∧ (ds.head? = some 0x30 → ds = [0x30]) ∧
    fs ≠ [] ∧ areDigits fs ∧ (fs.getLast? = some 0x30 → fs = [0x30]) ∧
    decimalValue ds = x.sval.natAbs / 2 ^ (3 * w) ∧
    decimalValue fs * 2 ^ (3 * w) = x.sval.natAbs % 2 ^ (3 * w) * 10 ^ fs.length

/-- The string of a PARSE operand: the bytes from a, none of them NUL and at most STR_MAX of them, then a NUL, all
inside device memory (R81, R91). -/
def State.HoldsText (s : State) (a : Nat) (bytes : List Byte) : Prop :=
  bytes.length ≤ Config.strMax ∧ a + bytes.length < s.memSize ∧ s.byteAt (a + bytes.length) = 0 ∧
    ∀ k, (h : k < bytes.length) → bytes[k] ≠ 0 ∧ s.byteAt (a + k) = bytes[k]

/-! ### Frames -/

/-- What a command that writes only register rd leaves: every other register, CP advanced by 8, every byte of memory
and everything else unchanged; rd is then written and holds an N-bit pattern (R24, R28). -/
structure State.WroteOnly (s t : State) (rd : Reg) : Prop where
  rest      : t = { s with f := t.f, written := s.written.set rd.toNat true rd.isLt, cp := s.cp + 8 }
  registers : ∀ r : Reg, r ≠ rd → t.f[r.toNat]'r.isLt = s.f[r.toNat]'r.isLt
  fits      : (t.readF rd).toContainer = t.f[rd.toNat]'rd.isLt
  memory    : ∀ a : Nat, t.byteAt a = s.byteAt a

/-- What a command that writes only the n bytes of memory from a leaves: every byte outside them, every register, and
everything else but CP, which advances by 8 (R28, R56). -/
structure State.StoredOnly (s t : State) (a n : Nat) : Prop where
  rest   : t = { s with mem := t.mem, cp := s.cp + 8 }
  memory : ∀ b : Nat, (b < a ∨ a + n ≤ b) → t.byteAt b = s.byteAt b

/-- What taking a fault leaves: the record, FAULT and BUSY; CP, every register, every byte of memory and everything
else unchanged (R141). -/
def State.Faulted (s t : State) (c : Cause) (addr word0 word1 : Word) : Prop :=
  t = { s with fcause := c, faddr := addr, fcmd0 := word0, fcmd1 := word1, fault := true, busy := false }

/-- The values that the spec gives after a reset (R155). The FixedPoint registers and memory are unspecified there, and
nothing is said of them here. -/
structure State.AtResetValues (s : State) : Prop where
  cp      : s.cp = 0
  ie      : s.ie = false
  status  : s.busy = false ∧ s.done = false ∧ s.fault = false ∧ s.herr = false
  cpStart : s.cpStart = 0
  fcause  : s.fcause = .none
  faddr   : s.faddr = 0
  fcmd    : s.fcmd0 = 0 ∧ s.fcmd1 = 0
  palsize : s.palsize = 767
  irq     : s.irq = false

/-- Two states that differ at most in what registers hold that no command has written since reset (R25). -/
structure State.AgreeOnWritten (s t : State) : Prop where
  rest      : t = { s with f := t.f }
  registers : ∀ r : Reg, s.isWritten r = true → t.f[r.toNat]'r.isLt = s.f[r.toNat]'r.isLt

end Sys2Proof.Machine
end

