-- ==== Sys2Proof/Certificates/Slice0/Obligations.lean ====
section
/-! DEFINITION. What is claimed of the model, one definition per claim; OBLIGATIONS.json lists them with the rules of
spec/ they formalise. -/
open Sys2Proof Sys2Proof.Machine

/-! ### Encoding (30_encoding.md) -/

/-- R70, R71, R74, R75: decoding the encoding of any command gives it back, whatever bytes follow. -/
def Obligations.EncodeThenDecode : Prop :=
  ∀ (i : Instr) (rest : List Byte), decode (encode i ++ rest) = (.command i, rest)

/-- R71, R74, R75: two words that decode to a command are that command's own two words, so no bit is dropped, and FCMD0
and FCMD1 (R41) can be taken from the decoded command. -/
def Obligations.DecodeThenEncode : Prop :=
  ∀ (w0 w1 : Word) (i : Instr), decodeWords w0 w1 = .command i → i.word0 = w0 ∧ i.word1 = w1

/-- R71, R74, R75, R76: the decoder, written from R74's checks, accepts exactly the words that R75's match and mask pairs
select; and the words of every command are those of R71's formula with R75's opcode number, fields and word1. -/
def Obligations.CommandsAreTheMatchRows : Prop :=
  (∀ w0 w1 : Word, (∃ i, decodeWords w0 w1 = .command i) ↔ wellFormed w0 w1 = true) ∧
  ∀ (rd ra rb rc : Reg) (w1 : Word),
    let pack (op : Word) (rd ra rb rc : Reg) : Word := op <<< 24 ||| rd.setWidth 32 <<< 20 ||| ra.setWidth 32 <<< 16
      ||| rb.setWidth 32 <<< 12 ||| rc.setWidth 32 <<< 8
    let words (i : Instr) : Word × Word := (i.word0, i.word1)
    words .nop = (pack 0x00 0 0 0 0, 0) ∧ words .halt = (pack 0x01 0 0 0 0, 0) ∧
    words (.ldf rd w1) = (pack 0x10 rd 0 0 0, w1) ∧ words (.stf ra w1) = (pack 0x11 0 ra 0 0, w1) ∧
    words (.ldi rd w1) = (pack 0x12 rd 0 0 0, w1) ∧ words (.mov rd ra) = (pack 0x13 rd ra 0 0, 0) ∧
    words (.inc rd ra) = (pack 0x20 rd ra 0 0, 0) ∧ words (.neg rd ra) = (pack 0x21 rd ra 0 0, 0) ∧
    words (.dbl rd ra) = (pack 0x22 rd ra 0 0, 0) ∧ words (.add rd ra rb) = (pack 0x30 rd ra rb 0, 0) ∧
    words (.mul rd ra rb) = (pack 0x40 rd ra rb 0, 0) ∧ words (.sqr rd ra) = (pack 0x41 rd ra 0 0, 0) ∧
    words (.parse rd w1) = (pack 0x50 rd 0 0 0, w1) ∧ words (.fmt ra w1) = (pack 0x51 0 ra 0 0, w1) ∧
    words (.escape ra rb rc w1) = (pack 0x60 0 ra rb rc, w1)

/-- R77: the eight worked encodings. -/
def Obligations.WorkedEncodings : Prop :=
  decodeWords 0x30123000 0 = .command (.add 1 2 3) ∧
  encode (.add 1 2 3) = [0x00, 0x30, 0x12, 0x30, 0x00, 0x00, 0x00, 0x00] ∧
  decodeWords 0x40445000 0 = .command (.mul 4 4 5) ∧
  decodeWords 0x41290000 0 = .command (.sqr 2 9) ∧
  decodeWords 0x12300000 0xFFFFFFFE = .command (.ldi 3 (BitVec.ofInt 32 (-2))) ∧
  decodeWords 0x50100000 0x400 = .command (.parse 1 0x400) ∧
  decodeWords 0x51010000 0x500 = .command (.fmt 1 0x500) ∧
  decodeWords 0x60046700 0x800 = .command (.escape 4 6 7 0x800) ∧
  decodeWords 0x01000000 0 = .command .halt

/-! ### The command cycle (30_encoding.md R73, R74; 45_system_and_transfer.md R131) -/

/-- R131, R73, R74: while a run is in progress and CP is aligned and in range, if the 8 bytes at CP decode to a command,
then a step in which MZC moves is that command; the meaning itself advances CP. -/
def Obligations.StepRunsTheDecodedCommand : Prop :=
  ∀ (s : State) (i : Instr) (rest : List HostMove),
    s.busy = true → s.cp.toNat % 8 = 0 → s.cp.toNat + 8 ≤ s.memSize →
    decode ((List.range 8).map fun k => s.byteAt (s.cp.toNat + k)) = (.command i, []) →
    (s.host = [] → step s = exec i s) ∧
    (s.host = .pass :: rest → step s = exec i { s with host := rest })

/-- R74, R76: words that are no command raise ILLEGAL with FADDR = CP and the two words recorded, and nothing else
changes. -/
def Obligations.IllegalWordsFault : Prop :=
  ∀ (s : State) (e : DecodeError), s.busy = true → s.host = [] →
    s.cp.toNat % 8 = 0 → s.cp.toNat + 8 ≤ s.memSize →
    decodeWords (s.wordAt s.cp.toNat) (s.wordAt (s.cp.toNat + 4)) = .illegal e →
    ∃ t, step s = .next t ∧ s.Faulted t .illegal s.cp (s.wordAt s.cp.toNat) (s.wordAt (s.cp.toNat + 4))

/-- R73: a misaligned CP raises ALIGN, else a CP with CP + 8 > MEM_SIZE raises BUS, both with FADDR = CP and
FCMD0 = FCMD1 = 0; else the two words at CP and CP + 4 are fetched. -/
def Obligations.FetchChecks : Prop :=
  ∀ s : State, s.busy = true → s.host = [] →
    (s.cp.toNat % 8 ≠ 0 → ∃ t, step s = .next t ∧ s.Faulted t .align s.cp 0 0) ∧
    (s.cp.toNat % 8 = 0 → s.memSize < s.cp.toNat + 8 → ∃ t, step s = .next t ∧ s.Faulted t .bus s.cp 0 0) ∧
    (s.cp.toNat % 8 = 0 → s.cp.toNat + 8 ≤ s.memSize → s.fetchFault = none ∧
      s.fetch0.toNat = s.memRead s.cp.toNat 4 ∧ s.fetch1.toNat = s.memRead (s.cp.toNat + 4) 4)

/-- R154, R155: with no run in progress and no move of the host, nothing happens. -/
def Obligations.IdleWithoutStart : Prop :=
  ∀ s : State, s.busy = false → s.host = [] → step s = .next s

/-! ### Two's complement (41_twos_complement.md) -/

/-- R95, R98: INC adds one to the pattern modulo 2^N, in either carry mode, and writes nothing but rd. -/
def Obligations.IncAddsOneUlp : Prop :=
  ∀ (s : State) (rd ra : Reg), ∃ t, exec (.inc rd ra) s = .next t ∧
    t.patF rd = (s.patF ra + 1) % s.patterns ∧ s.WroteOnly t rd

/-- R96, R99: NEG negates the pattern modulo 2^N, in either carry mode, and writes nothing but rd. -/
def Obligations.NegNegatesThePattern : Prop :=
  ∀ (s : State) (rd ra : Reg), ∃ t, exec (.neg rd ra) s = .next t ∧
    t.patF rd = (s.patterns - s.patF ra) % s.patterns ∧ s.WroteOnly t rd

/-- R97: NEG(NEG(X)) = X for every X, MIN included, where NEG(MIN) = MIN. -/
def Obligations.DoubleNegation : Prop :=
  ∀ w : Nat, 0 < w → (∀ x : FixedPoint w, x.neg.neg = x) ∧
    (FixedPoint.ofPat (2 ^ (4 * w - 1)) : FixedPoint w).neg = FixedPoint.ofPat (2 ^ (4 * w - 1))

/-! ### Adder and shift (42_adder.md) -/

/-- R101, R106: under FULL, ADD is exact modulo 2^N and writes nothing but rd. -/
def Obligations.AddFullIsExact : Prop :=
  ∀ (s : State) (rd ra rb : Reg), s.dev.carryMode = .full → ∃ t, exec (.add rd ra rb) s = .next t ∧
    t.patF rd = (s.patF ra + s.patF rb) % s.patterns ∧ s.WroteOnly t rd

/-- R102, R103, R106: under TWO_PASS, ADD is the exact sum, less 2^F exactly when limb 3 carries and the limb sums 2
and 1 are both ONES; it writes nothing but rd. -/
def Obligations.AddTwoPassLosesOneRipple : Prop :=
  ∀ (s : State) (rd ra rb : Reg), s.dev.carryMode = .twoPass → ∃ t, exec (.add rd ra rb) s = .next t ∧
    s.WroteOnly t rd ∧
    (let u := s.readF ra
     let v := s.readF rb
     t.patF rd =
      if 2 ^ s.w ≤ u.l3.toNat + v.l3.toNat ∧ (u.l2.toNat + v.l2.toNat) % 2 ^ s.w = 2 ^ s.w - 1 ∧
          (u.l1.toNat + v.l1.toNat) % 2 ^ s.w = 2 ^ s.w - 1 then
        ((s.patF ra + s.patF rb) % s.patterns + s.patterns - s.unit) % s.patterns
      else (s.patF ra + s.patF rb) % s.patterns)

/-- R104: under FULL, ADD never rounds and wraps modulo 2^N, is commutative and associative, 0 is its identity and
x + NEG(x) = 0; under TWO_PASS it is commutative but not associative. -/
def Obligations.AdderAlgebra : Prop :=
  (∀ (w : Nat) (x y z : FixedPoint w),
    (FixedPoint.add .full x y).pat = (x.pat + y.pat) % 2 ^ (4 * w) ∧
    FixedPoint.add .full x y = FixedPoint.add .full y x ∧
    FixedPoint.add .full (FixedPoint.add .full x y) z = FixedPoint.add .full x (FixedPoint.add .full y z) ∧
    FixedPoint.add .full x FixedPoint.zero = x ∧
    FixedPoint.add .full x x.neg = FixedPoint.zero ∧
    FixedPoint.add .twoPass x y = FixedPoint.add .twoPass y x) ∧
  ∃ x y z : FixedPoint 32, FixedPoint.add .twoPass (FixedPoint.add .twoPass x y) z
    ≠ FixedPoint.add .twoPass x (FixedPoint.add .twoPass y z)

/-- R105, R107: DBL doubles the pattern modulo 2^N and writes nothing but rd. -/
def Obligations.DblDoublesThePattern : Prop :=
  ∀ (s : State) (rd ra : Reg), ∃ t, exec (.dbl rd ra) s = .next t ∧
    t.patF rd = 2 * s.patF ra % s.patterns ∧ s.WroteOnly t rd

/-- R105: DBL doubles the pattern modulo 2^N, which is ADD(X, X) under both carry modes. -/
def Obligations.DblIsAddOfItself : Prop :=
  ∀ (w : Nat) (m : CarryMode) (x : FixedPoint w),
    x.dbl.pat = 2 * x.pat % 2 ^ (4 * w) ∧ x.dbl = FixedPoint.add m x x

/-! ### Multiplier and squarer (43_multiplier.md) -/

/-- R108: the half-word combination gives the exact product of two W-bit limbs, and it is the WMUL of the model. -/
def Obligations.WmulByHalvesIsExact : Prop :=
  ∀ (w : Nat) (a b : BitVec w), w % 2 = 0 →
    let p := FixedPoint.wmulHalves w a.toNat b.toNat
    p.1 * 2 ^ w + p.2 = a.toNat * b.toNat ∧ p.1 < 2 ^ w ∧ p.2 < 2 ^ w ∧
    FixedPoint.wmul a b = (BitVec.ofNat w p.1, BitVec.ofNat w p.2)

/-- R110, R111, R116: under FULL, MUL is the closed form: the kept products of the magnitudes plus 3 ulp modulo 2^N,
negated when exactly one operand is negative. -/
def Obligations.MulClosedForm : Prop :=
  ∀ (s : State) (rd ra rb : Reg), s.dev.carryMode = .full →
    let p := (keptProducts (s.readF ra) (s.readF rb) + 3) % s.patterns
    ∃ t, exec (.mul rd ra rb) s = .next t ∧ s.WroteOnly t rd ∧
      t.patF rd = if (s.readF ra).negative = (s.readF rb).negative then p else (s.patterns - p) % s.patterns

/-- R109, R110, R111, R114: in either carry mode the multiplier and the squarer are the sums of the partial products
T(i, j) in the order of the two rules, which TWO_PASS makes observable (D27), with 3 ulp added and the sign restored.
R116, R117: MUL and SQR complete, write that value to rd, and write nothing else. -/
def Obligations.MulAndSqrComplete : Prop :=
  (∀ (w : Nat) (m : CarryMode) (x y : FixedPoint w),
    let mag (x : FixedPoint w) : FixedPoint w := if x.l0.msb then x.neg else x
    let term (u v : FixedPoint w) (i j : Nat) : FixedPoint w := FixedPoint.ofLimbs fun k =>
      if k = i + j then BitVec.ofNat w ((u.limb i).toNat * (v.limb j).toNat % 2 ^ w)
      else if k + 1 = i + j then BitVec.ofNat w ((u.limb i).toNat * (v.limb j).toNat / 2 ^ w)
      else 0
    let sum (u v start : FixedPoint w) (pairs : List (Nat × Nat)) : FixedPoint w :=
      pairs.foldl (fun acc ij => FixedPoint.add m acc (term u v ij.1 ij.2)) start
    let product := FixedPoint.add m
      (sum (mag x) (mag y) ⟨0, 0, 0, 0⟩
        [(0, 0), (0, 1), (1, 0), (0, 2), (1, 1), (2, 0), (0, 3), (1, 2), (2, 1), (3, 0)]) ⟨0, 0, 0, 3⟩
    FixedPoint.mul m x y = (if x.l0.msb = y.l0.msb then product else product.neg) ∧
    FixedPoint.sqr m x = FixedPoint.add m
      (sum (mag x) (mag x) (sum (mag x) (mag x) ⟨0, 0, 0, 0⟩ [(0, 1), (0, 2), (0, 3), (1, 2)]).dbl [(0, 0), (1, 1)])
      ⟨0, 0, 0, 3⟩) ∧
  ∀ (s : State) (rd ra rb : Reg),
    (∃ t, exec (.mul rd ra rb) s = .next t ∧ s.WroteOnly t rd ∧
      t.patF rd = (FixedPoint.mul s.dev.carryMode (s.readF ra) (s.readF rb)).pat) ∧
    (∃ t, exec (.sqr rd ra) s = .next t ∧ s.WroteOnly t rd ∧
      t.patF rd = (FixedPoint.sqr s.dev.carryMode (s.readF ra)).pat)

/-- R115: under FULL, SQR(x) = MUL(x, x) for every x; under TWO_PASS it fails at the x the rule gives. -/
def Obligations.SqrIsMulOfItself : Prop :=
  (∀ (w : Nat) (x : FixedPoint w), FixedPoint.sqr .full x = FixedPoint.mul .full x x) ∧
  (let x : FixedPoint 32 := ⟨0x00000001, 0xFFFFFFFF, 0x80000000, 0xFFFFFFFF⟩
   FixedPoint.mul .twoPass x x = ⟨0x00000003, 0xFFFFFFFE, 0x00000002, 0x00000001⟩ ∧
   FixedPoint.sqr .twoPass x = ⟨0x00000001, 0xFFFFFFFE, 0x00000002, 0x00000001⟩)

/-- R113: under FULL, MUL is commutative; by 1.0 it is x plus or minus 3 ulp, and by 0 it is plus or minus 3 ulp,
with the sign of x. -/
def Obligations.MulByOneAndZero : Prop :=
  ∀ (d : Width) (x y : FixedPoint d.bits),
    FixedPoint.mul .full x y = FixedPoint.mul .full y x ∧
    (FixedPoint.mul .full x ⟨1, 0, 0, 0⟩).pat =
      (if x.negative then x.pat + 2 ^ (4 * d.bits) - 3 else x.pat + 3) % 2 ^ (4 * d.bits) ∧
    (FixedPoint.mul .full x FixedPoint.zero).pat = if x.negative then 2 ^ (4 * d.bits) - 3 else 3

/-! ### Codec (40_codec.md) -/

/-- R82, R83: PARSE accepts exactly the strings of the grammar, and splits them as R83 says; the fractional part is a
decimal fraction in [0, 1). -/
def Obligations.SplitIsTheGrammar : Prop :=
  (∀ (s : List Byte) (t : Codec.DecimalText), Codec.split s = some t ↔
    ∃ (ds fs : List Byte) (point : Bool),
      s = (if t.neg then [0x2D] else []) ++ ds ++ (if point then 0x2E :: fs else []) ∧
      ds ≠ [] ∧ areDigits ds ∧ areDigits fs ∧ (point = false → fs = []) ∧
      t.whole = decimalValue ds ∧ t.fraction = decimalValue fs ∧ t.places = fs.length) ∧
  ∀ (s : List Byte) (t : Codec.DecimalText), Codec.split s = some t → t.fraction < 10 ^ t.places

/-- R84 to R87: with NEG_INT_PARSE = EXACT, a string of exact value v gives floor(v * 2^F) when
-2^(W-1) <= v < 2^(W-1), and PARSE_RANGE otherwise. -/
def Obligations.ParseValueTruncatesDown : Prop :=
  ∀ (d : Width) (t : Codec.DecimalText), t.fraction < 10 ^ t.places →
    Codec.parseValue d.bits .exact t =
      if -(2 ^ (d.bits - 1) * 10 ^ t.places : Int) ≤ decimalNumerator t ∧
          decimalNumerator t < 2 ^ (d.bits - 1) * 10 ^ t.places then
        some (FixedPoint.ofPat
          ((decimalNumerator t * 2 ^ (3 * d.bits) / 10 ^ t.places) % 2 ^ (4 * d.bits)).toNat)
      else none

/-- R85: NEG_INT_PARSE = LITERAL differs from EXACT only on a negative string with a zero fraction, which becomes one
ulp less than its value, or PARSE_RANGE where that is below the range. -/
def Obligations.LiteralParseOfNegativeIntegers : Prop :=
  ∀ (d : Width) (t : Codec.DecimalText), t.fraction < 10 ^ t.places →
    ((t.neg = false ∨ 0 < t.fraction) → Codec.parseValue d.bits .literal t = Codec.parseValue d.bits .exact t) ∧
    (t.neg = true → t.fraction = 0 → Codec.parseValue d.bits .literal t =
      if t.whole + 1 ≤ 2 ^ (d.bits - 1) then
        some (FixedPoint.ofPat (2 ^ (4 * d.bits) - t.whole * 2 ^ (3 * d.bits) - 1))
      else none)

/-- R91: PARSE of a well-formed, in-range string writes its value to rd and nothing else. -/
def Obligations.ParseWritesTheValue : Prop :=
  ∀ (s : State) (rd : Reg) (a : Word) (bytes : List Byte) (t : Codec.DecimalText) (x : FixedPoint s.w),
    s.HoldsText a.toNat bytes → Codec.split bytes = some t →
    Codec.parseValue s.w s.dev.negIntParse t = some x →
    ∃ u, exec (.parse rd a) s = .next u ∧ u.patF rd = x.pat ∧ s.WroteOnly u rd

/-- R91, R142: the faults of PARSE. BUS at the first byte address at or above MEM_SIZE met before a NUL; PARSE_SYNTAX
when no NUL occurs in the first STR_MAX + 1 bytes or the text is malformed; PARSE_RANGE for a value out of range. -/
def Obligations.ParseFaults : Prop :=
  ∀ (s : State) (rd : Reg) (a : Word),
    (s.memSize - a.toNat ≤ Config.strMax → (∀ k, k < s.memSize - a.toNat → s.byteAt (a.toNat + k) ≠ 0) →
      ∃ u, exec (.parse rd a) s = .next u ∧ s.Faulted u .bus (BitVec.ofNat 32 (max a.toNat s.memSize))
        (Instr.parse rd a).word0 a) ∧
    (a.toNat + Config.strMax < s.memSize → (∀ k, k ≤ Config.strMax → s.byteAt (a.toNat + k) ≠ 0) →
      ∃ u, exec (.parse rd a) s = .next u ∧ s.Faulted u .parseSyntax a (Instr.parse rd a).word0 a) ∧
    (∀ bytes, s.HoldsText a.toNat bytes → Codec.split bytes = none →
      ∃ u, exec (.parse rd a) s = .next u ∧ s.Faulted u .parseSyntax a (Instr.parse rd a).word0 a) ∧
    (∀ bytes t, s.HoldsText a.toNat bytes → Codec.split bytes = some t →
      Codec.parseValue s.w s.dev.negIntParse t = none →
      ∃ u, exec (.parse rd a) s = .next u ∧ s.Faulted u .parseRange a (Instr.parse rd a).word0 a)

/-- R88: FORMAT_VALUE is exactly val(X), in units of 10^-F. -/
def Obligations.FormatValueIsExact : Prop :=
  ∀ (d : Width) (x : FixedPoint d.bits),
    Codec.formatValue x * 2 ^ (3 * d.bits) = x.sval * 10 ^ (3 * d.bits)

/-- R90: the text has at least 3 characters and at most 108 (W = 32) or 213 (W = 64). -/
def Obligations.FormatTextLength : Prop :=
  (∀ x : FixedPoint 32, 3 ≤ (Codec.formatText x).length ∧ (Codec.formatText x).length ≤ 108) ∧
  ∀ x : FixedPoint 64, 3 ≤ (Codec.formatText x).length ∧ (Codec.formatText x).length ≤ 213

/-- R89, R92: FMT's text is the one R89 describes ('-' exactly for a negative value, no leading zero, no trailing zero);
FMT writes its L characters and a NUL, and nothing else; it raises BUS, writing nothing, when those L + 1 bytes do not
fit. -/
def Obligations.FmtWritesTheText : Prop :=
  ∀ (s : State) (ra : Reg) (a : Word),
    let text := Codec.formatText (s.readF ra)
    IsTextOf (s.readF ra) text ∧
    (a.toNat + text.length + 1 ≤ s.memSize →
      ∃ t, exec (.fmt ra a) s = .next t ∧ s.StoredOnly t a.toNat (text.length + 1) ∧
        (∀ k, (h : k < text.length) → t.byteAt (a.toNat + k) = text[k]) ∧
        t.byteAt (a.toNat + text.length) = 0) ∧
    (s.memSize < a.toNat + text.length + 1 →
      ∃ t, exec (.fmt ra a) s = .next t ∧ s.Faulted t .bus a (Instr.fmt ra a).word0 a)

/-- R93: with NEG_INT_PARSE = EXACT, parsing the text of any FixedPoint value gives that value, bit for bit. -/
def Obligations.ParseOfFormatIsIdentity : Prop :=
  ∀ (d : Width) (x : FixedPoint d.bits), ∃ t, Codec.split (Codec.formatText x) = some t ∧
    Codec.parseValue d.bits .exact t = some x

/-! ### Control commands and data movement (45_system_and_transfer.md) -/

/-- R134: NOP advances CP by 8 and changes nothing else; the all-zero command is NOP, and opcode 0 with any other bit
set is ILLEGAL. -/
def Obligations.NopOnlyAdvances : Prop :=
  (∀ s : State, exec .nop s = .next { s with cp := s.cp + 8 }) ∧
  decodeWords 0 0 = .command .nop ∧
  ∀ w0 w1 : Word, w0.toNat < 2 ^ 24 → ¬ (w0 = 0 ∧ w1 = 0) → ∃ e, decodeWords w0 w1 = .illegal e

/-- R135: HALT clears BUSY, sets DONE, keeps CP and changes nothing else; its words are 0x01000000 and 0. -/
def Obligations.HaltEndsTheRun : Prop :=
  (∀ s : State, exec .halt s = .next { s with busy := false, done := true }) ∧
  ∀ w0 w1 : Word, decodeWords w0 w1 = .command .halt ↔ w0 = 0x01000000 ∧ w1 = 0

/-- R138: LDI writes the integer imm exactly, as the FixedPoint value imm * 2^F ulp, to rd and nothing else. -/
def Obligations.LdiLoadsTheInteger : Prop :=
  ∀ (s : State) (rd : Reg) (imm : Word), ∃ t, exec (.ldi rd imm) s = .next t ∧
    (t.readF rd).sval = imm.toInt * s.unit ∧ s.WroteOnly t rd

/-- R139: MOV copies ra to rd and writes nothing else; rd may be ra. -/
def Obligations.MovCopies : Prop :=
  ∀ (s : State) (rd ra : Reg), ∃ t, exec (.mov rd ra) s = .next t ∧
    t.patF rd = s.patF ra ∧ s.WroteOnly t rd

/-- R7, R51, R136: with LB = W / 8 and VB = 4 LB, LDF at an aligned address in range loads each limb, most significant first, from LB little-endian bytes,
and writes nothing but rd. -/
def Obligations.LdfLoadsTheValue : Prop :=
  ∀ (s : State) (rd : Reg) (a : Word), a.toNat % s.limbBytes = 0 → a.toNat + s.valueBytes ≤ s.memSize →
    8 * s.limbBytes = s.w ∧ s.valueBytes = 4 * s.limbBytes ∧
    ∃ t, exec (.ldf rd a) s = .next t ∧ s.WroteOnly t rd ∧
      ∀ i k, i < 4 → k < s.limbBytes → ((t.readF rd).limb i).toNat / 256 ^ k % 256
        = (s.byteAt (a.toNat + i * s.limbBytes + k)).toNat

/-- R51, R137: STF at an aligned address in range stores each limb, most significant first, as LB little-endian bytes,
and changes no other byte, no register and nothing but CP. -/
def Obligations.StfStoresTheValue : Prop :=
  ∀ (s : State) (ra : Reg) (a : Word), a.toNat % s.limbBytes = 0 → a.toNat + s.valueBytes ≤ s.memSize →
    ∃ t, exec (.stf ra a) s = .next t ∧ s.StoredOnly t a.toNat s.valueBytes ∧
      ∀ i k, i < 4 → k < s.limbBytes → (t.byteAt (a.toNat + i * s.limbBytes + k)).toNat
        = ((s.readF ra).limb i).toNat / 256 ^ k % 256

/-- R136, R137, R52, R53: LDF and STF raise ALIGN at an address that is not a multiple of LB, else BUS where the VB
bytes do not fit, with FADDR = A; the register and memory are unchanged. -/
def Obligations.LdfStfFaults : Prop :=
  ∀ (s : State) (r : Reg) (a : Word) (i : Instr), i = .ldf r a ∨ i = .stf r a →
    (a.toNat % s.limbBytes ≠ 0 → ∃ t, exec i s = .next t ∧ s.Faulted t .align a i.word0 a) ∧
    (a.toNat % s.limbBytes = 0 → s.memSize < a.toNat + s.valueBytes →
      ∃ t, exec i s = .next t ∧ s.Faulted t .bus a i.word0 a)

/-- R51, R56, R62: a value stored by STF is the value LDF loads back. -/
def Obligations.LoadAfterStore : Prop :=
  ∀ (s : State) (ra rd : Reg) (a : Word), a.toNat % s.limbBytes = 0 → a.toNat + s.valueBytes ≤ s.memSize →
    ∃ t u, exec (.stf ra a) s = .next t ∧ exec (.ldf rd a) t = .next u ∧ u.patF rd = s.patF ra

/-- R80: SUB fd, fa, fb, ft, with ft other than fa, expands to two commands that under FULL leave fa - fb modulo 2^N in
fd. -/
def Obligations.SubPseudoSubtracts : Prop :=
  ∀ (s : State) (fd fa fb ft : Reg), s.dev.carryMode = .full → ft ≠ fa →
    ∃ i j t u, Assembler.expandSub fd fa fb ft = some [i, j] ∧ exec i s = .next t ∧ exec j t = .next u ∧
      u.patF fd = (s.patF fa + s.patterns - s.patF fb) % s.patterns

/-! ### ESCAPE (44_escape.md) -/

/-- R118, R119, R121: ESCAPE's ten checks in their order, first failure wins, with the FADDR of each; the fifth lets an
empty grid complete; when all pass, every pixel is processed. -/
def Obligations.EscapeChecksInOrder : Prop :=
  ∀ (s : State) (ra rb rc : Reg) (d : Word),
    let i := Instr.escape ra rb rc d
    let table := s.memRead d.toNat 4
    let out := s.memRead (d.toNat + 4) 4
    let npix := s.memRead (d.toNat + 8) 4 * s.memRead (d.toNat + 12) 4
    let flags := s.memRead (d.toNat + 20) 4
    let tableEnd := table + 2 * s.valueBytes * npix
    let outEnd := out + 4 * npix
    exec i s = .next (
      if d.toNat % 4 ≠ 0 then s.faultIn i .align d
      else if s.memSize < d.toNat + 24 then s.faultIn i .bus d
      else if flags / 2 ≠ 0 then s.faultIn i .param (d + 20)
      else if flags % 2 = 0 ∧ s.palsize = 0 then s.faultIn i .param (d + 20)
      else if npix = 0 then s.advance
      else if table % s.limbBytes ≠ 0 then s.faultIn i .align (BitVec.ofNat 32 table)
      else if out % 4 ≠ 0 then s.faultIn i .align (BitVec.ofNat 32 out)
      else if s.memSize < tableEnd then s.faultIn i .bus (BitVec.ofNat 32 table)
      else if s.memSize < outEnd then s.faultIn i .bus (BitVec.ofNat 32 out)
      else if max out table < min outEnd tableEnd then s.faultIn i .overlap (BitVec.ofNat 32 out)
      else (State.renderInOrder (s.snapshot ra rb rc d) s (List.range npix)).advance)

/-- R118, R119, R120, R122, R123, R125: an ESCAPE whose checks pass takes the scale from ra, the centre from rb and rc,
the six descriptor words from D and P from PALSIZE, and writes, for every pixel k, the output word for the count that the
loop leaves on table entry k, all as they stood before the command, at OUT + 4k; no other byte of memory, no register and
nothing but CP changes. -/
def Obligations.EscapeRendersEveryPixel : Prop :=
  ∀ (s : State) (ra rb rc : Reg) (d : Word), s.escapeVerdict ra rb rc d = .render →
    let sn := s.snapshot ra rb rc d
    (sn.scale = s.readF ra ∧ sn.cx = s.readF rb ∧ sn.cy = s.readF rc ∧ sn.palsize = s.palsize ∧
      sn.table = s.wordAt d.toNat ∧ sn.out = s.wordAt (d.toNat + 4) ∧
      sn.width = s.wordAt (d.toNat + 8) ∧ sn.height = s.wordAt (d.toNat + 12) ∧
      sn.cap = s.wordAt (d.toNat + 16) ∧ sn.flags = s.wordAt (d.toNat + 20) ∧
      sn.npix = sn.width.toNat * sn.height.toNat ∧ sn.raw = sn.flags.getLsbD 0) ∧
    ∃ t, exec (.escape ra rb rc d) s = .next t ∧ s.StoredOnly t sn.out.toNat (4 * sn.npix) ∧
      ∀ k, k < sn.npix →
        let oR := s.loadFP s.w (sn.table.toNat + k * (2 * s.valueBytes))
        let oI := s.loadFP s.w (sn.table.toNat + k * (2 * s.valueBytes) + s.valueBytes)
        t.wordAt (sn.out.toNat + 4 * k) = sn.output
          (Pixel.loop s.dev.carryMode sn.cap sn.cap.toNat (Pixel.start s.dev.carryMode sn oR oI)).n

/-- R64, R126: the state that an ESCAPE leaves is the same for every order in which its pixels are processed. -/
def Obligations.PixelOrderIsUnobservable : Prop :=
  ∀ (s : State) (ra rb rc : Reg) (d : Word) (order : List Nat),
    s.memoryCanonical → s.escapeVerdict ra rb rc d = .render →
    order.Perm (List.range (s.snapshot ra rb rc d).npix) →
    exec (.escape ra rb rc d) s = .next (State.renderInOrder (s.snapshot ra rb rc d) s order).advance

/-- R123, R127: the loop of a pixel ends because its condition fails, not because the model's bound on it does; the
count never exceeds CAP and is the pixel's count; and the working values it leaves are those after as many steps as the
count says, the condition having held before each of them. -/
def Obligations.PixelLoopEnds : Prop :=
  ∀ (w : Nat) (m : CarryMode) (sn : Snapshot w) (oR oI : FixedPoint w),
    let p := Pixel.loop m sn.cap sn.cap.toNat (Pixel.start m sn oR oI)
    sn.count m oR oI = p.n ∧ p.goesOn m sn.cap = false ∧ p.n ≤ sn.cap ∧
    p = Nat.iterate (Pixel.step m) p.n.toNat (Pixel.start m sn oR oI) ∧
    ∀ j, j < p.n.toNat → (Nat.iterate (Pixel.step m) j (Pixel.start m sn oR oI)).goesOn m sn.cap = true

/-- R125: the output word. RAW gives the count; in palette mode a count below CAP gives a palette index below P, which
is never NOESC, and a count that reached CAP gives NOESC. -/
def Obligations.OutputWordMeaning : Prop :=
  ∀ (w : Nat) (sn : Snapshot w) (n : Word),
    (sn.raw = true → sn.output n = n) ∧
    (sn.raw = false → n < sn.cap → sn.palsize ≠ 0 → (sn.output n).toNat = n.toNat % sn.palsize.toNat ∧
      (sn.output n).toNat < sn.palsize.toNat ∧ sn.output n ≠ 0xFFFFFFFF) ∧
    (sn.raw = false → ¬ n < sn.cap → sn.output n = 0xFFFFFFFF)

/-- R123, R124, R130: the iteration of a pixel. In both carry modes the values before the loop and one step are as R123
writes them; the loop goes on exactly while the signed value of zr2 + zi2 is below 4 and n below CAP. Under FULL, c = 0
never escapes, whatever the cap, and c = 2 + 2i escapes after one step, for every cap of 1 or more, with the working
values R130 gives. -/
def Obligations.PixelIteration : Prop :=
  ∀ d : Width,
    let enter (cr ci : FixedPoint d.bits) : Pixel d.bits := ⟨cr, ci, ⟨0, 0, 0, 0⟩, ⟨0, 0, 0, 0⟩, ⟨0, 0, 0, 0⟩, ⟨0, 0, 0, 0⟩, 0⟩
    (∀ (m : CarryMode) (sn : Snapshot d.bits) (oR oI : FixedPoint d.bits), Pixel.start m sn oR oI =
      enter (FixedPoint.add m (FixedPoint.mul m oR sn.scale) sn.cx)
        (FixedPoint.add m (FixedPoint.mul m oI sn.scale) sn.cy)) ∧
    (∀ (m : CarryMode) (cap : Word) (p : Pixel d.bits),
      (p.goesOn m cap = true ↔ (FixedPoint.add m p.zr2 p.zi2).sval < 4 * 2 ^ (3 * d.bits) ∧ p.n < cap) ∧
      (p.step m).zi = FixedPoint.add m (FixedPoint.mul m p.zr p.zi).dbl p.ci ∧
      (p.step m).zr = FixedPoint.add m (FixedPoint.add m p.zr2 p.zi2.neg) p.cr ∧
      (p.step m).zr2 = FixedPoint.sqr m (p.step m).zr ∧ (p.step m).zi2 = FixedPoint.sqr m (p.step m).zi ∧
      (p.step m).n = p.n + 1 ∧ (p.step m).cr = p.cr ∧ (p.step m).ci = p.ci) ∧
    (∀ cap : Word, cap ≠ 0 → Pixel.loop .full cap cap.toNat (enter ⟨0, 0, 0, 0⟩ ⟨0, 0, 0, 0⟩) =
      ⟨⟨0, 0, 0, 0⟩, ⟨0, 0, 0, 0⟩, ⟨0, 0, 0, 0⟩, ⟨0, 0, 0, 6⟩, ⟨0, 0, 0, 3⟩, ⟨0, 0, 0, 3⟩, cap⟩) ∧
    (∀ cap : Word, cap ≠ 0 → Pixel.loop .full cap cap.toNat (enter ⟨2, 0, 0, 0⟩ ⟨2, 0, 0, 0⟩) =
      ⟨⟨2, 0, 0, 0⟩, ⟨2, 0, 0, 0⟩, ⟨2, 0, 0, 0⟩, ⟨2, 0, 0, 6⟩, ⟨4, 0, 0, 3⟩, ⟨4, 0, 0, 0x1B⟩, 1⟩) ∧
    ∀ (m : CarryMode) (c c' : FixedPoint d.bits), (Pixel.loop m 0 0 (enter c c')).n = 0

/-! ### Faults (60_exceptions.md) -/

/-- R141: a command that takes a fault records cause, address and its own two words, sets FAULT, clears BUSY, and
changes nothing else: DONE, CP, every register and every byte of memory are as before. -/
def Obligations.FaultsArePrecise : Prop :=
  ∀ (i : Instr) (s t : State), exec i s = .next t → s.fault = false → t.fault = true →
    ∃ c addr, c ≠ .none ∧ s.Faulted t c addr i.word0 i.word1

/-- R30, R35, R37, R42, R48, R148: no command writes IE, HERR, CPSTART, PALSIZE or any device parameter; only HALT writes DONE;
FCAUSE, FADDR, FCMD0 and FCMD1 are written only by a fault (R39, R40, R41). -/
def Obligations.CommandsLeaveTheControlBlock : Prop :=
  ∀ (i : Instr) (s t : State), exec i s = .next t →
    t.dev = s.dev ∧ t.ie = s.ie ∧ t.herr = s.herr ∧ t.cpStart = s.cpStart ∧ t.palsize = s.palsize ∧
    (i ≠ .halt → t.done = s.done) ∧
    (s.fault = false → t.fault = false →
      t.fcause = s.fcause ∧ t.faddr = s.faddr ∧ t.fcmd0 = s.fcmd0 ∧ t.fcmd1 = s.fcmd1)

/-- R147: IRQ = IE and (DONE or FAULT); so it is active after a HALT, and after a fault, exactly when IE is 1. -/
def Obligations.InterruptLevel : Prop :=
  (∀ s : State, s.irq = true ↔ s.ie = true ∧ (s.done = true ∨ s.fault = true)) ∧
  (∀ s t : State, exec .halt s = .next t → t.irq = s.ie) ∧
  ∀ (s : State) (c : Cause) (a w0 w1 : Word), (s.takeFault c a w0 w1).irq = s.ie

/-! ### The host port (10_state.md, 20_memory.md, 45_system_and_transfer.md, 60_exceptions.md)
A multiple of 4 is meant on the offset inside a window: the model's choice, log entry 9. -/

/-- R133: a host write of v to CTRL writes IE; with bit 0 set it is refused with HERR while BUSY or FAULT is 1, and
otherwise begins a run at CPSTART; nothing else changes. -/
def Obligations.StartOfARun : Prop :=
  ∀ (s : State) (v : Word) (rest : List HostMove), s.host = .write32 (s.dev.hostCsrBase + 0x010) v :: rest →
    step s = .next (
      if v.getLsbD 0 = false then { s with host := rest, ie := v.getLsbD 1 }
      else if s.busy = true ∨ s.fault = true then { s with host := rest, ie := v.getLsbD 1, herr := true }
      else { s with host := rest, ie := v.getLsbD 1, busy := true, done := false, cp := s.cpStart })

/-- R36: STATUS reads BUSY, DONE, FAULT, HERR in bits 0 to 3 and 0 above; a host write clears DONE, FAULT and HERR where
it has a 1, and changes nothing else. -/
def Obligations.StatusRegister : Prop :=
  ∀ (s : State) (v : Word) (rest : List HostMove),
    (s.host = .read32 (s.dev.hostCsrBase + 0x014) :: rest → ∃ x : Word,
      step s = .next { s with host := rest, hostRData := x } ∧
      ∀ k, x.getLsbD k = ((k == 0 && s.busy) || (k == 1 && s.done) || (k == 2 && s.fault) || (k == 3 && s.herr))) ∧
    (s.host = .write32 (s.dev.hostCsrBase + 0x014) v :: rest →
      step s = .next { s with
        host := rest
        done := s.done && !v.getLsbD 1
        fault := s.fault && !v.getLsbD 2
        herr := s.herr && !v.getLsbD 3 })

/-- R37, R42, R146: a host write to CPSTART or PALSIZE stores all 32 bits while BUSY = 0; while BUSY = 1 it is ignored
and sets HERR. -/
def Obligations.HostWritesWhileBusy : Prop :=
  ∀ (s : State) (v : Word) (rest : List HostMove),
    (s.host = .write32 (s.dev.hostCsrBase + 0x018) v :: rest → step s = .next (
      if s.busy then { s with host := rest, herr := true } else { s with host := rest, cpStart := v })) ∧
    (s.host = .write32 (s.dev.hostCsrBase + 0x030) v :: rest → step s = .next (
      if s.busy then { s with host := rest, herr := true } else { s with host := rest, palsize := v }))

/-- R31 to R35, R37 to R43, R140: what the host reads at the offsets of the control block other than STATUS; reserved offsets
read 0, and a read changes nothing in MZC; W is 32 or 64 and MEM_SIZE a power of two from 2^16 to 2^31. A write to any offset but CTRL, STATUS, CPSTART and PALSIZE is ignored. -/
def Obligations.ControlBlockRegisters : Prop :=
  ∀ (s : State) (k : Nat) (v : Word) (rest : List HostMove), k < 0x400 →
    (s.w = 32 ∨ s.w = 64) ∧ (∃ n, 16 ≤ n ∧ n ≤ 31 ∧ s.memSize = 2 ^ n) ∧
    (k ∉ [4, 5, 6, 12] → s.host = .write32 (s.dev.hostCsrBase + 4 * k) v :: rest →
      step s = .next { s with host := rest }) ∧
    (k ≠ 5 → s.host = .read32 (s.dev.hostCsrBase + 4 * k) :: rest → step s = .next { s with
      host := rest
      hostRData :=
        if k = 0 then 0x4D5A4301
        else if k = 1 then BitVec.ofNat 32 (s.w + 4 * 2 ^ 8 + (s.dev.nlanes - 1) * 2 ^ 16
          + (if s.dev.carryMode = .twoPass then 2 ^ 24 else 0) + (if s.dev.negIntParse = .literal then 2 ^ 25 else 0))
        else if k = 2 then BitVec.ofNat 32 s.memSize
        else if k = 3 then 4095
        else if k = 4 then (if s.ie then 2 else 0)
        else if k = 6 then s.cpStart
        else if k = 7 then s.cp
        else if k = 8 then (match s.fcause with
          | .none => 0
          | .illegal => 1
          | .align => 2
          | .bus => 3
          | .parseSyntax => 4
          | .parseRange => 5
          | .param => 6
          | .overlap => 7)
        else if k = 9 then s.faddr
        else if k = 10 then s.fcmd0
        else if k = 11 then s.fcmd1
        else if k = 12 then s.palsize
        else 0 })

/-- R59, R60, R61: a host access to device memory at HOST_MEM_BASE + a, a below MEM_SIZE, where that is not in the control
block (the model's choice where the windows overlap, log entry 9), of 8 bits anywhere or of 32 bits at a multiple of 4. While BUSY = 1 a read
returns 0, a write is ignored, and either sets HERR; while BUSY = 0 it reads or writes device memory. R59: an access
whose address lies in neither window does not reach MZC; that a 32-bit one which begins just below a window is such an
access is the model's choice (log entry 9). -/
def Obligations.MemoryWindow : Prop :=
  (∀ (s : State) (addr : Nat) (b : Byte) (v : Word) (rest : List HostMove) (m : HostMove),
    ¬ (s.dev.hostCsrBase ≤ addr ∧ addr < s.dev.hostCsrBase + 0x1000) →
    ¬ (s.dev.hostMemBase ≤ addr ∧ addr < s.dev.hostMemBase + s.memSize) →
    m = .read8 addr ∨ m = .read32 addr ∨ m = .write8 addr b ∨ m = .write32 addr v → s.host = m :: rest →
    routeHost s.dev addr = .outside ∧ step s = .next { s with host := rest }) ∧
  ∀ (s : State) (addr a : Nat) (b : Byte) (v : Word) (rest : List HostMove),
    addr = s.dev.hostMemBase + a → a < s.memSize →
    ¬ (s.dev.hostCsrBase ≤ addr ∧ addr < s.dev.hostCsrBase + 0x1000) →
    routeHost s.dev addr = .memory a ∧
    (∀ k, k < 4 → (s.wordAt a).toNat / 256 ^ k % 256 = (s.byteAt (a + k)).toNat) ∧
    (s.host = .read8 addr :: rest → step s = .next (
      if s.busy then { s with host := rest, herr := true, hostRData := 0 }
      else { s with host := rest, hostRData := (s.byteAt a).setWidth 32 })) ∧
    (s.host = .read32 addr :: rest → a % 4 = 0 → step s = .next (
      if s.busy then { s with host := rest, herr := true, hostRData := 0 }
      else { s with host := rest, hostRData := s.wordAt a })) ∧
    (s.host = .write8 addr b :: rest → ∃ t, step s = .next t ∧
      (s.busy = true → t = { s with host := rest, herr := true }) ∧
      (s.busy = false → t = { s with host := rest, mem := t.mem } ∧
        ∀ c, t.byteAt c = if c = a then b else s.byteAt c)) ∧
    (s.host = .write32 addr v :: rest → a % 4 = 0 → ∃ t, step s = .next t ∧
      (s.busy = true → t = { s with host := rest, herr := true }) ∧
      (s.busy = false → t = { s with host := rest, mem := t.mem } ∧
        (∀ k, k < 4 → (t.byteAt (a + k)).toNat = v.toNat / 256 ^ k % 256) ∧
        ∀ c, (c < a ∨ a + 4 ≤ c) → t.byteAt c = s.byteAt c))

/-- R60: host accesses that the spec does not define, an 8-bit one or a misaligned one to the control block and a
misaligned 32-bit one to device memory, are refused: the model's choice, log entry 5, after the treatment of I15. -/
def Obligations.UndefinedHostAccesses : Prop :=
  ∀ (s : State) (addr n : Nat) (b : Byte) (v : Word) (rest : List HostMove) (m : HostMove), s.host = m :: rest →
    (addr = s.dev.hostCsrBase + n → n < 0x1000 → m = .read8 addr ∨ m = .write8 addr b →
      step s = .refused .hostAccessUndefined) ∧
    (addr = s.dev.hostCsrBase + n → n < 0x1000 → n % 4 ≠ 0 → m = .read32 addr ∨ m = .write32 addr v →
      step s = .refused .hostAccessUndefined) ∧
    (addr = s.dev.hostMemBase + n → n < s.memSize →
      ¬ (s.dev.hostCsrBase ≤ addr ∧ addr < s.dev.hostCsrBase + 0x1000) → n % 4 ≠ 0 →
      m = .read32 addr ∨ m = .write32 addr v → step s = .refused .hostAccessUndefined)

/-! ### Reset and the whole machine (70_reset_and_hazards.md) -/

/-- R155: the values that a reset leaves, at power-on and when it comes during a run: CP, IE, the four STATUS bits,
CPSTART, FCAUSE, FADDR, FCMD0, FCMD1 and PALSIZE; IRQ is inactive and the device keeps its parameters. -/
def Obligations.ResetValues : Prop :=
  State.reset.AtResetValues ∧
  ∀ (s : State) (rest : List HostMove), s.host = .reset :: rest →
    ∃ t, step s = .next t ∧ t.dev = s.dev ∧ t.AtResetValues

/-- The invariant of the model (memory canonical; registers hold N-bit patterns; BUSY excludes DONE and FAULT, which
exclude each other; an unacknowledged fault has a cause; unwritten registers hold the reset value the model names,
log entry 2) is kept by every step, of the host or of MZC. -/
def Obligations.StepKeepsTheInvariant : Prop :=
  ∀ s t : State, s.Inv → step s = .next t → t.Inv

/-- The invariant holds after reset, for every device. Its last clause is the model's choice of 0 for unwritten registers
(log entry 2). -/
def Obligations.InvariantAtReset : Prop :=
  State.reset.Inv ∧ ∀ (d : Device) (n : Nat), (State.resetOf d n).Inv

/-- R132: every run ends by a HALT or a fault: from any state with a run in progress and no host move to come, BUSY is 0
after at most MEM_SIZE / 8 commands and a fault. -/
def Obligations.EveryRunEnds : Prop :=
  ∀ s : State, s.busy = true → s.host = [] →
    ∃ (k : Nat) (t : State), k ≤ s.memSize / 8 + 1 ∧ Host.Core.run Sys2Proof.core k s = .next t ∧
      t.busy = false ∧ (t.done = true ∨ t.fault = true)

/-- R25, R27: what a register holds that no command has written since reset cannot influence a safe step: two states that
agree on every written register still do after a step in which the command reads only written registers. So the value
that the model gives an unwritten register (log entry 2) is unobservable in safe runs. -/
def Obligations.UnwrittenRegistersAreUnobservable : Prop :=
  ∀ s s' t : State, s.AgreeOnWritten s' → s.safe = true → step s = .next t →
    ∃ t', step s' = .next t' ∧ t.AgreeOnWritten t'

/-- R126: no result depends on the number of lanes: a command run with another NLANES gives the same state but for that
parameter. -/
def Obligations.LanesAreUnobservable : Prop :=
  ∀ (i : Instr) (s t : State) (n : BitVec 8), exec i s = .next t →
    exec i { s with dev := { s.dev with lanesLess1 := n } } = .next { t with dev := { t.dev with lanesLess1 := n } }
end

