-- ==== Sys2Proof/Laws/State.lean ====
section
/-! SUPPORT. One lemma per field of State per update operation, each true by definition, so that no later proof
unfolds a record update. -/
namespace Sys2Proof.Machine

/-! ### `State.writeF` -/
@[simp] theorem State.writeF_dev (s : State) (r : Reg) {w : Nat} (x : FixedPoint w) : (s.writeF r x).dev = s.dev := rfl
@[simp] theorem State.writeF_f (s : State) (r : Reg) {w : Nat} (x : FixedPoint w) : (s.writeF r x).f = s.f.set r.toNat x.toContainer r.isLt := rfl
@[simp] theorem State.writeF_cp (s : State) (r : Reg) {w : Nat} (x : FixedPoint w) : (s.writeF r x).cp = s.cp := rfl
@[simp] theorem State.writeF_ie (s : State) (r : Reg) {w : Nat} (x : FixedPoint w) : (s.writeF r x).ie = s.ie := rfl
@[simp] theorem State.writeF_busy (s : State) (r : Reg) {w : Nat} (x : FixedPoint w) : (s.writeF r x).busy = s.busy := rfl
@[simp] theorem State.writeF_done (s : State) (r : Reg) {w : Nat} (x : FixedPoint w) : (s.writeF r x).done = s.done := rfl
@[simp] theorem State.writeF_fault (s : State) (r : Reg) {w : Nat} (x : FixedPoint w) : (s.writeF r x).fault = s.fault := rfl
@[simp] theorem State.writeF_herr (s : State) (r : Reg) {w : Nat} (x : FixedPoint w) : (s.writeF r x).herr = s.herr := rfl
@[simp] theorem State.writeF_cpStart (s : State) (r : Reg) {w : Nat} (x : FixedPoint w) : (s.writeF r x).cpStart = s.cpStart := rfl
@[simp] theorem State.writeF_fcause (s : State) (r : Reg) {w : Nat} (x : FixedPoint w) : (s.writeF r x).fcause = s.fcause := rfl
@[simp] theorem State.writeF_faddr (s : State) (r : Reg) {w : Nat} (x : FixedPoint w) : (s.writeF r x).faddr = s.faddr := rfl
@[simp] theorem State.writeF_fcmd0 (s : State) (r : Reg) {w : Nat} (x : FixedPoint w) : (s.writeF r x).fcmd0 = s.fcmd0 := rfl
@[simp] theorem State.writeF_fcmd1 (s : State) (r : Reg) {w : Nat} (x : FixedPoint w) : (s.writeF r x).fcmd1 = s.fcmd1 := rfl
@[simp] theorem State.writeF_palsize (s : State) (r : Reg) {w : Nat} (x : FixedPoint w) : (s.writeF r x).palsize = s.palsize := rfl
@[simp] theorem State.writeF_mem (s : State) (r : Reg) {w : Nat} (x : FixedPoint w) : (s.writeF r x).mem = s.mem := rfl
@[simp] theorem State.writeF_written (s : State) (r : Reg) {w : Nat} (x : FixedPoint w) : (s.writeF r x).written = s.written.set r.toNat true r.isLt := rfl
@[simp] theorem State.writeF_resets (s : State) (r : Reg) {w : Nat} (x : FixedPoint w) : (s.writeF r x).resets = s.resets := rfl
@[simp] theorem State.writeF_host (s : State) (r : Reg) {w : Nat} (x : FixedPoint w) : (s.writeF r x).host = s.host := rfl
@[simp] theorem State.writeF_hostRData (s : State) (r : Reg) {w : Nat} (x : FixedPoint w) : (s.writeF r x).hostRData = s.hostRData := rfl

/-! ### `State.setByte` -/
@[simp] theorem State.setByte_dev (s : State) (a : Nat) (v : Byte) : (s.setByte a v).dev = s.dev := rfl
@[simp] theorem State.setByte_f (s : State) (a : Nat) (v : Byte) : (s.setByte a v).f = s.f := rfl
@[simp] theorem State.setByte_cp (s : State) (a : Nat) (v : Byte) : (s.setByte a v).cp = s.cp := rfl
@[simp] theorem State.setByte_ie (s : State) (a : Nat) (v : Byte) : (s.setByte a v).ie = s.ie := rfl
@[simp] theorem State.setByte_busy (s : State) (a : Nat) (v : Byte) : (s.setByte a v).busy = s.busy := rfl
@[simp] theorem State.setByte_done (s : State) (a : Nat) (v : Byte) : (s.setByte a v).done = s.done := rfl
@[simp] theorem State.setByte_fault (s : State) (a : Nat) (v : Byte) : (s.setByte a v).fault = s.fault := rfl
@[simp] theorem State.setByte_herr (s : State) (a : Nat) (v : Byte) : (s.setByte a v).herr = s.herr := rfl
@[simp] theorem State.setByte_cpStart (s : State) (a : Nat) (v : Byte) : (s.setByte a v).cpStart = s.cpStart := rfl
@[simp] theorem State.setByte_fcause (s : State) (a : Nat) (v : Byte) : (s.setByte a v).fcause = s.fcause := rfl
@[simp] theorem State.setByte_faddr (s : State) (a : Nat) (v : Byte) : (s.setByte a v).faddr = s.faddr := rfl
@[simp] theorem State.setByte_fcmd0 (s : State) (a : Nat) (v : Byte) : (s.setByte a v).fcmd0 = s.fcmd0 := rfl
@[simp] theorem State.setByte_fcmd1 (s : State) (a : Nat) (v : Byte) : (s.setByte a v).fcmd1 = s.fcmd1 := rfl
@[simp] theorem State.setByte_palsize (s : State) (a : Nat) (v : Byte) : (s.setByte a v).palsize = s.palsize := rfl
@[simp] theorem State.setByte_mem (s : State) (a : Nat) (v : Byte) : (s.setByte a v).mem = Memory.store s.mem a v := rfl
@[simp] theorem State.setByte_written (s : State) (a : Nat) (v : Byte) : (s.setByte a v).written = s.written := rfl
@[simp] theorem State.setByte_resets (s : State) (a : Nat) (v : Byte) : (s.setByte a v).resets = s.resets := rfl
@[simp] theorem State.setByte_host (s : State) (a : Nat) (v : Byte) : (s.setByte a v).host = s.host := rfl
@[simp] theorem State.setByte_hostRData (s : State) (a : Nat) (v : Byte) : (s.setByte a v).hostRData = s.hostRData := rfl

/-! ### `State.advance` -/
@[simp] theorem State.advance_dev (s : State) : (s.advance).dev = s.dev := rfl
@[simp] theorem State.advance_f (s : State) : (s.advance).f = s.f := rfl
@[simp] theorem State.advance_cp (s : State) : (s.advance).cp = s.cp + 8 := rfl
@[simp] theorem State.advance_ie (s : State) : (s.advance).ie = s.ie := rfl
@[simp] theorem State.advance_busy (s : State) : (s.advance).busy = s.busy := rfl
@[simp] theorem State.advance_done (s : State) : (s.advance).done = s.done := rfl
@[simp] theorem State.advance_fault (s : State) : (s.advance).fault = s.fault := rfl
@[simp] theorem State.advance_herr (s : State) : (s.advance).herr = s.herr := rfl
@[simp] theorem State.advance_cpStart (s : State) : (s.advance).cpStart = s.cpStart := rfl
@[simp] theorem State.advance_fcause (s : State) : (s.advance).fcause = s.fcause := rfl
@[simp] theorem State.advance_faddr (s : State) : (s.advance).faddr = s.faddr := rfl
@[simp] theorem State.advance_fcmd0 (s : State) : (s.advance).fcmd0 = s.fcmd0 := rfl
@[simp] theorem State.advance_fcmd1 (s : State) : (s.advance).fcmd1 = s.fcmd1 := rfl
@[simp] theorem State.advance_palsize (s : State) : (s.advance).palsize = s.palsize := rfl
@[simp] theorem State.advance_mem (s : State) : (s.advance).mem = s.mem := rfl
@[simp] theorem State.advance_written (s : State) : (s.advance).written = s.written := rfl
@[simp] theorem State.advance_resets (s : State) : (s.advance).resets = s.resets := rfl
@[simp] theorem State.advance_host (s : State) : (s.advance).host = s.host := rfl
@[simp] theorem State.advance_hostRData (s : State) : (s.advance).hostRData = s.hostRData := rfl

/-! ### `State.endRun` -/
@[simp] theorem State.endRun_dev (s : State) : (s.endRun).dev = s.dev := rfl
@[simp] theorem State.endRun_f (s : State) : (s.endRun).f = s.f := rfl
@[simp] theorem State.endRun_cp (s : State) : (s.endRun).cp = s.cp := rfl
@[simp] theorem State.endRun_ie (s : State) : (s.endRun).ie = s.ie := rfl
@[simp] theorem State.endRun_busy (s : State) : (s.endRun).busy = false := rfl
@[simp] theorem State.endRun_done (s : State) : (s.endRun).done = true := rfl
@[simp] theorem State.endRun_fault (s : State) : (s.endRun).fault = s.fault := rfl
@[simp] theorem State.endRun_herr (s : State) : (s.endRun).herr = s.herr := rfl
@[simp] theorem State.endRun_cpStart (s : State) : (s.endRun).cpStart = s.cpStart := rfl
@[simp] theorem State.endRun_fcause (s : State) : (s.endRun).fcause = s.fcause := rfl
@[simp] theorem State.endRun_faddr (s : State) : (s.endRun).faddr = s.faddr := rfl
@[simp] theorem State.endRun_fcmd0 (s : State) : (s.endRun).fcmd0 = s.fcmd0 := rfl
@[simp] theorem State.endRun_fcmd1 (s : State) : (s.endRun).fcmd1 = s.fcmd1 := rfl
@[simp] theorem State.endRun_palsize (s : State) : (s.endRun).palsize = s.palsize := rfl
@[simp] theorem State.endRun_mem (s : State) : (s.endRun).mem = s.mem := rfl
@[simp] theorem State.endRun_written (s : State) : (s.endRun).written = s.written := rfl
@[simp] theorem State.endRun_resets (s : State) : (s.endRun).resets = s.resets := rfl
@[simp] theorem State.endRun_host (s : State) : (s.endRun).host = s.host := rfl
@[simp] theorem State.endRun_hostRData (s : State) : (s.endRun).hostRData = s.hostRData := rfl

/-! ### `State.takeFault` -/
@[simp] theorem State.takeFault_dev (s : State) (c : Cause) (addr w0 w1 : Word) : (s.takeFault c addr w0 w1).dev = s.dev := rfl
@[simp] theorem State.takeFault_f (s : State) (c : Cause) (addr w0 w1 : Word) : (s.takeFault c addr w0 w1).f = s.f := rfl
@[simp] theorem State.takeFault_cp (s : State) (c : Cause) (addr w0 w1 : Word) : (s.takeFault c addr w0 w1).cp = s.cp := rfl
@[simp] theorem State.takeFault_ie (s : State) (c : Cause) (addr w0 w1 : Word) : (s.takeFault c addr w0 w1).ie = s.ie := rfl
@[simp] theorem State.takeFault_busy (s : State) (c : Cause) (addr w0 w1 : Word) : (s.takeFault c addr w0 w1).busy = false := rfl
@[simp] theorem State.takeFault_done (s : State) (c : Cause) (addr w0 w1 : Word) : (s.takeFault c addr w0 w1).done = s.done := rfl
@[simp] theorem State.takeFault_fault (s : State) (c : Cause) (addr w0 w1 : Word) : (s.takeFault c addr w0 w1).fault = true := rfl
@[simp] theorem State.takeFault_herr (s : State) (c : Cause) (addr w0 w1 : Word) : (s.takeFault c addr w0 w1).herr = s.herr := rfl
@[simp] theorem State.takeFault_cpStart (s : State) (c : Cause) (addr w0 w1 : Word) : (s.takeFault c addr w0 w1).cpStart = s.cpStart := rfl
@[simp] theorem State.takeFault_fcause (s : State) (c : Cause) (addr w0 w1 : Word) : (s.takeFault c addr w0 w1).fcause = c := rfl
@[simp] theorem State.takeFault_faddr (s : State) (c : Cause) (addr w0 w1 : Word) : (s.takeFault c addr w0 w1).faddr = addr := rfl
@[simp] theorem State.takeFault_fcmd0 (s : State) (c : Cause) (addr w0 w1 : Word) : (s.takeFault c addr w0 w1).fcmd0 = w0 := rfl
@[simp] theorem State.takeFault_fcmd1 (s : State) (c : Cause) (addr w0 w1 : Word) : (s.takeFault c addr w0 w1).fcmd1 = w1 := rfl
@[simp] theorem State.takeFault_palsize (s : State) (c : Cause) (addr w0 w1 : Word) : (s.takeFault c addr w0 w1).palsize = s.palsize := rfl
@[simp] theorem State.takeFault_mem (s : State) (c : Cause) (addr w0 w1 : Word) : (s.takeFault c addr w0 w1).mem = s.mem := rfl
@[simp] theorem State.takeFault_written (s : State) (c : Cause) (addr w0 w1 : Word) : (s.takeFault c addr w0 w1).written = s.written := rfl
@[simp] theorem State.takeFault_resets (s : State) (c : Cause) (addr w0 w1 : Word) : (s.takeFault c addr w0 w1).resets = s.resets := rfl
@[simp] theorem State.takeFault_host (s : State) (c : Cause) (addr w0 w1 : Word) : (s.takeFault c addr w0 w1).host = s.host := rfl
@[simp] theorem State.takeFault_hostRData (s : State) (c : Cause) (addr w0 w1 : Word) : (s.takeFault c addr w0 w1).hostRData = s.hostRData := rfl

/-! ### `State.faultIn` -/
@[simp] theorem State.faultIn_dev (s : State) (i : Instr) (c : Cause) (addr : Word) : (s.faultIn i c addr).dev = s.dev := rfl
@[simp] theorem State.faultIn_f (s : State) (i : Instr) (c : Cause) (addr : Word) : (s.faultIn i c addr).f = s.f := rfl
@[simp] theorem State.faultIn_cp (s : State) (i : Instr) (c : Cause) (addr : Word) : (s.faultIn i c addr).cp = s.cp := rfl
@[simp] theorem State.faultIn_ie (s : State) (i : Instr) (c : Cause) (addr : Word) : (s.faultIn i c addr).ie = s.ie := rfl
@[simp] theorem State.faultIn_busy (s : State) (i : Instr) (c : Cause) (addr : Word) : (s.faultIn i c addr).busy = false := rfl
@[simp] theorem State.faultIn_done (s : State) (i : Instr) (c : Cause) (addr : Word) : (s.faultIn i c addr).done = s.done := rfl
@[simp] theorem State.faultIn_fault (s : State) (i : Instr) (c : Cause) (addr : Word) : (s.faultIn i c addr).fault = true := rfl
@[simp] theorem State.faultIn_herr (s : State) (i : Instr) (c : Cause) (addr : Word) : (s.faultIn i c addr).herr = s.herr := rfl
@[simp] theorem State.faultIn_cpStart (s : State) (i : Instr) (c : Cause) (addr : Word) : (s.faultIn i c addr).cpStart = s.cpStart := rfl
@[simp] theorem State.faultIn_fcause (s : State) (i : Instr) (c : Cause) (addr : Word) : (s.faultIn i c addr).fcause = c := rfl
@[simp] theorem State.faultIn_faddr (s : State) (i : Instr) (c : Cause) (addr : Word) : (s.faultIn i c addr).faddr = addr := rfl
@[simp] theorem State.faultIn_fcmd0 (s : State) (i : Instr) (c : Cause) (addr : Word) : (s.faultIn i c addr).fcmd0 = i.word0 := rfl
@[simp] theorem State.faultIn_fcmd1 (s : State) (i : Instr) (c : Cause) (addr : Word) : (s.faultIn i c addr).fcmd1 = i.word1 := rfl
@[simp] theorem State.faultIn_palsize (s : State) (i : Instr) (c : Cause) (addr : Word) : (s.faultIn i c addr).palsize = s.palsize := rfl
@[simp] theorem State.faultIn_mem (s : State) (i : Instr) (c : Cause) (addr : Word) : (s.faultIn i c addr).mem = s.mem := rfl
@[simp] theorem State.faultIn_written (s : State) (i : Instr) (c : Cause) (addr : Word) : (s.faultIn i c addr).written = s.written := rfl
@[simp] theorem State.faultIn_resets (s : State) (i : Instr) (c : Cause) (addr : Word) : (s.faultIn i c addr).resets = s.resets := rfl
@[simp] theorem State.faultIn_host (s : State) (i : Instr) (c : Cause) (addr : Word) : (s.faultIn i c addr).host = s.host := rfl
@[simp] theorem State.faultIn_hostRData (s : State) (i : Instr) (c : Cause) (addr : Word) : (s.faultIn i c addr).hostRData = s.hostRData := rfl

/-! ### `State.hostError` -/
@[simp] theorem State.hostError_dev (s : State) : (s.hostError).dev = s.dev := rfl
@[simp] theorem State.hostError_f (s : State) : (s.hostError).f = s.f := rfl
@[simp] theorem State.hostError_cp (s : State) : (s.hostError).cp = s.cp := rfl
@[simp] theorem State.hostError_ie (s : State) : (s.hostError).ie = s.ie := rfl
@[simp] theorem State.hostError_busy (s : State) : (s.hostError).busy = s.busy := rfl
@[simp] theorem State.hostError_done (s : State) : (s.hostError).done = s.done := rfl
@[simp] theorem State.hostError_fault (s : State) : (s.hostError).fault = s.fault := rfl
@[simp] theorem State.hostError_herr (s : State) : (s.hostError).herr = true := rfl
@[simp] theorem State.hostError_cpStart (s : State) : (s.hostError).cpStart = s.cpStart := rfl
@[simp] theorem State.hostError_fcause (s : State) : (s.hostError).fcause = s.fcause := rfl
@[simp] theorem State.hostError_faddr (s : State) : (s.hostError).faddr = s.faddr := rfl
@[simp] theorem State.hostError_fcmd0 (s : State) : (s.hostError).fcmd0 = s.fcmd0 := rfl
@[simp] theorem State.hostError_fcmd1 (s : State) : (s.hostError).fcmd1 = s.fcmd1 := rfl
@[simp] theorem State.hostError_palsize (s : State) : (s.hostError).palsize = s.palsize := rfl
@[simp] theorem State.hostError_mem (s : State) : (s.hostError).mem = s.mem := rfl
@[simp] theorem State.hostError_written (s : State) : (s.hostError).written = s.written := rfl
@[simp] theorem State.hostError_resets (s : State) : (s.hostError).resets = s.resets := rfl
@[simp] theorem State.hostError_host (s : State) : (s.hostError).host = s.host := rfl
@[simp] theorem State.hostError_hostRData (s : State) : (s.hostError).hostRData = s.hostRData := rfl

/-! ### `State.startRun` -/
@[simp] theorem State.startRun_dev (s : State) : (s.startRun).dev = s.dev := rfl
@[simp] theorem State.startRun_f (s : State) : (s.startRun).f = s.f := rfl
@[simp] theorem State.startRun_cp (s : State) : (s.startRun).cp = s.cpStart := rfl
@[simp] theorem State.startRun_ie (s : State) : (s.startRun).ie = s.ie := rfl
@[simp] theorem State.startRun_busy (s : State) : (s.startRun).busy = true := rfl
@[simp] theorem State.startRun_done (s : State) : (s.startRun).done = false := rfl
@[simp] theorem State.startRun_fault (s : State) : (s.startRun).fault = s.fault := rfl
@[simp] theorem State.startRun_herr (s : State) : (s.startRun).herr = s.herr := rfl
@[simp] theorem State.startRun_cpStart (s : State) : (s.startRun).cpStart = s.cpStart := rfl
@[simp] theorem State.startRun_fcause (s : State) : (s.startRun).fcause = s.fcause := rfl
@[simp] theorem State.startRun_faddr (s : State) : (s.startRun).faddr = s.faddr := rfl
@[simp] theorem State.startRun_fcmd0 (s : State) : (s.startRun).fcmd0 = s.fcmd0 := rfl
@[simp] theorem State.startRun_fcmd1 (s : State) : (s.startRun).fcmd1 = s.fcmd1 := rfl
@[simp] theorem State.startRun_palsize (s : State) : (s.startRun).palsize = s.palsize := rfl
@[simp] theorem State.startRun_mem (s : State) : (s.startRun).mem = s.mem := rfl
@[simp] theorem State.startRun_written (s : State) : (s.startRun).written = s.written := rfl
@[simp] theorem State.startRun_resets (s : State) : (s.startRun).resets = s.resets := rfl
@[simp] theorem State.startRun_host (s : State) : (s.startRun).host = s.host := rfl
@[simp] theorem State.startRun_hostRData (s : State) : (s.startRun).hostRData = s.hostRData := rfl

/-! ### Operations that change memory only -/

/-- t is s but for its memory. -/
def State.SameButMem (s t : State) : Prop := ∃ m, t = { s with mem := m }

theorem State.SameButMem.refl (s : State) : s.SameButMem s := ⟨s.mem, rfl⟩

theorem State.SameButMem.trans {s t u : State} : s.SameButMem t → t.SameButMem u → s.SameButMem u := by
  rintro ⟨m, rfl⟩ ⟨n, rfl⟩
  exact ⟨n, rfl⟩

theorem State.SameButMem.eq {s t : State} : s.SameButMem t → t = { s with mem := t.mem } := by
  rintro ⟨m, rfl⟩
  rfl

theorem State.setByte_same (s : State) (a : Nat) (v : Byte) : s.SameButMem (s.setByte a v) := ⟨_, rfl⟩

theorem State.memWrite_same (s : State) (a n v : Nat) : s.SameButMem (s.memWrite a n v) := by
  induction n generalizing s a v with
  | zero => exact .refl s
  | succ n ih => exact (s.setByte_same a _).trans (ih _ _ _)

theorem State.writeBytes_same (s : State) (a : Nat) (bs : List Byte) : s.SameButMem (s.writeBytes a bs) := by
  induction bs generalizing s a with
  | nil => exact .refl s
  | cons b bs ih => exact (s.setByte_same a b).trans (ih _ _)

theorem State.storeFP_same (s : State) (a : Nat) {w : Nat} (x : FixedPoint w) :
    s.SameButMem (s.storeFP a x) :=
  ((((s.memWrite_same _ _ _).trans (State.memWrite_same _ _ _ _)).trans (State.memWrite_same _ _ _ _)).trans
    (State.memWrite_same _ _ _ _))

theorem State.renderPixel_same {w : Nat} (sn : Snapshot w) (s : State) (k : Nat) :
    s.SameButMem (State.renderPixel sn s k) := s.memWrite_same _ _ _

theorem State.renderInOrder_same {w : Nat} (sn : Snapshot w) (s : State) (order : List Nat) :
    s.SameButMem (State.renderInOrder sn s order) := by
  induction order generalizing s with
  | nil => exact .refl s
  | cons k ks ih => exact (State.renderPixel_same sn s k).trans (ih _)

@[simp] theorem State.memWrite_dev (s : State) (a n v : Nat) : (s.memWrite a n v).dev = s.dev := by
  rw [(s.memWrite_same a n v).eq]
@[simp] theorem State.memWrite_f (s : State) (a n v : Nat) : (s.memWrite a n v).f = s.f := by
  rw [(s.memWrite_same a n v).eq]
@[simp] theorem State.memWrite_cp (s : State) (a n v : Nat) : (s.memWrite a n v).cp = s.cp := by
  rw [(s.memWrite_same a n v).eq]
@[simp] theorem State.memWrite_ie (s : State) (a n v : Nat) : (s.memWrite a n v).ie = s.ie := by
  rw [(s.memWrite_same a n v).eq]
@[simp] theorem State.memWrite_busy (s : State) (a n v : Nat) : (s.memWrite a n v).busy = s.busy := by
  rw [(s.memWrite_same a n v).eq]
@[simp] theorem State.memWrite_done (s : State) (a n v : Nat) : (s.memWrite a n v).done = s.done := by
  rw [(s.memWrite_same a n v).eq]
@[simp] theorem State.memWrite_fault (s : State) (a n v : Nat) : (s.memWrite a n v).fault = s.fault := by
  rw [(s.memWrite_same a n v).eq]
@[simp] theorem State.memWrite_herr (s : State) (a n v : Nat) : (s.memWrite a n v).herr = s.herr := by
  rw [(s.memWrite_same a n v).eq]
@[simp] theorem State.memWrite_cpStart (s : State) (a n v : Nat) : (s.memWrite a n v).cpStart = s.cpStart := by
  rw [(s.memWrite_same a n v).eq]
@[simp] theorem State.memWrite_fcause (s : State) (a n v : Nat) : (s.memWrite a n v).fcause = s.fcause := by
  rw [(s.memWrite_same a n v).eq]
@[simp] theorem State.memWrite_faddr (s : State) (a n v : Nat) : (s.memWrite a n v).faddr = s.faddr := by
  rw [(s.memWrite_same a n v).eq]
@[simp] theorem State.memWrite_fcmd0 (s : State) (a n v : Nat) : (s.memWrite a n v).fcmd0 = s.fcmd0 := by
  rw [(s.memWrite_same a n v).eq]
@[simp] theorem State.memWrite_fcmd1 (s : State) (a n v : Nat) : (s.memWrite a n v).fcmd1 = s.fcmd1 := by
  rw [(s.memWrite_same a n v).eq]
@[simp] theorem State.memWrite_palsize (s : State) (a n v : Nat) : (s.memWrite a n v).palsize = s.palsize := by
  rw [(s.memWrite_same a n v).eq]
@[simp] theorem State.memWrite_written (s : State) (a n v : Nat) : (s.memWrite a n v).written = s.written := by
  rw [(s.memWrite_same a n v).eq]
@[simp] theorem State.memWrite_resets (s : State) (a n v : Nat) : (s.memWrite a n v).resets = s.resets := by
  rw [(s.memWrite_same a n v).eq]
@[simp] theorem State.memWrite_host (s : State) (a n v : Nat) : (s.memWrite a n v).host = s.host := by
  rw [(s.memWrite_same a n v).eq]
@[simp] theorem State.memWrite_hostRData (s : State) (a n v : Nat) : (s.memWrite a n v).hostRData = s.hostRData := by
  rw [(s.memWrite_same a n v).eq]

@[simp] theorem State.writeBytes_dev (s : State) (a : Nat) (bs : List Byte) : (s.writeBytes a bs).dev = s.dev := by
  rw [(s.writeBytes_same a bs).eq]
@[simp] theorem State.writeBytes_f (s : State) (a : Nat) (bs : List Byte) : (s.writeBytes a bs).f = s.f := by
  rw [(s.writeBytes_same a bs).eq]
@[simp] theorem State.writeBytes_cp (s : State) (a : Nat) (bs : List Byte) : (s.writeBytes a bs).cp = s.cp := by
  rw [(s.writeBytes_same a bs).eq]
@[simp] theorem State.writeBytes_ie (s : State) (a : Nat) (bs : List Byte) : (s.writeBytes a bs).ie = s.ie := by
  rw [(s.writeBytes_same a bs).eq]
@[simp] theorem State.writeBytes_busy (s : State) (a : Nat) (bs : List Byte) : (s.writeBytes a bs).busy = s.busy := by
  rw [(s.writeBytes_same a bs).eq]
@[simp] theorem State.writeBytes_done (s : State) (a : Nat) (bs : List Byte) : (s.writeBytes a bs).done = s.done := by
  rw [(s.writeBytes_same a bs).eq]
@[simp] theorem State.writeBytes_fault (s : State) (a : Nat) (bs : List Byte) : (s.writeBytes a bs).fault = s.fault := by
  rw [(s.writeBytes_same a bs).eq]
@[simp] theorem State.writeBytes_herr (s : State) (a : Nat) (bs : List Byte) : (s.writeBytes a bs).herr = s.herr := by
  rw [(s.writeBytes_same a bs).eq]
@[simp] theorem State.writeBytes_cpStart (s : State) (a : Nat) (bs : List Byte) : (s.writeBytes a bs).cpStart = s.cpStart := by
  rw [(s.writeBytes_same a bs).eq]
@[simp] theorem State.writeBytes_fcause (s : State) (a : Nat) (bs : List Byte) : (s.writeBytes a bs).fcause = s.fcause := by
  rw [(s.writeBytes_same a bs).eq]
@[simp] theorem State.writeBytes_faddr (s : State) (a : Nat) (bs : List Byte) : (s.writeBytes a bs).faddr = s.faddr := by
  rw [(s.writeBytes_same a bs).eq]
@[simp] theorem State.writeBytes_fcmd0 (s : State) (a : Nat) (bs : List Byte) : (s.writeBytes a bs).fcmd0 = s.fcmd0 := by
  rw [(s.writeBytes_same a bs).eq]
@[simp] theorem State.writeBytes_fcmd1 (s : State) (a : Nat) (bs : List Byte) : (s.writeBytes a bs).fcmd1 = s.fcmd1 := by
  rw [(s.writeBytes_same a bs).eq]
@[simp] theorem State.writeBytes_palsize (s : State) (a : Nat) (bs : List Byte) : (s.writeBytes a bs).palsize = s.palsize := by
  rw [(s.writeBytes_same a bs).eq]
@[simp] theorem State.writeBytes_written (s : State) (a : Nat) (bs : List Byte) : (s.writeBytes a bs).written = s.written := by
  rw [(s.writeBytes_same a bs).eq]
@[simp] theorem State.writeBytes_resets (s : State) (a : Nat) (bs : List Byte) : (s.writeBytes a bs).resets = s.resets := by
  rw [(s.writeBytes_same a bs).eq]
@[simp] theorem State.writeBytes_host (s : State) (a : Nat) (bs : List Byte) : (s.writeBytes a bs).host = s.host := by
  rw [(s.writeBytes_same a bs).eq]
@[simp] theorem State.writeBytes_hostRData (s : State) (a : Nat) (bs : List Byte) : (s.writeBytes a bs).hostRData = s.hostRData := by
  rw [(s.writeBytes_same a bs).eq]

@[simp] theorem State.storeFP_dev (s : State) (a : Nat) {w : Nat} (x : FixedPoint w) : (s.storeFP a x).dev = s.dev := by
  rw [(s.storeFP_same a x).eq]
@[simp] theorem State.storeFP_f (s : State) (a : Nat) {w : Nat} (x : FixedPoint w) : (s.storeFP a x).f = s.f := by
  rw [(s.storeFP_same a x).eq]
@[simp] theorem State.storeFP_cp (s : State) (a : Nat) {w : Nat} (x : FixedPoint w) : (s.storeFP a x).cp = s.cp := by
  rw [(s.storeFP_same a x).eq]
@[simp] theorem State.storeFP_ie (s : State) (a : Nat) {w : Nat} (x : FixedPoint w) : (s.storeFP a x).ie = s.ie := by
  rw [(s.storeFP_same a x).eq]
@[simp] theorem State.storeFP_busy (s : State) (a : Nat) {w : Nat} (x : FixedPoint w) : (s.storeFP a x).busy = s.busy := by
  rw [(s.storeFP_same a x).eq]
@[simp] theorem State.storeFP_done (s : State) (a : Nat) {w : Nat} (x : FixedPoint w) : (s.storeFP a x).done = s.done := by
  rw [(s.storeFP_same a x).eq]
@[simp] theorem State.storeFP_fault (s : State) (a : Nat) {w : Nat} (x : FixedPoint w) : (s.storeFP a x).fault = s.fault := by
  rw [(s.storeFP_same a x).eq]
@[simp] theorem State.storeFP_herr (s : State) (a : Nat) {w : Nat} (x : FixedPoint w) : (s.storeFP a x).herr = s.herr := by
  rw [(s.storeFP_same a x).eq]
@[simp] theorem State.storeFP_cpStart (s : State) (a : Nat) {w : Nat} (x : FixedPoint w) : (s.storeFP a x).cpStart = s.cpStart := by
  rw [(s.storeFP_same a x).eq]
@[simp] theorem State.storeFP_fcause (s : State) (a : Nat) {w : Nat} (x : FixedPoint w) : (s.storeFP a x).fcause = s.fcause := by
  rw [(s.storeFP_same a x).eq]
@[simp] theorem State.storeFP_faddr (s : State) (a : Nat) {w : Nat} (x : FixedPoint w) : (s.storeFP a x).faddr = s.faddr := by
  rw [(s.storeFP_same a x).eq]
@[simp] theorem State.storeFP_fcmd0 (s : State) (a : Nat) {w : Nat} (x : FixedPoint w) : (s.storeFP a x).fcmd0 = s.fcmd0 := by
  rw [(s.storeFP_same a x).eq]
@[simp] theorem State.storeFP_fcmd1 (s : State) (a : Nat) {w : Nat} (x : FixedPoint w) : (s.storeFP a x).fcmd1 = s.fcmd1 := by
  rw [(s.storeFP_same a x).eq]
@[simp] theorem State.storeFP_palsize (s : State) (a : Nat) {w : Nat} (x : FixedPoint w) : (s.storeFP a x).palsize = s.palsize := by
  rw [(s.storeFP_same a x).eq]
@[simp] theorem State.storeFP_written (s : State) (a : Nat) {w : Nat} (x : FixedPoint w) : (s.storeFP a x).written = s.written := by
  rw [(s.storeFP_same a x).eq]
@[simp] theorem State.storeFP_resets (s : State) (a : Nat) {w : Nat} (x : FixedPoint w) : (s.storeFP a x).resets = s.resets := by
  rw [(s.storeFP_same a x).eq]
@[simp] theorem State.storeFP_host (s : State) (a : Nat) {w : Nat} (x : FixedPoint w) : (s.storeFP a x).host = s.host := by
  rw [(s.storeFP_same a x).eq]
@[simp] theorem State.storeFP_hostRData (s : State) (a : Nat) {w : Nat} (x : FixedPoint w) : (s.storeFP a x).hostRData = s.hostRData := by
  rw [(s.storeFP_same a x).eq]

@[simp] theorem State.renderInOrder_dev (s : State) {w : Nat} (sn : Snapshot w) (order : List Nat) : (State.renderInOrder sn s order).dev = s.dev := by
  rw [(State.renderInOrder_same sn s order).eq]
@[simp] theorem State.renderInOrder_f (s : State) {w : Nat} (sn : Snapshot w) (order : List Nat) : (State.renderInOrder sn s order).f = s.f := by
  rw [(State.renderInOrder_same sn s order).eq]
@[simp] theorem State.renderInOrder_cp (s : State) {w : Nat} (sn : Snapshot w) (order : List Nat) : (State.renderInOrder sn s order).cp = s.cp := by
  rw [(State.renderInOrder_same sn s order).eq]
@[simp] theorem State.renderInOrder_ie (s : State) {w : Nat} (sn : Snapshot w) (order : List Nat) : (State.renderInOrder sn s order).ie = s.ie := by
  rw [(State.renderInOrder_same sn s order).eq]
@[simp] theorem State.renderInOrder_busy (s : State) {w : Nat} (sn : Snapshot w) (order : List Nat) : (State.renderInOrder sn s order).busy = s.busy := by
  rw [(State.renderInOrder_same sn s order).eq]
@[simp] theorem State.renderInOrder_done (s : State) {w : Nat} (sn : Snapshot w) (order : List Nat) : (State.renderInOrder sn s order).done = s.done := by
  rw [(State.renderInOrder_same sn s order).eq]
@[simp] theorem State.renderInOrder_fault (s : State) {w : Nat} (sn : Snapshot w) (order : List Nat) : (State.renderInOrder sn s order).fault = s.fault := by
  rw [(State.renderInOrder_same sn s order).eq]
@[simp] theorem State.renderInOrder_herr (s : State) {w : Nat} (sn : Snapshot w) (order : List Nat) : (State.renderInOrder sn s order).herr = s.herr := by
  rw [(State.renderInOrder_same sn s order).eq]
@[simp] theorem State.renderInOrder_cpStart (s : State) {w : Nat} (sn : Snapshot w) (order : List Nat) : (State.renderInOrder sn s order).cpStart = s.cpStart := by
  rw [(State.renderInOrder_same sn s order).eq]
@[simp] theorem State.renderInOrder_fcause (s : State) {w : Nat} (sn : Snapshot w) (order : List Nat) : (State.renderInOrder sn s order).fcause = s.fcause := by
  rw [(State.renderInOrder_same sn s order).eq]
@[simp] theorem State.renderInOrder_faddr (s : State) {w : Nat} (sn : Snapshot w) (order : List Nat) : (State.renderInOrder sn s order).faddr = s.faddr := by
  rw [(State.renderInOrder_same sn s order).eq]
@[simp] theorem State.renderInOrder_fcmd0 (s : State) {w : Nat} (sn : Snapshot w) (order : List Nat) : (State.renderInOrder sn s order).fcmd0 = s.fcmd0 := by
  rw [(State.renderInOrder_same sn s order).eq]
@[simp] theorem State.renderInOrder_fcmd1 (s : State) {w : Nat} (sn : Snapshot w) (order : List Nat) : (State.renderInOrder sn s order).fcmd1 = s.fcmd1 := by
  rw [(State.renderInOrder_same sn s order).eq]
@[simp] theorem State.renderInOrder_palsize (s : State) {w : Nat} (sn : Snapshot w) (order : List Nat) : (State.renderInOrder sn s order).palsize = s.palsize := by
  rw [(State.renderInOrder_same sn s order).eq]
@[simp] theorem State.renderInOrder_written (s : State) {w : Nat} (sn : Snapshot w) (order : List Nat) : (State.renderInOrder sn s order).written = s.written := by
  rw [(State.renderInOrder_same sn s order).eq]
@[simp] theorem State.renderInOrder_resets (s : State) {w : Nat} (sn : Snapshot w) (order : List Nat) : (State.renderInOrder sn s order).resets = s.resets := by
  rw [(State.renderInOrder_same sn s order).eq]
@[simp] theorem State.renderInOrder_host (s : State) {w : Nat} (sn : Snapshot w) (order : List Nat) : (State.renderInOrder sn s order).host = s.host := by
  rw [(State.renderInOrder_same sn s order).eq]
@[simp] theorem State.renderInOrder_hostRData (s : State) {w : Nat} (sn : Snapshot w) (order : List Nat) : (State.renderInOrder sn s order).hostRData = s.hostRData := by
  rw [(State.renderInOrder_same sn s order).eq]

end Sys2Proof.Machine
end

