-- ==== Sys2Proof/Laws/FixedPoint.lean ====
section
/-! SUPPORT. FixedPoint values as patterns: what every arithmetic operation does to `pat`, and the registers' limb
containers (spec/10_state.md R20; spec/41_twos_complement.md; spec/42_adder.md; spec/43_multiplier.md). -/
namespace Sys2Proof.FixedPoint

variable {w : Nat}

/-! ### Limbs and patterns -/

@[simp] theorem limb_ofLimbs_zero (f : Nat → BitVec w) : (ofLimbs f).limb 0 = f 0 := rfl
@[simp] theorem limb_ofLimbs_one (f : Nat → BitVec w) : (ofLimbs f).limb 1 = f 1 := rfl
@[simp] theorem limb_ofLimbs_two (f : Nat → BitVec w) : (ofLimbs f).limb 2 = f 2 := rfl
@[simp] theorem limb_ofLimbs_three (f : Nat → BitVec w) : (ofLimbs f).limb 3 = f 3 := rfl

@[simp] theorem ofLimbs_limb (x : FixedPoint w) : ofLimbs x.limb = x := rfl

/-- The pattern with the powers of the base B = 2^W written out (R20). -/
theorem pat_base (x : FixedPoint w) :
    x.pat = x.l0.toNat * (2 ^ w) ^ 3 + x.l1.toNat * (2 ^ w) ^ 2 + x.l2.toNat * 2 ^ w + x.l3.toNat := by
  rw [pat, ← pow_mul, ← pow_mul, Nat.mul_comm w 3, Nat.mul_comm w 2]

theorem patterns_base (w : Nat) : 2 ^ (4 * w) = (2 ^ w) ^ 4 := by
  rw [← pow_mul, Nat.mul_comm]

/-- Four digits below a base are a number below its fourth power. -/
theorem digits_lt {B a b c d : Nat} (ha : a < B) (hb : b < B) (hc : c < B) (hd : d < B) :
    a * B ^ 3 + b * B ^ 2 + c * B + d < B ^ 4 := by
  have h1 : c * B + d < B ^ 2 := by nlinarith
  have h2 : b * B ^ 2 + (c * B + d) < B ^ 3 := by
    have := Nat.mul_le_mul_right (B ^ 2) (Nat.succ_le_of_lt hb)
    have e : B ^ 3 = B * B ^ 2 := by ring
    rw [Nat.succ_mul] at this
    omega
  have := Nat.mul_le_mul_right (B ^ 3) (Nat.succ_le_of_lt ha)
  have e : B ^ 4 = B * B ^ 3 := by ring
  rw [Nat.succ_mul] at this
  omega

/-- A pattern is below 2^N (R20). -/
theorem pat_lt (x : FixedPoint w) : x.pat < 2 ^ (4 * w) := by
  rw [pat_base, patterns_base]
  exact digits_lt x.l0.isLt x.l1.isLt x.l2.isLt x.l3.isLt

/-- The limbs are the base-2^W digits of the pattern (R20). -/
theorem limb_of_pat (x : FixedPoint w) :
    x.l3.toNat = x.pat % 2 ^ w ∧ x.l2.toNat = x.pat / 2 ^ w % 2 ^ w ∧
      x.l1.toNat = x.pat / 2 ^ w / 2 ^ w % 2 ^ w ∧ x.l0.toNat = x.pat / 2 ^ w / 2 ^ w / 2 ^ w := by
  have e : x.pat = ((x.l0.toNat * 2 ^ w + x.l1.toNat) * 2 ^ w + x.l2.toNat) * 2 ^ w + x.l3.toNat := by
    rw [pat_base]; ring
  have hB : 0 < 2 ^ w := Nat.two_pow_pos w
  have div : ∀ a b : Nat, b < 2 ^ w → (a * 2 ^ w + b) / 2 ^ w = a := fun a b hb => by
    rw [Nat.add_comm, Nat.add_mul_div_right _ _ hB, Nat.div_eq_of_lt hb, Nat.zero_add]
  have mod : ∀ a b : Nat, b < 2 ^ w → (a * 2 ^ w + b) % 2 ^ w = b := fun a b hb => by
    rw [Nat.mul_add_mod_self_right, Nat.mod_eq_of_lt hb]
  rw [e, div _ _ x.l3.isLt, div _ _ x.l2.isLt, div _ _ x.l1.isLt, mod _ _ x.l3.isLt, mod _ _ x.l2.isLt,
    mod _ _ x.l1.isLt]
  exact ⟨rfl, rfl, rfl, rfl⟩

/-- Two values are equal exactly when their patterns are equal (R20). -/
theorem pat_inj {x y : FixedPoint w} : x.pat = y.pat ↔ x = y := by
  refine ⟨fun h => ?_, fun h => h ▸ rfl⟩
  obtain ⟨x3, x2, x1, x0⟩ := limb_of_pat x
  obtain ⟨y3, y2, y1, y0⟩ := limb_of_pat y
  cases x; cases y
  rw [h] at x0 x1 x2 x3
  simp only [FixedPoint.mk.injEq]
  exact ⟨BitVec.eq_of_toNat_eq (x0.trans y0.symm), BitVec.eq_of_toNat_eq (x1.trans y1.symm),
    BitVec.eq_of_toNat_eq (x2.trans y2.symm), BitVec.eq_of_toNat_eq (x3.trans y3.symm)⟩

theorem pat_zero : (zero : FixedPoint w).pat = 0 := by simp [zero, pat]

/-- A number that differs from a pattern by a multiple of 2^N has that pattern as its residue. -/
theorem pat_eq_mod (x : FixedPoint w) (n k : Nat) (h : n = x.pat + k * 2 ^ (4 * w)) :
    x.pat = n % 2 ^ (4 * w) := by
  rw [h, Nat.add_mul_mod_self_right, Nat.mod_eq_of_lt x.pat_lt]

theorem pat_ofPat (n : Nat) : (ofPat n : FixedPoint w).pat = n % 2 ^ (4 * w) := by
  refine pat_eq_mod _ n (n / 2 ^ (4 * w)) ?_
  rw [pat_base, patterns_base]
  simp only [ofPat, ofLimbs, BitVec.toNat_ofNat]
  have e : ∀ k, 2 ^ (w * k) = (2 ^ w) ^ k := fun k => pow_mul 2 w k
  simp only [e]
  generalize 2 ^ w = B
  have h0 := Nat.div_add_mod n B
  have h1 := Nat.div_add_mod (n / B) B
  have h2 := Nat.div_add_mod (n / B / B) B
  have h3 := Nat.div_add_mod (n / B / B / B) B
  simp only [Nat.div_div_eq_div_mul] at *
  have e2 : B ^ 2 = B * B := by ring
  have e3 : B ^ 3 = B * B * B := by ring
  have e4 : B ^ 4 = B * B * B * B := by ring
  norm_num
  simp only [e2, e3, e4]
  zify at *
  linear_combination -h0 - B * h1 - B * B * h2 - B * B * B * h3

/-! ### INC and NEG (R94 to R96) -/

theorem toNat_succ_of_ne_allOnes {a : BitVec w} (h : a ≠ BitVec.allOnes w) : (a + 1).toNat = a.toNat + 1 := by
  have hlt := a.isLt
  have hne : a.toNat ≠ 2 ^ w - 1 := fun e => h (BitVec.eq_of_toNat_eq (by rw [e, BitVec.toNat_allOnes]))
  have h1 : (1 : BitVec w).toNat = 1 % 2 ^ w := BitVec.toNat_ofNat 1 w
  rw [BitVec.toNat_add, h1, Nat.add_mod_mod, Nat.mod_eq_of_lt (by omega)]

theorem toNat_of_eq_allOnes {a : BitVec w} (h : a = BitVec.allOnes w) : a.toNat + 1 = 2 ^ w := by
  rw [h, BitVec.toNat_allOnes, Nat.sub_add_cancel (Nat.one_le_two_pow)]

/-- The loop of INC, unrolled over the four limbs (R95). -/
theorem inc_eq (a b c d : BitVec w) :
    inc ⟨a, b, c, d⟩ =
      if d = BitVec.allOnes w then
        if c = BitVec.allOnes w then
          if b = BitVec.allOnes w then
            if a = BitVec.allOnes w then ⟨0, 0, 0, 0⟩ else ⟨a + 1, 0, 0, 0⟩
          else ⟨a, b + 1, 0, 0⟩
        else ⟨a, b, c + 1, 0⟩
      else ⟨a, b, c, d + 1⟩ := rfl

/-- INC adds one to the pattern, modulo 2^N (R95). -/
theorem pat_inc (x : FixedPoint w) : x.inc.pat = (x.pat + 1) % 2 ^ (4 * w) := by
  obtain ⟨a, b, c, d⟩ := x
  have z : (0 : BitVec w).toNat = 0 := BitVec.toNat_zero
  rw [inc_eq]
  split
  · rename_i hd
    have hd := toNat_of_eq_allOnes hd
    split
    · rename_i hc
      have hc := toNat_of_eq_allOnes hc
      split
      · rename_i hb
        have hb := toNat_of_eq_allOnes hb
        split
        · rename_i ha
          have ha := toNat_of_eq_allOnes ha
          refine pat_eq_mod _ _ 1 ?_
          simp only [pat_base, patterns_base, z]
          generalize 2 ^ w = B at *
          zify at *
          linear_combination B ^ 3 * ha + B ^ 2 * hb + B * hc + hd
        · rename_i ha
          refine pat_eq_mod _ _ 0 ?_
          simp only [pat_base, z, toNat_succ_of_ne_allOnes ha]
          generalize 2 ^ w = B at *
          zify at *
          linear_combination B ^ 2 * hb + B * hc + hd
      · rename_i hb
        refine pat_eq_mod _ _ 0 ?_
        simp only [pat_base, z, toNat_succ_of_ne_allOnes hb]
        generalize 2 ^ w = B at *
        zify at *
        linear_combination B * hc + hd
    · rename_i hc
      refine pat_eq_mod _ _ 0 ?_
      simp only [pat_base, z, toNat_succ_of_ne_allOnes hc]
      generalize 2 ^ w = B at *
      zify at *
      linear_combination hd
  · rename_i hd
    refine pat_eq_mod _ _ 0 ?_
    simp only [pat_base, toNat_succ_of_ne_allOnes hd]
    omega

/-- NOT complements the pattern: `pat(NOT(X)) = 2^N - 1 - pat(X)` (R94). -/
theorem pat_compl (x : FixedPoint w) : x.compl.pat + x.pat + 1 = 2 ^ (4 * w) := by
  have limb : ∀ a : BitVec w, (a ^^^ BitVec.allOnes w).toNat + a.toNat + 1 = 2 ^ w := fun a => by
    have := a.isLt
    rw [BitVec.xor_allOnes, BitVec.toNat_not]
    omega
  have h0 := limb x.l0
  have h1 := limb x.l1
  have h2 := limb x.l2
  have h3 := limb x.l3
  simp only [pat_base, patterns_base, compl, ofLimbs, FixedPoint.limb]
  generalize 2 ^ w = B at *
  zify at *
  linear_combination B ^ 3 * h0 + B ^ 2 * h1 + B * h2 + h3

/-- NEG negates the pattern modulo 2^N (R96). -/
theorem pat_neg (x : FixedPoint w) : x.neg.pat = (2 ^ (4 * w) - x.pat) % 2 ^ (4 * w) := by
  have := pat_compl x
  rw [neg, pat_inc]
  congr 1
  omega

/-! ### ADD under FULL, and DBL (R101, R105) -/

/-- The four limbs of ADD_FULL with the carries between them (R101). -/
theorem addFull_eq (u v : FixedPoint w) :
    addFull u v =
      let t3 := u.l3.toNat + v.l3.toNat + 0
      let t2 := u.l2.toNat + v.l2.toNat + t3 / 2 ^ w
      let t1 := u.l1.toNat + v.l1.toNat + t2 / 2 ^ w
      let t0 := u.l0.toNat + v.l0.toNat + t1 / 2 ^ w
      ⟨BitVec.ofNat w t0, BitVec.ofNat w t1, BitVec.ofNat w t2, BitVec.ofNat w t3⟩ := rfl

/-- ADD_FULL is exact modulo 2^N (R101). -/
theorem pat_addFull (u v : FixedPoint w) : (addFull u v).pat = (u.pat + v.pat) % 2 ^ (4 * w) := by
  rw [addFull_eq]
  simp only
  refine pat_eq_mod _ _ ((u.l0.toNat + v.l0.toNat + (u.l1.toNat + v.l1.toNat
    + (u.l2.toNat + v.l2.toNat + (u.l3.toNat + v.l3.toNat + 0) / 2 ^ w) / 2 ^ w) / 2 ^ w) / 2 ^ w) ?_
  simp only [pat_base, patterns_base, BitVec.toNat_ofNat]
  generalize 2 ^ w = B
  have h3 := Nat.div_add_mod (u.l3.toNat + v.l3.toNat + 0) B
  have h2 := Nat.div_add_mod (u.l2.toNat + v.l2.toNat + (u.l3.toNat + v.l3.toNat + 0) / B) B
  have h1 := Nat.div_add_mod (u.l1.toNat + v.l1.toNat
    + (u.l2.toNat + v.l2.toNat + (u.l3.toNat + v.l3.toNat + 0) / B) / B) B
  have h0 := Nat.div_add_mod (u.l0.toNat + v.l0.toNat + (u.l1.toNat + v.l1.toNat
    + (u.l2.toNat + v.l2.toNat + (u.l3.toNat + v.l3.toNat + 0) / B) / B) / B) B
  zify at *
  linear_combination -h3 - B * h2 - B ^ 2 * h1 - B ^ 3 * h0

/-- One limb of DBL: shifted left with the bit that crosses the boundary put in (R105). -/
theorem toNat_shift_carry (a : BitVec w) (c : Bool) :
    ((a <<< 1) ||| carryLimb w c).toNat = (2 * a.toNat + c.toNat) % 2 ^ w := by
  cases w with
  | zero =>
    have := ((a <<< 1) ||| carryLimb 0 c).isLt
    rw [Nat.pow_zero, Nat.mod_one]
    omega
  | succ w =>
    have hc : (carryLimb (w + 1) c).toNat = c.toNat := by
      cases c
      · simp [carryLimb]
      · simp [carryLimb]
    have e : 2 * a.toNat % 2 ^ (w + 1) = 2 * (a.toNat % 2 ^ w) := by
      rw [Nat.pow_succ', Nat.mul_mod_mul_left]
    have hlt : a.toNat % 2 ^ w < 2 ^ w := Nat.mod_lt _ (Nat.two_pow_pos w)
    have hb : c.toNat < 2 ^ 1 := by cases c <;> simp
    rw [BitVec.toNat_or, BitVec.toNat_shiftLeft, hc, Nat.shiftLeft_eq, Nat.pow_one, Nat.mul_comm, e,
      Nat.mul_comm 2, ← Nat.pow_one 2, ← Nat.shiftLeft_eq, Nat.pow_one, ← Nat.shiftLeft_add_eq_or_of_lt hb,
      Nat.shiftLeft_eq, Nat.pow_one]
    have : (2 * a.toNat + c.toNat) % 2 ^ (w + 1) = 2 * (a.toNat % 2 ^ w) + c.toNat := by
      rw [Nat.add_mod, e, Nat.mod_eq_of_lt (a := c.toNat) (by rw [Nat.pow_succ]; have := Nat.two_pow_pos w; omega),
        Nat.mod_eq_of_lt (by rw [Nat.pow_succ']; omega)]
    omega

/-- The bit that leaves a limb when it is doubled is its top bit. -/
theorem msb_carry (a : BitVec w) (c : Nat) (hc : c ≤ 1) (hw : 0 < w) :
    (2 * a.toNat + c) / 2 ^ w = a.msb.toNat := by
  obtain ⟨k, rfl⟩ : ∃ k, w = k + 1 := ⟨w - 1, by omega⟩
  have h := a.isLt
  have hp : 0 < 2 ^ k := Nat.two_pow_pos k
  rw [Nat.pow_succ] at h
  rw [BitVec.msb_eq_decide, Nat.pow_succ, Nat.add_sub_cancel]
  by_cases hm : 2 ^ k ≤ a.toNat
  · rw [decide_eq_true hm]
    exact Nat.div_eq_of_lt_le (by rw [Bool.toNat_true]; omega) (by rw [Bool.toNat_true]; omega)
  · rw [decide_eq_false hm]
    exact Nat.div_eq_of_lt (by omega)

/-- DBL doubles the pattern modulo 2^N (R105). -/
theorem pat_dbl (x : FixedPoint w) (hw : 0 < w) : x.dbl.pat = 2 * x.pat % 2 ^ (4 * w) := by
  refine pat_eq_mod _ _ x.l0.msb.toNat ?_
  have e : x.dbl = ⟨(x.l0 <<< 1) ||| carryLimb w x.l1.msb, (x.l1 <<< 1) ||| carryLimb w x.l2.msb,
      (x.l2 <<< 1) ||| carryLimb w x.l3.msb, (x.l3 <<< 1) ||| carryLimb w false⟩ := by
    have z : x.l3 <<< 1 = (x.l3 <<< 1) ||| carryLimb w false := by simp [carryLimb]
    rw [← z]; rfl
  simp only [e, pat_base, patterns_base, toNat_shift_carry, Bool.toNat_false]
  have m3 := msb_carry x.l3 0 (by omega) hw
  have m2 := msb_carry x.l2 x.l3.msb.toNat (Bool.toNat_le _) hw
  have m1 := msb_carry x.l1 x.l2.msb.toNat (Bool.toNat_le _) hw
  have m0 := msb_carry x.l0 x.l1.msb.toNat (Bool.toNat_le _) hw
  have h3 := Nat.div_add_mod (2 * x.l3.toNat + 0) (2 ^ w)
  have h2 := Nat.div_add_mod (2 * x.l2.toNat + x.l3.msb.toNat) (2 ^ w)
  have h1 := Nat.div_add_mod (2 * x.l1.toNat + x.l2.msb.toNat) (2 ^ w)
  have h0 := Nat.div_add_mod (2 * x.l0.toNat + x.l1.msb.toNat) (2 ^ w)
  rw [m3] at h3
  rw [m2] at h2
  rw [m1] at h1
  rw [m0] at h0
  generalize 2 ^ w = B at *
  zify at *
  linear_combination -h3 - B * h2 - B ^ 2 * h1 - B ^ 3 * h0

/-! ### Partial products and the accumulator under FULL (R108, R110, R111) -/

/-- WMUL is exact (R108). -/
theorem wmul_exact (a b : BitVec w) :
    (wmul a b).1.toNat * 2 ^ w + (wmul a b).2.toNat = a.toNat * b.toNat := by
  have h : a.toNat * b.toNat / 2 ^ w < 2 ^ w :=
    Nat.div_lt_of_lt_mul (Nat.mul_lt_mul'' a.isLt b.isLt)
  simp only [wmul, BitVec.toNat_ofNat, Nat.mod_eq_of_lt h]
  have := Nat.div_add_mod (a.toNat * b.toNat) (2 ^ w)
  rw [Nat.mul_comm (2 ^ w)] at this
  exact this

/-- The pattern of T(i, j) is `U_i * V_j * 2^(W*(3-i-j))` modulo 2^N (R110). -/
theorem pat_partialProduct (u v : FixedPoint w) (i j : Nat) (h : i + j ≤ 3) :
    (partialProduct u v i j).pat ≡ (u.limb i).toNat * (v.limb j).toNat * (2 ^ w) ^ (3 - (i + j))
      [MOD 2 ^ (4 * w)] := by
  have hx := wmul_exact (u.limb i) (v.limb j)
  have z : (0 : BitVec w).toNat = 0 := BitVec.toNat_zero
  have hp : i + j = 0 ∨ i + j = 1 ∨ i + j = 2 ∨ i + j = 3 := by omega
  rw [← hx, patterns_base, pat_base]
  simp only [partialProduct, ofLimbs]
  generalize wmul (u.limb i) (v.limb j) = p at *
  rcases hp with hp | hp | hp | hp
  · simp only [hp]
    norm_num [z]
    rw [Nat.add_mul, Nat.mul_assoc, Nat.mul_comm (p.1.toNat), ← Nat.pow_succ', Nat.mul_comm]
    exact (Nat.ModEq.symm (by
      unfold Nat.ModEq
      rw [Nat.mul_comm ((2 ^ w) ^ Nat.succ 3), Nat.mul_add_mod_self_right]))
  all_goals
    simp only [hp]
    norm_num [z]
    exact congrArg (· % _) (by ring)

/-- The accumulator under FULL holds the sum of the kept products modulo 2^N (R111). -/
theorem pat_accumulate (u v : FixedPoint w) (pairs : List (Nat × Nat)) (acc : FixedPoint w)
    (h : ∀ ij ∈ pairs, ij.1 + ij.2 ≤ 3) :
    (accumulate .full u v pairs acc).pat ≡ acc.pat + (pairs.map fun ij =>
      (u.limb ij.1).toNat * (v.limb ij.2).toNat * (2 ^ w) ^ (3 - (ij.1 + ij.2))).sum [MOD 2 ^ (4 * w)] := by
  induction pairs generalizing acc with
  | nil => exact Nat.ModEq.refl _
  | cons ij rest ih =>
    refine (ih (add .full acc (partialProduct u v ij.1 ij.2)) fun k hk => h k (List.mem_cons_of_mem _ hk)).trans ?_
    rw [List.map_cons, List.sum_cons, ← Nat.add_assoc, add, pat_addFull]
    exact Nat.ModEq.add_right _ ((Nat.mod_modEq _ _).trans
      (Nat.ModEq.add_left _ (pat_partialProduct u v ij.1 ij.2 (h ij List.mem_cons_self))))

theorem pat_ulps (n : Nat) : (ulps n : FixedPoint w).pat = n % 2 ^ w := by
  simp [ulps, pat]

/-! ### Limb containers -/

/-- A value put in containers and read back is itself. -/
theorem ofContainer_toContainer (x : FixedPoint w) (h : w ≤ 64) : ofContainer w x.toContainer = x := by
  cases x
  simp [ofContainer, toContainer, h]

end Sys2Proof.FixedPoint

namespace Sys2Proof.Machine

theorem State.w_le (s : State) : s.w ≤ 64 := by
  rw [State.w]
  cases s.dev.width <;> decide

theorem State.w_pos (s : State) : 0 < s.w := by
  rw [State.w]
  cases s.dev.width <;> decide

/-- A register read after it is written gives the value written (R18). -/
theorem State.readF_writeF_same (s : State) (r : Reg) (x : FixedPoint s.w) : (s.writeF r x).readF r = x := by
  show FixedPoint.ofContainer s.w ((s.f.set r.toNat x.toContainer r.isLt)[r.toNat]'r.isLt) = x
  rw [Vector.getElem_set_self]
  exact FixedPoint.ofContainer_toContainer x s.w_le

/-- Writing one register leaves the others (R24). -/
theorem State.f_writeF_other (s : State) (r q : Reg) {w : Nat} (x : FixedPoint w) (h : q ≠ r) :
    (s.writeF r x).f[q.toNat]'q.isLt = s.f[q.toNat]'q.isLt := by
  have : r.toNat ≠ q.toNat := fun e => h (BitVec.eq_of_toNat_eq e.symm)
  exact Vector.getElem_set_ne r.isLt q.isLt this

/-- A command that writes one register with an N-bit pattern and completes leaves everything else (R24, R28). -/
theorem State.wroteOnly_advance (s : State) (r : Reg) (x : FixedPoint s.w) :
    s.WroteOnly (s.writeF r x).advance r where
  rest := rfl
  registers q h := s.f_writeF_other r q x h
  fits := by
    have e : (s.writeF r x).advance.readF r = x := s.readF_writeF_same r x
    have c : (s.writeF r x).advance.f[r.toNat]'r.isLt = x.toContainer := Vector.getElem_set_self _
    exact (congrArg FixedPoint.toContainer e).trans c.symm
  memory _ := rfl

end Sys2Proof.Machine
end

