-- ==== Sys2Proof/Laws/Memory.lean ====
section
/-! SUPPORT. What the memory operations do: read after write, everything else unchanged, and the canonical form
(spec/20_memory.md R47, R50, R51, R56). -/
namespace Sys2Proof.Machine

/-! ### Bytes -/

theorem Memory.lookup_store (m : List Host.Cell) (a : Nat) (v : Byte) (b : Nat) :
    Memory.lookup (Memory.store m a v) b = if b = a then some v else Memory.lookup m b := by
  induction m with
  | nil => simp [Memory.store, Memory.lookup]
  | cons c rest ih =>
    obtain ⟨k, u⟩ := c
    simp only [Memory.store]
    split
    · simp [Memory.lookup]
    · split
      · subst_vars
        simp only [Memory.lookup]
        split <;> rfl
      · simp only [Memory.lookup, ih]
        split <;> split <;> simp_all

@[simp] theorem State.byteAt_setByte (s : State) (a : Nat) (v : Byte) (b : Nat) :
    (s.setByte a v).byteAt b = if b = a then v else s.byteAt b := by
  simp only [State.byteAt, State.setByte_mem, Memory.lookup_store, State.unlistedByte, State.setByte_resets]
  split <;> rfl

/-- Every byte after a little-endian write: the bytes of v in the n addresses from a, all others as before (R50). -/
theorem State.byteAt_memWrite (s : State) (a n v b : Nat) :
    (s.memWrite a n v).byteAt b
      = if a ≤ b ∧ b < a + n then BitVec.ofNat 8 (v / 256 ^ (b - a)) else s.byteAt b := by
  induction n generalizing s a v with
  | zero => rw [if_neg (by omega)]; rfl
  | succ n ih =>
    rw [State.memWrite, ih, State.byteAt_setByte]
    by_cases h : a = b
    · subst h; simp
    · by_cases h1 : a + 1 ≤ b ∧ b < a + 1 + n
      · rw [if_pos h1, if_pos (by omega), Nat.div_div_eq_div_mul,
          show 256 * 256 ^ (b - (a + 1)) = 256 ^ (b - a) by
            rw [← Nat.pow_succ']; congr 1; omega]
      · rw [if_neg h1, if_neg (by omega), if_neg (by omega)]

theorem State.byteAt_memWrite_outside (s : State) (a n v b : Nat) (h : b < a ∨ a + n ≤ b) :
    (s.memWrite a n v).byteAt b = s.byteAt b := by
  rw [State.byteAt_memWrite, if_neg (by omega)]

theorem State.byteAt_writeBytes_outside (s : State) (a : Nat) (bs : List Byte) (b : Nat)
    (h : b < a ∨ a + bs.length ≤ b) : (s.writeBytes a bs).byteAt b = s.byteAt b := by
  induction bs generalizing s a with
  | nil => rfl
  | cons c cs ih =>
    simp only [List.length_cons] at h
    rw [State.writeBytes, ih _ _ (by omega), State.byteAt_setByte, if_neg (by omega)]

theorem State.byteAt_writeBytes (s : State) (a : Nat) (bs : List Byte) (i : Nat) (h : i < bs.length) :
    (s.writeBytes a bs).byteAt (a + i) = bs[i] := by
  induction bs generalizing s a i with
  | nil => exact absurd h (by simp)
  | cons c cs ih =>
    rw [State.writeBytes]
    cases i with
    | zero =>
      rw [State.byteAt_writeBytes_outside _ _ _ _ (by omega), State.byteAt_setByte, if_pos (by omega)]; rfl
    | succ i =>
      have := ih (s.setByte a c) (a + 1) i (by simpa using h)
      rw [show a + (i + 1) = a + 1 + i by omega, this]; rfl

/-! ### Little-endian reads -/

theorem State.memRead_lt (s : State) (a n : Nat) : s.memRead a n < 256 ^ n := by
  induction n generalizing a with
  | zero => simp [State.memRead]
  | succ n ih =>
    have := ih (a + 1)
    have := (s.byteAt a).isLt
    rw [State.memRead, Nat.pow_succ]; omega

/-- A read depends on the bytes read only. -/
theorem State.memRead_congr (s t : State) (a n : Nat) (h : ∀ b, a ≤ b → b < a + n → s.byteAt b = t.byteAt b) :
    s.memRead a n = t.memRead a n := by
  induction n generalizing a with
  | zero => rfl
  | succ n ih =>
    rw [State.memRead, State.memRead, h a (by omega) (by omega),
      ih (a + 1) fun b h1 h2 => h b (by omega) (by omega)]

theorem State.memRead_byte (s : State) (a n k : Nat) (h : k < n) :
    s.memRead a n / 256 ^ k % 256 = (s.byteAt (a + k)).toNat := by
  induction n generalizing a k with
  | zero => omega
  | succ n ih =>
    have hb := (s.byteAt a).isLt
    rw [State.memRead]
    cases k with
    | zero => simp; omega
    | succ k =>
      rw [Nat.pow_succ', ← Nat.div_div_eq_div_mul,
        show ((s.byteAt a).toNat + 256 * s.memRead (a + 1) n) / 256 = s.memRead (a + 1) n by omega,
        ih (a + 1) k (by omega), show a + 1 + k = a + (k + 1) by omega]

/-- A read after a write to the same place gives the value written. -/
theorem State.memRead_memWrite (s : State) (a n v : Nat) : (s.memWrite a n v).memRead a n = v % 256 ^ n := by
  induction n generalizing s a v with
  | zero => simp [State.memRead, Nat.mod_one]
  | succ n ih =>
    rw [State.memRead, State.memWrite, ih, State.byteAt_memWrite_outside _ _ _ _ _ (by omega),
      State.byteAt_setByte, if_pos rfl, Nat.pow_succ', Nat.mod_mul, BitVec.toNat_ofNat]

theorem State.memRead_memWrite_outside (s : State) (a n v b m : Nat) (h : b + m ≤ a ∨ a + n ≤ b) :
    (s.memWrite a n v).memRead b m = s.memRead b m :=
  State.memRead_congr _ _ _ _ fun c h1 h2 => s.byteAt_memWrite_outside a n v c (by omega)

/-! ### FixedPoint values (R51) -/

theorem State.loadFP_congr (s t : State) (w a : Nat)
    (h : ∀ b, a ≤ b → b < a + 4 * FixedPoint.limbBytes w → s.byteAt b = t.byteAt b) :
    s.loadFP w a = t.loadFP w a := by
  have limb : ∀ i, i ≤ 3 → s.memRead (a + i * FixedPoint.limbBytes w) (FixedPoint.limbBytes w)
      = t.memRead (a + i * FixedPoint.limbBytes w) (FixedPoint.limbBytes w) := fun i hi => by
    refine State.memRead_congr _ _ _ _ fun b h1 h2 => h b (by omega) (lt_of_lt_of_le h2 ?_)
    have := Nat.mul_le_mul_right (FixedPoint.limbBytes w) hi
    omega
  simp only [State.loadFP, FixedPoint.ofLimbs]
  rw [limb 0 (by omega), limb 1 (by omega), limb 2 (by omega), limb 3 (by omega)]

theorem State.byteAt_storeFP_outside (s : State) (a : Nat) {w : Nat} (x : FixedPoint w) (b : Nat)
    (h : b < a ∨ a + 4 * FixedPoint.limbBytes w ≤ b) : (s.storeFP a x).byteAt b = s.byteAt b := by
  simp only [State.storeFP, List.foldl]
  iterate 4 rw [State.byteAt_memWrite_outside _ _ _ _ _ (by omega)]

/-- Limb i of a stored value, read back from memory. -/
theorem State.memRead_storeFP (s : State) (a : Nat) {w : Nat} (x : FixedPoint w) (i : Nat) (hi : i ≤ 3) :
    (s.storeFP a x).memRead (a + i * FixedPoint.limbBytes w) (FixedPoint.limbBytes w)
      = (x.limb i).toNat % 256 ^ FixedPoint.limbBytes w := by
  have : i = 0 ∨ i = 1 ∨ i = 2 ∨ i = 3 := by omega
  simp only [State.storeFP, List.foldl]
  rcases this with rfl | rfl | rfl | rfl
  · rw [State.memRead_memWrite_outside _ _ _ _ _ _ (by omega),
      State.memRead_memWrite_outside _ _ _ _ _ _ (by omega),
      State.memRead_memWrite_outside _ _ _ _ _ _ (by omega), State.memRead_memWrite]
  · rw [State.memRead_memWrite_outside _ _ _ _ _ _ (by omega),
      State.memRead_memWrite_outside _ _ _ _ _ _ (by omega), State.memRead_memWrite]
  · rw [State.memRead_memWrite_outside _ _ _ _ _ _ (by omega), State.memRead_memWrite]
  · rw [State.memRead_memWrite]

/-- A value stored with 8 * LB = W bits per limb and loaded again is the same value. -/
theorem State.loadFP_storeFP (s : State) (a : Nat) {w : Nat} (x : FixedPoint w)
    (hw : 256 ^ FixedPoint.limbBytes w = 2 ^ w) : (s.storeFP a x).loadFP w a = x := by
  have limb : ∀ i, i ≤ 3 → BitVec.ofNat w ((s.storeFP a x).memRead (a + i * FixedPoint.limbBytes w)
      (FixedPoint.limbBytes w)) = x.limb i := fun i hi => by
    rw [State.memRead_storeFP s a x i hi, hw, Nat.mod_eq_of_lt (x.limb i).isLt, BitVec.ofNat_toNat,
      BitVec.setWidth_eq]
  simp only [State.loadFP, FixedPoint.ofLimbs]
  rw [limb 0 (by omega), limb 1 (by omega), limb 2 (by omega), limb 3 (by omega)]
  rfl

/-! ### The canonical form -/

theorem Memory.wf_iff (size : Nat) (m : List Host.Cell) :
    Memory.wf size m = true ↔ (m.map Prod.fst).Pairwise (· < ·) ∧ ∀ c ∈ m, c.1 < size := by
  induction m with
  | nil => simp [Memory.wf]
  | cons c rest ih =>
    obtain ⟨a, u⟩ := c
    cases rest with
    | nil => simp [Memory.wf]
    | cons d rest =>
      obtain ⟨b, v⟩ := d
      rw [Memory.wf, Bool.and_eq_true, decide_eq_true_eq, ih]
      simp only [List.map_cons, List.pairwise_cons, List.mem_cons, forall_eq_or_imp]
      constructor
      · rintro ⟨hab, ⟨hb, hp⟩, hbs, hr⟩
        exact ⟨⟨⟨hab, fun k hk => lt_trans hab (hb k hk)⟩, hb, hp⟩, lt_trans hab hbs, hbs, hr⟩
      · rintro ⟨⟨⟨hab, -⟩, hb, hp⟩, -, hbs, hr⟩
        exact ⟨hab, ⟨hb, hp⟩, hbs, hr⟩

theorem Memory.store_fst (m : List Host.Cell) (a : Nat) (v : Byte) (c : Host.Cell)
    (h : c ∈ Memory.store m a v) : c = (a, v) ∨ c ∈ m := by
  induction m with
  | nil => simp_all [Memory.store]
  | cons d rest ih =>
    obtain ⟨b, u⟩ := d
    simp only [Memory.store] at h
    split at h
    · simpa using h
    · split at h
      · rcases List.mem_cons.1 h with h | h
        · exact .inl h
        · exact .inr (List.mem_cons_of_mem _ h)
      · rcases List.mem_cons.1 h with h | h
        · exact .inr (h ▸ List.mem_cons_self)
        · exact (ih h).imp id (List.mem_cons_of_mem _)

theorem Memory.wf_store (size : Nat) (m : List Host.Cell) (a : Nat) (v : Byte)
    (hm : Memory.wf size m = true) (ha : a < size) : Memory.wf size (Memory.store m a v) = true := by
  rw [Memory.wf_iff] at hm ⊢
  refine ⟨?_, fun c hc => ?_⟩
  · obtain ⟨hp, -⟩ := hm
    induction m with
    | nil => simp [Memory.store]
    | cons d rest ih =>
      obtain ⟨b, u⟩ := d
      simp only [List.map_cons, List.pairwise_cons] at hp
      simp only [Memory.store]
      split
      · rename_i hab
        simp only [List.map_cons, List.pairwise_cons, List.mem_cons, forall_eq_or_imp]
        exact ⟨⟨hab, fun k hk => lt_trans hab (hp.1 k hk)⟩, hp⟩
      · split
        · subst_vars; simpa using hp
        · rename_i h1 h2
          simp only [List.map_cons, List.pairwise_cons]
          refine ⟨fun k hk => ?_, ih hp.2⟩
          obtain ⟨c, hc, rfl⟩ := List.mem_map.1 hk
          rcases Memory.store_fst rest a v c hc with rfl | hc
          · show b < a
            omega
          · exact hp.1 _ (List.mem_map_of_mem hc)
  · rcases Memory.store_fst m a v c hc with rfl | hc
    · exact ha
    · exact hm.2 c hc

theorem Memory.lookup_of_lt (m : List Host.Cell) (a : Nat) (h : ∀ k ∈ m.map Prod.fst, a < k) :
    Memory.lookup m a = none := by
  induction m with
  | nil => rfl
  | cons d rest ih =>
    obtain ⟨b, u⟩ := d
    have := h b (by simp)
    rw [Memory.lookup, if_neg (by omega), ih fun k hk => h k (by simp_all)]

/-- Canonical memories that hold the same written bytes are the same list. -/
theorem Memory.ext (size : Nat) (m n : List Host.Cell) (hm : Memory.wf size m = true)
    (hn : Memory.wf size n = true) (h : ∀ a, Memory.lookup m a = Memory.lookup n a) : m = n := by
  rw [Memory.wf_iff] at hm hn
  obtain ⟨hm, -⟩ := hm
  obtain ⟨hn, -⟩ := hn
  induction m generalizing n with
  | nil =>
    cases n with
    | nil => rfl
    | cons d rest => simpa [Memory.lookup] using h d.1
  | cons c m ih =>
    obtain ⟨a, u⟩ := c
    cases n with
    | nil => simpa [Memory.lookup] using h a
    | cons d n =>
      obtain ⟨b, v⟩ := d
      simp only [List.map_cons, List.pairwise_cons] at hm hn
      have hab : a = b := by
        rcases lt_trichotomy a b with hlt | heq | hgt
        · have := h a
          rw [Memory.lookup, if_pos rfl, Memory.lookup, if_neg (by omega),
            Memory.lookup_of_lt n a fun k hk => lt_trans hlt (hn.1 k hk)] at this
          cases this
        · exact heq
        · have := h b
          rw [Memory.lookup, if_neg (by omega), Memory.lookup_of_lt m b fun k hk => lt_trans hgt (hm.1 k hk),
            Memory.lookup, if_pos rfl] at this
          cases this
      subst hab
      have huv : u = v := by simpa [Memory.lookup] using h a
      subst huv
      congr 1
      refine ih n (fun k => ?_) hm.2 hn.2
      by_cases hk : k = a
      · subst hk
        rw [Memory.lookup_of_lt m k hm.1, Memory.lookup_of_lt n k hn.1]
      · simpa [Memory.lookup, hk] using h k

/-- A little-endian write inside device memory keeps the canonical form. -/
theorem State.memWrite_wf (s : State) (size a n v : Nat) (hs : Memory.wf size s.mem = true) (ha : a + n ≤ size) :
    Memory.wf size (s.memWrite a n v).mem = true := by
  induction n generalizing s a v with
  | zero => exact hs
  | succ n ih => exact ih _ _ _ (Memory.wf_store _ _ _ _ hs (by omega)) (by omega)

theorem State.writeBytes_wf (s : State) (size a : Nat) (bs : List Byte) (hs : Memory.wf size s.mem = true)
    (ha : a + bs.length ≤ size) : Memory.wf size (s.writeBytes a bs).mem = true := by
  induction bs generalizing s a with
  | nil => exact hs
  | cons c cs ih =>
    simp only [List.length_cons] at ha
    exact ih _ _ (Memory.wf_store _ _ _ _ hs (by omega)) (by omega)

theorem State.storeFP_wf (s : State) (size a : Nat) {w : Nat} (x : FixedPoint w)
    (hs : Memory.wf size s.mem = true) (ha : a + 4 * FixedPoint.limbBytes w ≤ size) :
    Memory.wf size (s.storeFP a x).mem = true := by
  simp only [State.storeFP, List.foldl]
  iterate 4 refine State.memWrite_wf _ _ _ _ _ ?_ (by omega)
  exact hs

theorem State.reset_memory_wf : Memory.wf State.reset.memSize State.reset.mem = true := rfl

end Sys2Proof.Machine
end

