-- ==== Sys2Proof/Laws/PerInstr.lean ====
section
/-! SUPPORT. Statements about every instruction as syntax, one lemma per constructor.
Family `EncodingWellFormed`: the words of an instruction are selected by a row of the match and mask list of
spec/30_encoding.md R75 (its opcode is in the map, its unused fields, its reserved field and a ZERO word1 are 0). -/
namespace Sys2Proof.Laws.EncodingWellFormed

/-- The instruction's two words are a well-formed command. -/
def Statement (i : Instr) : Prop := wellFormed i.word0 i.word1 = true

/-- One row that selects the words is enough. -/
theorem of_row {i : Instr} (r : MatchRow) (hr : r ∈ matchRows) (h0 : i.word0 &&& r.mask = r.value)
    (h1 : r.word1Zero = true → i.word1 = 0) : Statement i := by
  refine List.any_eq_true.2 ⟨r, hr, ?_⟩
  rw [MatchRow.selects, h0]
  cases hz : r.word1Zero with
  | false => simp
  | true => simp [h1 hz]

theorem nop : Statement .nop := show wellFormed _ _ = true by decide
theorem halt : Statement .halt := show wellFormed _ _ = true by decide

theorem ldf (rd : Reg) (addr : Word) : Statement (.ldf rd addr) :=
  of_row ⟨"LDF", 0x10000000, 0xFF0FFFFF, false⟩ (by decide)
    (by have h : ∀ r : Reg, packWord0 0x10 r 0 0 0 &&& 0xFF0FFFFF = 0x10000000 := by decide
        exact h rd) (by simp)

theorem stf (ra : Reg) (addr : Word) : Statement (.stf ra addr) :=
  of_row ⟨"STF", 0x11000000, 0xFFF0FFFF, false⟩ (by decide)
    (by have h : ∀ r : Reg, packWord0 0x11 0 r 0 0 &&& 0xFFF0FFFF = 0x11000000 := by decide
        exact h ra) (by simp)

theorem ldi (rd : Reg) (imm : Word) : Statement (.ldi rd imm) :=
  of_row ⟨"LDI", 0x12000000, 0xFF0FFFFF, false⟩ (by decide)
    (by have h : ∀ r : Reg, packWord0 0x12 r 0 0 0 &&& 0xFF0FFFFF = 0x12000000 := by decide
        exact h rd) (by simp)

theorem mov (rd ra : Reg) : Statement (.mov rd ra) :=
  of_row ⟨"MOV", 0x13000000, 0xFF00FFFF, true⟩ (by decide)
    (by have h : ∀ r q : Reg, packWord0 0x13 r q 0 0 &&& 0xFF00FFFF = 0x13000000 := by decide
        exact h rd ra) fun _ => rfl

theorem inc (rd ra : Reg) : Statement (.inc rd ra) :=
  of_row ⟨"INC", 0x20000000, 0xFF00FFFF, true⟩ (by decide)
    (by have h : ∀ r q : Reg, packWord0 0x20 r q 0 0 &&& 0xFF00FFFF = 0x20000000 := by decide
        exact h rd ra) fun _ => rfl

theorem neg (rd ra : Reg) : Statement (.neg rd ra) :=
  of_row ⟨"NEG", 0x21000000, 0xFF00FFFF, true⟩ (by decide)
    (by have h : ∀ r q : Reg, packWord0 0x21 r q 0 0 &&& 0xFF00FFFF = 0x21000000 := by decide
        exact h rd ra) fun _ => rfl

theorem dbl (rd ra : Reg) : Statement (.dbl rd ra) :=
  of_row ⟨"DBL", 0x22000000, 0xFF00FFFF, true⟩ (by decide)
    (by have h : ∀ r q : Reg, packWord0 0x22 r q 0 0 &&& 0xFF00FFFF = 0x22000000 := by decide
        exact h rd ra) fun _ => rfl

theorem add (rd ra rb : Reg) : Statement (.add rd ra rb) :=
  of_row ⟨"ADD", 0x30000000, 0xFF000FFF, true⟩ (by decide)
    (by have h : ∀ r q p : Reg, packWord0 0x30 r q p 0 &&& 0xFF000FFF = 0x30000000 := by decide +kernel
        exact h rd ra rb) fun _ => rfl

theorem mul (rd ra rb : Reg) : Statement (.mul rd ra rb) :=
  of_row ⟨"MUL", 0x40000000, 0xFF000FFF, true⟩ (by decide)
    (by have h : ∀ r q p : Reg, packWord0 0x40 r q p 0 &&& 0xFF000FFF = 0x40000000 := by decide +kernel
        exact h rd ra rb) fun _ => rfl

theorem sqr (rd ra : Reg) : Statement (.sqr rd ra) :=
  of_row ⟨"SQR", 0x41000000, 0xFF00FFFF, true⟩ (by decide)
    (by have h : ∀ r q : Reg, packWord0 0x41 r q 0 0 &&& 0xFF00FFFF = 0x41000000 := by decide
        exact h rd ra) fun _ => rfl

theorem parse (rd : Reg) (addr : Word) : Statement (.parse rd addr) :=
  of_row ⟨"PARSE", 0x50000000, 0xFF0FFFFF, false⟩ (by decide)
    (by have h : ∀ r : Reg, packWord0 0x50 r 0 0 0 &&& 0xFF0FFFFF = 0x50000000 := by decide
        exact h rd) (by simp)

theorem fmt (ra : Reg) (addr : Word) : Statement (.fmt ra addr) :=
  of_row ⟨"FMT", 0x51000000, 0xFFF0FFFF, false⟩ (by decide)
    (by have h : ∀ r : Reg, packWord0 0x51 0 r 0 0 &&& 0xFFF0FFFF = 0x51000000 := by decide
        exact h ra) (by simp)

theorem escape (ra rb rc : Reg) (desc : Word) : Statement (.escape ra rb rc desc) :=
  of_row ⟨"ESCAPE", 0x60000000, 0xFFF000FF, false⟩ (by decide)
    (by have h : ∀ r q p : Reg, packWord0 0x60 0 r q p &&& 0xFFF000FF = 0x60000000 := by decide +kernel
        exact h ra rb rc) (by simp)

end Sys2Proof.Laws.EncodingWellFormed
end

