-- ==== Sys2Proof/Laws/Steps.lean ====
section
/-! SUPPORT. Said once: everything a command can do to the state, and everything a step can do. Invariants are derived
from these, and not from the meanings (spec/45_system_and_transfer.md R131; spec/60_exceptions.md R141). -/
namespace Sys2Proof.Machine

/-! ### Operand checks -/

/-- An address that passes the two checks of a FixedPoint access is aligned and in range (R136, R137). -/
theorem State.valueAddrFault_none (s : State) (a : Word) :
    s.valueAddrFault a = none ↔ a.toNat % s.limbBytes = 0 ∧ a.toNat + s.valueBytes ≤ s.memSize := by
  rw [State.valueAddrFault, State.inRange]
  split <;> rename_i h
  · simp [h]
  · split <;> rename_i h' <;> simp_all

theorem State.valueBytes_eq (s : State) : s.valueBytes = 4 * s.limbBytes := by
  simp only [State.valueBytes, State.limbBytes, FixedPoint.valueBytes, FixedPoint.limbBytes, State.w]
  cases s.dev.width <;> rfl

/-- The checks of ESCAPE passed: what R121 then gives. -/
structure EscapeReady (s : State) (d : Word) {w : Nat} (sn : Snapshot w) : Prop where
  descAligned  : d.toNat % 4 = 0
  descInRange  : d.toNat + 24 ≤ s.memSize
  flags        : sn.flags >>> 1 = 0
  palette      : sn.raw = true ∨ sn.palsize ≠ 0
  pixels       : sn.npix ≠ 0
  tableAligned : sn.table.toNat % s.limbBytes = 0
  outAligned   : sn.out.toNat % 4 = 0
  tableInRange : sn.table.toNat + s.tableBytes sn.npix ≤ s.memSize
  outInRange   : sn.out.toNat + 4 * sn.npix ≤ s.memSize
  disjoint     : sn.table.toNat + s.tableBytes sn.npix ≤ sn.out.toNat ∨ sn.out.toNat + 4 * sn.npix ≤ sn.table.toNat

theorem State.escapeVerdict_render (s : State) (ra rb rc : Reg) (d : Word)
    (h : s.escapeVerdict ra rb rc d = .render) : EscapeReady s d (s.snapshot ra rb rc d) := by
  rw [State.escapeVerdict] at h
  split at h
  · cases h
  rename_i h1
  split at h
  · cases h
  rename_i h2
  generalize s.snapshot ra rb rc d = sn at *
  rw [State.snapshotVerdict] at h
  repeat' (split at h; · cases h)
  rename_i h3 h4 h5 h6 h7 h8 h9 h10
  simp only [State.inRange, decide_eq_false_iff_not, not_not] at h2 h8 h9
  exact ⟨by omega, h2, by simpa using h3, by
    by_cases hr : sn.raw = true
    · exact .inl hr
    · exact .inr fun hp => h4 ⟨by simpa using hr, hp⟩, h5, by omega, by omega, h8, h9, by omega⟩

/-! ### What a command does -/

/-- Everything a command can do to the state. -/
inductive Effect (i : Instr) (s : State) : State → Prop where
  /-- It writes one register and completes. -/
  | register (rd : Reg) (x : FixedPoint s.w) : Effect i s (s.writeF rd x).advance
  /-- It writes memory, or nothing, and completes; memory keeps its canonical form. -/
  | memory (t : State) (same : s.SameButMem t)
      (wf : Memory.wf s.memSize s.mem = true → Memory.wf s.memSize t.mem = true) : Effect i s t.advance
  /-- It is HALT. -/
  | halt : Effect i s s.endRun
  /-- It faults. -/
  | fault (c : Cause) (addr : Word) (raised : c ≠ .none ∧ c ≠ .illegal) : Effect i s (s.faultIn i c addr)

theorem Effect.next_of_eq {i : Instr} {s t : State} {o : Host.Outcome State Fault Refusal} (h : o = .next t)
    (e : Effect i s t) : ∃ t, o = .next t ∧ Effect i s t := ⟨t, h, e⟩

theorem State.snapshotVerdict_cause (s : State) {w : Nat} (d : Word) (sn : Snapshot w) (c : Cause) (addr : Word)
    (h : s.snapshotVerdict d sn = .fault c addr) : c ≠ .none ∧ c ≠ .illegal := by
  rw [State.snapshotVerdict] at h
  repeat' (split at h; · cases h <;> decide)
  cases h

theorem State.escapeVerdict_cause (s : State) (ra rb rc : Reg) (d : Word) (c : Cause) (addr : Word)
    (h : s.escapeVerdict ra rb rc d = .fault c addr) : c ≠ .none ∧ c ≠ .illegal := by
  rw [State.escapeVerdict] at h
  repeat' (split at h; · cases h; decide)
  exact s.snapshotVerdict_cause d _ c addr h

theorem State.parseAt_cause (s : State) (a : Word) (c : Cause) (addr : Word)
    (h : s.parseAt a = .inr (c, addr)) : c ≠ .none ∧ c ≠ .illegal := by
  rw [State.parseAt] at h
  repeat' (split at h)
  all_goals cases h
  all_goals decide

theorem State.valueAddrFault_cause (s : State) (a : Word) (c : Cause) (h : s.valueAddrFault a = some c) :
    c ≠ .none ∧ c ≠ .illegal := by
  rw [State.valueAddrFault] at h
  repeat' (split at h)
  all_goals cases h
  all_goals decide

theorem State.renderInOrder_wf {w : Nat} (sn : Snapshot w) (s : State) (size : Nat) (order : List Nat)
    (hs : Memory.wf size s.mem = true) (h : ∀ k ∈ order, sn.out.toNat + 4 * k + 4 ≤ size) :
    Memory.wf size (State.renderInOrder sn s order).mem = true := by
  induction order generalizing s with
  | nil => exact hs
  | cons k ks ih =>
    exact ih _ (State.memWrite_wf _ _ _ _ _ hs (h k List.mem_cons_self))
      fun j hj => h j (List.mem_cons_of_mem _ hj)

/-- Every command answers a next state, and one of the four effects. -/
theorem exec_effect (i : Instr) (s : State) : ∃ t, exec i s = .next t ∧ Effect i s t := by
  cases i with
  | nop => exact ⟨_, rfl, .memory s (.refl s) id⟩
  | halt => exact ⟨_, rfl, .halt⟩
  | ldi rd imm => exact ⟨_, rfl, .register rd _⟩
  | mov rd ra => exact ⟨_, rfl, .register rd _⟩
  | inc rd ra => exact ⟨_, rfl, .register rd _⟩
  | neg rd ra => exact ⟨_, rfl, .register rd _⟩
  | dbl rd ra => exact ⟨_, rfl, .register rd _⟩
  | add rd ra rb => exact ⟨_, rfl, .register rd _⟩
  | mul rd ra rb => exact ⟨_, rfl, .register rd _⟩
  | sqr rd ra => exact ⟨_, rfl, .register rd _⟩
  | ldf rd a =>
    refine ⟨_, rfl, ?_⟩
    split
    · rename_i c h
      exact .fault c a (s.valueAddrFault_cause a c h)
    · exact .register rd _
  | stf ra a =>
    refine ⟨_, rfl, ?_⟩
    split
    · rename_i c h
      exact .fault c a (s.valueAddrFault_cause a c h)
    · rename_i h
      refine .memory _ (s.storeFP_same _ _) fun hs => s.storeFP_wf _ _ _ hs ?_
      have := (s.valueAddrFault_none a).1 h
      have e := s.valueBytes_eq
      simp only [State.limbBytes] at e
      omega
  | parse rd a =>
    refine ⟨_, rfl, ?_⟩
    split
    · exact .register rd _
    · rename_i c addr h
      exact .fault c addr (s.parseAt_cause a c addr h)
  | fmt ra a =>
    refine ⟨_, rfl, ?_⟩
    show Effect _ s (if s.inRange a.toNat ((Codec.formatText (s.readF ra)).length + 1) = false then _ else _)
    split
    · exact .fault .bus a (by decide)
    · rename_i h
      refine .memory _ (s.writeBytes_same _ _) fun hs => s.writeBytes_wf _ _ _ hs ?_
      simp only [State.inRange, decide_eq_false_iff_not, not_not] at h
      simpa using h
  | escape ra rb rc d =>
    refine ⟨_, rfl, ?_⟩
    split
    · rename_i c addr h
      exact .fault c addr (s.escapeVerdict_cause ra rb rc d c addr h)
    · exact .memory s (.refl s) id
    · rename_i h
      have ready := s.escapeVerdict_render ra rb rc d h
      refine .memory _ (State.renderInOrder_same _ s _) fun hs =>
        State.renderInOrder_wf _ s _ _ hs fun k hk => ?_
      have := ready.outInRange
      have := List.mem_range.1 hk
      omega

/-! ### What a step does -/

/-- While a run is in progress and the outside world makes no move, a step is one of three: a fetch fault, an ILLEGAL, or
the decoded command (R73, R74, R131). -/
theorem step_busy (s : State) (hb : s.busy = true) (hh : s.host = []) :
    (∃ c, s.fetchFault = some c ∧ step s = .next (s.takeFault c s.cp 0 0)) ∨
    (∃ e, s.fetchFault = none ∧ decodeWords s.fetch0 s.fetch1 = .illegal e ∧
      step s = .next (s.takeFault .illegal s.cp s.fetch0 s.fetch1)) ∨
    (∃ i, s.fetchFault = none ∧ decodeWords s.fetch0 s.fetch1 = .command i ∧ step s = exec i s) := by
  have e : step s = commandCycle s := by
    rw [step, machineMove, hh]
    simp only [deviceMove, hb, if_true]
  rw [e, commandCycle]
  cases hf : s.fetchFault with
  | some c => exact .inl ⟨c, rfl, rfl⟩
  | none =>
    cases hd : decodeWords s.fetch0 s.fetch1 with
    | illegal x => exact .inr (.inl ⟨x, rfl, rfl, rfl⟩)
    | command i => exact .inr (.inr ⟨i, rfl, rfl, rfl⟩)

/-- The fetch goes through exactly when CP is a multiple of 8 and the 8 bytes are in range (R73). -/
theorem State.fetchFault_none (s : State) :
    s.fetchFault = none ↔ s.cp.toNat % 8 = 0 ∧ s.cp.toNat + 8 ≤ s.memSize := by
  rw [State.fetchFault, State.inRange]
  split <;> rename_i h
  · simp [h]
  · split <;> rename_i h' <;> simp_all

end Sys2Proof.Machine
end

