-- ==== Sys2Proof/Tests/Slice0.lean ====
section
/-! SUPPORT. Tests: the well-formedness checks, one word written out from the spec's encoding for every command, at most
two small steps for each command with results from spec/95_test_vectors.md, and a witness for the hypotheses of every
statement that has some. -/
namespace Sys2Proof.Tests
open Sys2Proof.Machine

/-! ### Small states -/

/-- A 32-bit value by its limbs, as 95_test_vectors.md writes it. -/
abbrev fp (a b c d : BitVec 32) : FixedPoint 32 := ⟨a, b, c, d⟩

/-- The all-ones limb. -/
abbrev ones : BitVec 32 := 0xFFFFFFFF

/-- A device with a run in progress at CP = 0. -/
def running (d : Device) : State := { State.resetOf d 0 with busy := true }

/-- W = 32, FULL, EXACT, MEM_SIZE = 0x10000: the device of 95_test_vectors.md. -/
def s32 : State := running Config.defaultDevice

/-- The same with CARRY_MODE = TWO_PASS. -/
def s32two : State := running { Config.defaultDevice with carryMode := .twoPass }

/-- The same with W = 64. -/
def s64 : State := running { Config.defaultDevice with width := .w64 }

/-- A check on the next state; false where there is none. -/
def after (o : Host.Outcome State Fault Refusal) (p : State → Bool) : Bool :=
  match o with
  | .next t => p t
  | _ => false

/-- The register holds these limbs and CP has advanced from 0 to 8. -/
def gives (r : Reg) (x : FixedPoint 64) (t : State) : Bool := t.f[r.toNat]'r.isLt == x && t.cp == 8

/-- The fault record, FAULT set and the run over. -/
def faulted (c : Cause) (addr w0 w1 : Word) (t : State) : Bool :=
  t.fcause == c && t.faddr == addr && t.fcmd0 == w0 && t.fcmd1 == w1 && t.fault && !t.busy

/-- ASCII text as bytes. -/
def ascii (s : String) : List Byte := s.toList.map fun c => BitVec.ofNat 8 c.toNat

/-- Words stored one after the other. -/
def withWords (s : State) (a : Nat) : List Nat → State
  | [] => s
  | w :: ws => withWords (s.memWrite a 4 w) (a + 4) ws

/-- `s` with a NUL-terminated text at an address. -/
def withText (s : State) (a : Nat) (t : String) : State := s.writeBytes a (ascii t ++ [0])

/-! ### Well-formedness: an ill-formed pair of words for each check of R74, refused by name (section 2.6) -/

theorem test_refuse_reserved_opcode : wellFormed 0x02000000 0 = false ∧
    decodeWords 0x02000000 0 = .illegal .reservedOpcode := by decide
theorem test_refuse_reserved_field : wellFormed 0x30123001 0 = false ∧
    decodeWords 0x30123001 0 = .illegal .reservedField := by decide
theorem test_refuse_unused_rd : wellFormed 0x11110000 0 = false ∧
    decodeWords 0x11110000 0 = .illegal .unusedField := by decide
theorem test_refuse_unused_ra : wellFormed 0x10110000 0 = false ∧
    decodeWords 0x10110000 0 = .illegal .unusedField := by decide
theorem test_refuse_unused_rb : wellFormed 0x13101000 0 = false ∧
    decodeWords 0x13101000 0 = .illegal .unusedField := by decide
theorem test_refuse_unused_rc : wellFormed 0x30123100 0 = false ∧
    decodeWords 0x30123100 0 = .illegal .unusedField := by decide
theorem test_refuse_word1 : wellFormed 0 1 = false ∧ decodeWords 0 1 = .illegal .word1NotZero := by decide
theorem test_refuse_short : decode [0, 0, 0, 0, 0, 0, 0] = (.illegal .truncated, [0, 0, 0, 0, 0, 0, 0]) := by decide

/-! ### Decoding: one word per command, op 31..24, rd 23..20, ra 19..16, rb 15..12, rc 11..8, rsv 7..0 (R71, R75) -/

theorem test_decode_nop : decodeWords 0b00000000000000000000000000000000 0 = .command .nop := by decide
theorem test_decode_halt : decodeWords 0b00000001000000000000000000000000 0 = .command .halt := by decide
theorem test_decode_ldf : decodeWords 0b00010000001000000000000000000000 0x100 = .command (.ldf 2 0x100) := by decide
theorem test_decode_stf : decodeWords 0b00010001000001010000000000000000 0x110 = .command (.stf 5 0x110) := by decide
theorem test_decode_ldi : decodeWords 0b00010010001100000000000000000000 0xFFFFFFFE
    = .command (.ldi 3 0xFFFFFFFE) := by decide
theorem test_decode_mov : decodeWords 0b00010011011001010000000000000000 0 = .command (.mov 6 5) := by decide
theorem test_decode_inc : decodeWords 0b00100000111100010000000000000000 0 = .command (.inc 15 1) := by decide
theorem test_decode_neg : decodeWords 0b00100001010000100000000000000000 0 = .command (.neg 4 2) := by decide
theorem test_decode_dbl : decodeWords 0b00100010011100100000000000000000 0 = .command (.dbl 7 2) := by decide
theorem test_decode_add : decodeWords 0b00110000000100100011000000000000 0 = .command (.add 1 2 3) := by decide
theorem test_decode_mul : decodeWords 0b01000000010001000101000000000000 0 = .command (.mul 4 4 5) := by decide
theorem test_decode_sqr : decodeWords 0b01000001001010010000000000000000 0 = .command (.sqr 2 9) := by decide
theorem test_decode_parse : decodeWords 0b01010000000100000000000000000000 0x400
    = .command (.parse 1 0x400) := by decide
theorem test_decode_fmt : decodeWords 0b01010001000000010000000000000000 0x500 = .command (.fmt 1 0x500) := by decide
theorem test_decode_escape : decodeWords 0b01100000000001000110011100000000 0x800
    = .command (.escape 4 6 7 0x800) := by decide

/-- The bytes of P1's `LDF f2, [0x100]` as they lie in memory (section 3). -/
theorem test_encode_bytes : encode (.ldf 2 0x100) = [0x00, 0x00, 0x20, 0x10, 0x00, 0x01, 0x00, 0x00] := by decide

/-- Bits 63..32 of the table's number are word1; with 32 bits word1 is 0. -/
theorem test_table_word : decodeTableWord 64 (0x110 * 2 ^ 32 + 0x11050000) = some (.stf 5 0x110) ∧
    decodeTableWord 32 0x30123000 = some (.add 1 2 3) ∧ decodeTableWord 32 0x30123001 = none := by decide

/-- The placed word runs as the first command after reset. -/
theorem test_fetch_word :
    after (step (State.reset.withFetchWord 64 (3 * 2 ^ 32 + 0x12100000))) (gives 1 ⟨3, 0, 0, 0⟩) = true := by
  decide +kernel

/-! ### One step of each command (95_test_vectors.md section 2) -/

theorem test_nop : exec .nop s32 = .next { s32 with cp := 8 } := rfl
theorem test_halt : after (exec .halt s32) (fun t => t.done && !t.busy && t.cp == 0) = true := by decide

theorem test_ldf : after (exec (.ldf 2 0x200) (withWords s32 0x200 [1, 0x80000000, 0, 0]))
    (gives 2 ⟨1, 0x80000000, 0, 0⟩) = true := by decide +kernel
theorem test_ldf_misaligned : after (exec (.ldf 2 0x202) s32) (faulted .align 0x202 0x10200000 0x202) = true := by
  decide +kernel

theorem test_stf : after (exec (.stf 1 0x300) (s32.writeF 1 (fp 0xFFFFFFFE 0x80000000 0 0)))
    (fun t => (List.range 8).map (fun k => t.byteAt (0x300 + k)) == [0xFE, 0xFF, 0xFF, 0xFF, 0, 0, 0, 0x80]) = true := by
  decide +kernel
theorem test_stf_last : after (exec (.stf 1 0xFFF0) s32) (fun t => t.cp == 8) = true ∧
    after (exec (.stf 1 0xFFF4) s32) (faulted .bus 0xFFF4 0x11010000 0xFFF4) = true := by decide +kernel

theorem test_ldi : after (exec (.ldi 3 0xFFFFFFFE) s32) (gives 3 ⟨0xFFFFFFFE, 0, 0, 0⟩) = true := by decide
theorem test_ldi_w64 : after (exec (.ldi 0 0x80000000) s64) (gives 0 ⟨0xFFFFFFFF80000000, 0, 0, 0⟩) = true := by decide

theorem test_mov : after (exec (.mov 6 5) (s32.writeF 5 (fp 1 0x80000000 0 0)))
    (gives 6 ⟨1, 0x80000000, 0, 0⟩) = true := by decide

theorem test_inc_ripples : after (exec (.inc 2 2) (s32.writeF 2 (fp 0 0 ones ones))) (gives 2 ⟨0, 1, 0, 0⟩) = true := by
  decide
theorem test_inc_wraps : after (exec (.inc 2 1) (s32.writeF 1 (fp 0x7FFFFFFF ones ones ones)))
    (gives 2 ⟨0x80000000, 0, 0, 0⟩) = true := by decide

theorem test_neg : after (exec (.neg 4 1) (s32.writeF 1 (fp 1 0x80000000 0 0)))
    (gives 4 ⟨0xFFFFFFFE, 0x80000000, 0, 0⟩) = true := by decide
theorem test_neg_min : after (exec (.neg 1 1) (s32.writeF 1 (fp 0x80000000 0 0 0)))
    (gives 1 ⟨0x80000000, 0, 0, 0⟩) = true := by decide

theorem test_dbl_crosses_limbs : after (exec (.dbl 1 1) (s32.writeF 1 (fp 0 0 0 0x80000000)))
    (gives 1 ⟨0, 0, 1, 0⟩) = true := by decide
theorem test_dbl_wraps : after (exec (.dbl 2 1) (s32.writeF 1 (fp 0x7FFFFFFF ones ones ones)))
    (gives 2 ⟨0xFFFFFFFF, 0xFFFFFFFF, 0xFFFFFFFF, 0xFFFFFFFE⟩) = true := by decide

theorem test_add_full : after (exec (.add 1 1 2) ((s32.writeF 1 (fp 0 ones ones ones)).writeF 2 (fp 0 0 0 1)))
    (gives 1 ⟨1, 0, 0, 0⟩) = true := by decide +kernel
theorem test_add_two_pass : after (exec (.add 1 1 2) ((s32two.writeF 1 (fp 0 ones ones ones)).writeF 2 (fp 0 0 0 1)))
    (gives 1 ⟨0, 0, 0, 0⟩) = true := by decide +kernel

theorem test_mul : after (exec (.mul 3 1 2) ((s32.writeF 1 (fp 2 0 0 0)).writeF 2 (fp 0xFFFFFFFD 0 0 0)))
    (gives 3 ⟨0xFFFFFFF9, 0xFFFFFFFF, 0xFFFFFFFF, 0xFFFFFFFD⟩) = true := by decide +kernel
theorem test_mul_truncates : after (exec (.mul 3 1 2) ((s32.writeF 1 (fp 0 0x19999999 0x99999999 0x99999999)).writeF 2
    (fp 10 0 0 0))) (gives 3 ⟨0, 0xFFFFFFFF, 0xFFFFFFFF, 0xFFFFFFFD⟩) = true := by decide +kernel

theorem test_sqr : after (exec (.sqr 2 9) (s32.writeF 9 (fp 0 ones ones ones)))
    (gives 2 ⟨0, 0xFFFFFFFF, 0xFFFFFFFD, 5⟩) = true := by decide +kernel
theorem test_sqr_two_pass : after (exec (.sqr 2 9) (s32two.writeF 9 (fp 1 ones 0x80000000 ones)))
    (gives 2 ⟨1, 0xFFFFFFFE, 2, 1⟩) = true := by decide +kernel

theorem test_parse : after (exec (.parse 1 0x80) (withText s32 0x80 "-2.75"))
    (gives 1 ⟨0xFFFFFFFD, 0x40000000, 0, 0⟩) = true := by decide +kernel
theorem test_parse_range : after (exec (.parse 2 0x90) (withText s32 0x90 "2147483648"))
    (faulted .parseRange 0x90 0x50200000 0x90) = true := by decide +kernel

theorem test_fmt : after (exec (.fmt 1 0xFFFC) (s32.writeF 1 (fp 1 0x80000000 0 0)))
    (fun t => (List.range 4).map (fun k => t.byteAt (0xFFFC + k)) == ascii "1.5" ++ [0]) = true := by decide +kernel
theorem test_fmt_does_not_fit : after (exec (.fmt 1 0xFFFD) (s32.writeF 1 (fp 1 0x80000000 0 0)))
    (faulted .bus 0xFFFD 0x51010000 0xFFFD) = true := by decide +kernel

/-- P3's descriptor, table and registers, with CAP 4: pixel 0 never escapes, pixel 1 escapes after two steps. -/
def frame : State :=
  withWords (withWords (s32.writeF 1 (fp 1 0 0 0)) 0x100 [0x200, 0x300, 2, 1, 4, 0]) 0x200
    [0xFFFFFFFF, 0, 0, 0, 0, 0, 0, 0, 1, 0x80000000, 0, 0, 1, 0, 0, 0]

/-- With centre 0 as in P3; and with centre 2.5 + 0i, worked by hand: c = 1.5 goes to 1.5 and 3.75 and stops after two
steps, c = 4 + i after one (the centre 0 + 2.5i would stop pixel 0 after one). -/
theorem test_escape :
    after (exec (.escape 1 2 3 0x100) frame)
      (fun t => t.wordAt 0x300 == 0xFFFFFFFF && t.wordAt 0x304 == 2 && t.cp == 8) = true ∧
    after (exec (.escape 1 2 3 0x100) (frame.writeF 2 (fp 2 0x80000000 0 0)))
      (fun t => t.wordAt 0x300 == 2 && t.wordAt 0x304 == 1) = true := by decide +kernel
theorem test_escape_overlap : after (exec (.escape 1 2 3 0x100) (withWords frame 0x104 [0x23C]))
    (faulted .overlap 0x23C 0x60012300 0x100) = true := by decide +kernel

/-! ### The assembler (30_encoding.md section 4) -/

theorem test_assembler : Assembler.assembleText Config.defaultDevice
    [".org 0x10", "start: LDI F1, #-2 ; two below zero", " .word start"]
    = some [(0x10, 0x00), (0x11, 0x00), (0x12, 0x10), (0x13, 0x12), (0x14, 0xFE), (0x15, 0xFF), (0x16, 0xFF), (0x17, 0xFF),
      (0x18, 0x10), (0x19, 0x00), (0x1A, 0x00), (0x1B, 0x00)] := by decide +kernel

/-- A label is the address of the next emitted byte: of the `.org` after it (R78). -/
theorem test_label_before_org : Assembler.assembleText Config.defaultDevice ["here:", ".ORG 0x20", ".word here"]
    = some [(0x20, 0x20), (0x21, 0x00), (0x22, 0x00), (0x23, 0x00)] := by decide +kernel

/-! ### Witnesses: for every statement that has hypotheses, a state and operands that meet them together, one for each
clause, at the ends of its range. They are grouped as Certificates/Slice0/Obligations.lean is. -/

/-- `s` with a command's bytes at CP. -/
def atCp (s : State) (cp : Word) (bytes : List Byte) : State := { s with cp := cp }.writeBytes cp.toNat bytes

/-- The eight bytes at CP. -/
def bytesAtCp (s : State) : List Byte := (List.range 8).map fun k => s.byteAt (s.cp.toNat + k)

/-- The last place a command can stand (section 2.6): MZC moves, with and without a passing host. -/
theorem witness_step_runs :
    let s := atCp s32 0xFFF8 (encode (.inc 0 0))
    let t := { s with host := [.pass, .reset] }
    s.busy = true ∧ s.cp.toNat % 8 = 0 ∧ s.cp.toNat + 8 ≤ s.memSize ∧
    decode (bytesAtCp s) = (.command (.inc 0 0), []) ∧ s.host = [] ∧
    t.busy = true ∧ decode (bytesAtCp t) = (.command (.inc 0 0), []) ∧ t.host = .pass :: [.reset] := by decide +kernel

theorem witness_illegal_words :
    let s := atCp s32 0x10 (bytesOfWord 0x30123001 ++ bytesOfWord 0)
    s.busy = true ∧ s.host = [] ∧ s.cp.toNat % 8 = 0 ∧ s.cp.toNat + 8 ≤ s.memSize ∧
    decodeWords (s.wordAt s.cp.toNat) (s.wordAt (s.cp.toNat + 4)) = .illegal .reservedField := by decide +kernel

/-- Misaligned, the last word of memory too; past the end; and the last place that is fetched. -/
theorem witness_fetch_align : s32.busy = true ∧ s32.host = [] ∧
    { s32 with cp := 4 }.cp.toNat % 8 ≠ 0 ∧ { s32 with cp := 0xFFFC }.cp.toNat % 8 ≠ 0 := by decide
theorem witness_fetch_bus :
    { s32 with cp := 0x10000 }.cp.toNat % 8 = 0 ∧
    { s32 with cp := 0x10000 }.memSize < { s32 with cp := 0x10000 }.cp.toNat + 8 := by decide
theorem witness_fetch_last :
    { s32 with cp := 0xFFF8 }.cp.toNat % 8 = 0 ∧
    { s32 with cp := 0xFFF8 }.cp.toNat + 8 ≤ { s32 with cp := 0xFFF8 }.memSize := by decide

theorem witness_idle : State.reset.busy = false ∧ State.reset.host = [] := by decide

theorem witness_width : 0 < 32 ∧ 32 % 2 = 0 := by decide

theorem witness_full : s32.dev.carryMode = .full ∧ s64.dev.carryMode = .full := by decide

/-- The lost carry, and a sum that keeps every carry (section 2.3). -/
theorem witness_two_pass_lost :
    let u := fp 0 ones ones ones
    let v := fp 0 0 0 1
    s32two.dev.carryMode = .twoPass ∧ 2 ^ 32 ≤ u.l3.toNat + v.l3.toNat ∧
    (u.l2.toNat + v.l2.toNat) % 2 ^ 32 = 2 ^ 32 - 1 ∧ (u.l1.toNat + v.l1.toNat) % 2 ^ 32 = 2 ^ 32 - 1 := by decide
theorem witness_two_pass_kept :
    let u := fp 0 0 ones ones
    let v := fp 0 0 0 1
    2 ^ 32 ≤ u.l3.toNat + v.l3.toNat ∧ ¬ (u.l1.toNat + v.l1.toNat) % 2 ^ 32 = 2 ^ 32 - 1 := by decide

/-- MIN is the lowest value in range, one half below it is not (section 2.1); a negative string with a zero fraction. -/
theorem witness_parse_value :
    let low : Codec.DecimalText := ⟨true, 2 ^ 31, 0, 0⟩
    let below : Codec.DecimalText := ⟨true, 2 ^ 31, 5, 1⟩
    low.fraction < 10 ^ low.places ∧ below.fraction < 10 ^ below.places ∧
    -(2 ^ 31 * 10 ^ low.places : Int) ≤ decimalNumerator low ∧
    ¬ -(2 ^ 31 * 10 ^ below.places : Int) ≤ decimalNumerator below := by decide
theorem witness_literal :
    let whole : Codec.DecimalText := ⟨true, 2 ^ 31 - 1, 0, 0⟩
    let broken : Codec.DecimalText := ⟨true, 1, 5, 1⟩
    (whole.fraction < 10 ^ whole.places ∧ whole.neg = true ∧ whole.fraction = 0 ∧ whole.whole + 1 ≤ 2 ^ 31) ∧
    (broken.fraction < 10 ^ broken.places ∧ 0 < broken.fraction) := by decide

/-- A text whose NUL is the last byte of memory. -/
theorem witness_parse_text :
    let s := withText s32 0xFFFB "-2.5"
    s.HoldsText 0xFFFB (ascii "-2.5") ∧ Codec.split (ascii "-2.5") = some ⟨true, 2, 5, 1⟩ ∧
    Codec.parseValue s.w s.dev.negIntParse ⟨true, 2, 5, 1⟩ = some (FixedPoint.ofPat (2 ^ 128 - 5 * 2 ^ 95)) := by
  unfold State.HoldsText
  decide +kernel

/-- Memory full of the digit 1 from an address. -/
def digits (a n : Nat) : State := { s32 with mem := (List.range' a n).map fun k => (k, 0x31) }

theorem lookup_digits (a n k : Nat) (h : k < n) :
    Memory.lookup ((List.range' a n).map fun k => (k, (0x31 : Byte))) (a + k) = some 0x31 := by
  induction n generalizing a k with
  | zero => omega
  | succ n ih =>
    rw [List.range'_succ, List.map_cons, Memory.lookup]
    split
    · rfl
    · have := ih (a + 1) (k - 1) (by omega)
      rwa [show a + 1 + (k - 1) = a + k by omega] at this

theorem digits_not_nul (a n k : Nat) (h : k < n) : (digits a n).byteAt (a + k) ≠ 0 := by
  rw [State.byteAt, digits, lookup_digits a n k h, Option.getD_some]
  decide

/-- 4095 bytes up to the end of memory and no NUL, and an address past the end: BUS. 4096 bytes and no NUL: the text is
too long. -/
theorem witness_parse_bus :
    let s := digits 0xF001 4095
    s.memSize - (0xF001 : Word).toNat = Config.strMax ∧
    (∀ k, k < s.memSize - (0xF001 : Word).toNat → s.byteAt ((0xF001 : Word).toNat + k) ≠ 0) ∧
    s.memSize - (0x10000 : Word).toNat ≤ Config.strMax :=
  ⟨by decide, fun k h => digits_not_nul 0xF001 4095 k h, by decide⟩
theorem witness_parse_too_long :
    let s := digits 0xF000 4096
    (0xF000 : Word).toNat + Config.strMax < s.memSize ∧
    ∀ k, k ≤ Config.strMax → s.byteAt ((0xF000 : Word).toNat + k) ≠ 0 :=
  ⟨by decide, fun k h => digits_not_nul 0xF000 4096 k (Nat.lt_succ_of_le h)⟩
theorem witness_parse_syntax :
    (withText s32 0x80 "").HoldsText 0x80 [] ∧ Codec.split [] = none ∧
    (withText s32 0x80 "1.2.3").HoldsText 0x80 (ascii "1.2.3") ∧ Codec.split (ascii "1.2.3") = none := by
  unfold State.HoldsText
  decide +kernel
theorem witness_parse_range :
    (withText s32 0x90 "2147483648").HoldsText 0x90 (ascii "2147483648") ∧
    Codec.split (ascii "2147483648") = some ⟨false, 2147483648, 0, 0⟩ ∧
    Codec.parseValue s32.w s32.dev.negIntParse ⟨false, 2147483648, 0, 0⟩ = none := by
  unfold State.HoldsText
  decide +kernel

/-- The text of 1.5 and its NUL end with memory; one byte further they do not fit (section 2.1). -/
theorem witness_fmt :
    let s := s32.writeF 1 (fp 1 0x80000000 0 0)
    let n := (Codec.formatText (s.readF 1)).length
    (0xFFFC : Word).toNat + n + 1 ≤ s.memSize ∧ s.memSize < (0xFFFD : Word).toNat + n + 1 := by decide +kernel

theorem witness_nop_bits :
    (0x00FFFFFF : Word).toNat < 2 ^ 24 ∧ ¬ ((0x00FFFFFF : Word) = 0 ∧ (0 : Word) = 0) ∧ ¬ ((0 : Word) = 0 ∧ (1 : Word) = 0) := by
  decide

/-- The last address of a value, one limb past it, and a misaligned one (section 2.6); W = 64 alike. -/
theorem witness_ldf_stf :
    (0xFFF0 : Word).toNat % s32.limbBytes = 0 ∧ (0xFFF0 : Word).toNat + s32.valueBytes ≤ s32.memSize ∧
    (0xFFF4 : Word).toNat % s32.limbBytes = 0 ∧ s32.memSize < (0xFFF4 : Word).toNat + s32.valueBytes ∧
    (0x202 : Word).toNat % s32.limbBytes ≠ 0 ∧ (0xFFFE : Word).toNat % s32.limbBytes ≠ 0 ∧
    (0xFFE0 : Word).toNat % s64.limbBytes = 0 ∧ (0xFFE0 : Word).toNat + s64.valueBytes ≤ s64.memSize := by decide

theorem witness_sub : s32.dev.carryMode = .full ∧ (7 : Reg) ≠ 2 := by decide

/-- An ESCAPE that renders, its canonical memory, and its two pixels taken in the other order. -/
theorem witness_escape : frame.escapeVerdict 1 2 3 0x100 = .render ∧ frame.memoryCanonical := by
  unfold State.memoryCanonical
  decide +kernel
theorem witness_pixel_order : [1, 0].Perm (List.range (frame.snapshot 1 2 3 0x100).npix) := by
  rw [show (frame.snapshot 1 2 3 0x100).npix = 2 by decide +kernel]
  exact List.Perm.swap 0 1 []

/-- The checks of ESCAPE at the situations of section 2.5. -/
theorem witness_escape_checks :
    s32.escapeVerdict 1 2 3 0x102 = .fault .align 0x102 ∧
    s32.escapeVerdict 1 2 3 0xFFF0 = .fault .bus 0xFFF0 ∧
    (withWords frame 0x114 [2]).escapeVerdict 1 2 3 0x100 = .fault .param 0x114 ∧
    { frame with palsize := 0 }.escapeVerdict 1 2 3 0x100 = .fault .param 0x114 ∧
    { withWords frame 0x114 [1] with palsize := 0 }.escapeVerdict 1 2 3 0x100 = .render ∧
    (withWords frame 0x100 [0x202, 0x302, 0]).escapeVerdict 1 2 3 0x100 = .empty ∧
    (withWords frame 0x100 [0x202]).escapeVerdict 1 2 3 0x100 = .fault .align 0x202 ∧
    (withWords frame 0x104 [0x302]).escapeVerdict 1 2 3 0x100 = .fault .align 0x302 ∧
    (withWords frame 0x100 [0xFFC0, 0x300, 3]).escapeVerdict 1 2 3 0x100 = .fault .bus 0xFFC0 ∧
    (withWords frame 0x104 [0xFFF8, 3]).escapeVerdict 1 2 3 0x100 = .fault .bus 0xFFF8 ∧
    (withWords frame 0x104 [0x23C]).escapeVerdict 1 2 3 0x100 = .fault .overlap 0x23C ∧
    (withWords frame 0x104 [0x240]).escapeVerdict 1 2 3 0x100 = .render := by decide +kernel

/-- RAW; a count below the cap; a count that reached it. -/
theorem witness_output :
    let raw := (withWords frame 0x114 [1]).snapshot 1 2 3 0x100
    let sn := frame.snapshot 1 2 3 0x100
    raw.raw = true ∧ sn.raw = false ∧ (3 : Word) < sn.cap ∧ sn.palsize ≠ 0 ∧ ¬ (4 : Word) < sn.cap := by decide +kernel

theorem witness_cap : (1 : Word) ≠ 0 := by decide

/-- Rows of section 2.5: c = 1 and c = i under FULL, c = i under TWO_PASS. -/
theorem test_iteration_counts :
    let enter (cr ci : FixedPoint 32) : Pixel 32 := ⟨cr, ci, ⟨0, 0, 0, 0⟩, ⟨0, 0, 0, 0⟩, ⟨0, 0, 0, 0⟩, ⟨0, 0, 0, 0⟩, 0⟩
    let one := fp 1 0 0 0
    let zero := fp 0 0 0 0
    (Pixel.loop .full 1000 1000 (enter one zero)).n = 2 ∧ (Pixel.loop .full 1000 1000 (enter zero one)).n = 63 ∧
    (Pixel.loop .twoPass 1000 1000 (enter zero one)).n = 4 := by decide +kernel

/-- The codes of R140, and FCAUSE as the host reads it. -/
theorem test_cause_codes :
    [Cause.none, .illegal, .align, .bus, .parseSyntax, .parseRange, .param, .overlap].map Cause.code
      = [0, 1, 2, 3, 4, 5, 6, 7] ∧ { s32 with fcause := .parseRange }.csrRead 0x020 = 5 := by decide

theorem witness_precise_fault :
    ∃ t, exec (.ldf 2 0x202) s32 = .next t ∧ s32.fault = false ∧ t.fault = true := ⟨_, rfl, by decide, by decide⟩
theorem witness_control_block :
    ∃ t, exec (.ldi 1 5) s32 = .next t ∧ Instr.ldi 1 5 ≠ .halt ∧ s32.fault = false ∧ t.fault = false :=
  ⟨_, rfl, by decide, by decide, by decide⟩
theorem witness_interrupt : ∃ t, exec .halt s32 = .next t := ⟨_, rfl⟩

/-- A write of CTRL without START; with START while a run is in progress, while a fault is unacknowledged, and
accepted. -/
theorem witness_start :
    let idle := { State.reset with host := [.write32 0x80000010 3] }
    idle.host = .write32 (idle.dev.hostCsrBase + 0x010) 3 :: [] ∧ (3 : Word).getLsbD 0 = true ∧
    (2 : Word).getLsbD 0 = false ∧ { idle with busy := true }.busy = true ∧ { idle with fault := true }.fault = true ∧
    ¬ (idle.busy = true ∨ idle.fault = true) := by decide

theorem witness_status :
    let r := { s32 with host := [.read32 0x80000014] }
    let w := { s32 with host := [.write32 0x80000014 0xE] }
    r.host = .read32 (r.dev.hostCsrBase + 0x014) :: [] ∧ w.host = .write32 (w.dev.hostCsrBase + 0x014) 0xE :: [] := by
  decide

theorem witness_host_writes :
    let c := { s32 with host := [.write32 0x80000018 8] }
    let p := { s32 with host := [.write32 0x80000030 8] }
    c.host = .write32 (c.dev.hostCsrBase + 0x018) 8 :: [] ∧ p.host = .write32 (p.dev.hostCsrBase + 0x030) 8 :: [] ∧
    c.busy = true ∧ { c with busy := false }.busy = false := by decide

/-- The first offset, the last one, and PALSIZE; a write to the last offset. -/
theorem witness_control_reads :
    (0 < 0x400 ∧ 0 ≠ 5 ∧ [HostMove.read32 0x80000000] = .read32 (s32.dev.hostCsrBase + 4 * 0) :: []) ∧
    (0x3FF < 0x400 ∧ 0x3FF ≠ 5 ∧ [HostMove.read32 0x80000FFC] = .read32 (s32.dev.hostCsrBase + 4 * 0x3FF) :: []) ∧
    (12 < 0x400 ∧ 12 ≠ 5 ∧ [HostMove.read32 0x80000030] = .read32 (s32.dev.hostCsrBase + 4 * 12) :: []) ∧
    (0x3FF ∉ [4, 5, 6, 12] ∧ [HostMove.write32 0x80000FFC 1] = .write32 (s32.dev.hostCsrBase + 4 * 0x3FF) 1 :: []) := by
  decide

/-- A device whose memory window begins at 0x40000000. -/
def windowed (moves : List HostMove) : State :=
  { State.resetOf { Config.defaultDevice with hostMemBase := 0x40000000 } 0 with host := moves }

/-- The last byte and the last word of device memory, in a run and outside one. -/
theorem witness_memory_window :
    let d := (windowed []).dev
    0x4000FFFF = d.hostMemBase + 0xFFFF ∧ 0x4000FFFC = d.hostMemBase + 0xFFFC ∧ 0xFFFF < (windowed []).memSize ∧
    0xFFFC % 4 = 0 ∧ ¬ (d.hostCsrBase ≤ 0x4000FFFF ∧ 0x4000FFFF < d.hostCsrBase + 0x1000) ∧
    ¬ (d.hostCsrBase ≤ 0x4000FFFC ∧ 0x4000FFFC < d.hostCsrBase + 0x1000) ∧
    (windowed [.read8 0x4000FFFF]).host = .read8 0x4000FFFF :: [] ∧
    (windowed [.write8 0x4000FFFF 1]).host = .write8 0x4000FFFF 1 :: [] ∧
    (windowed [.read32 0x4000FFFC]).host = .read32 0x4000FFFC :: [] ∧
    (windowed [.write32 0x4000FFFC 1]).host = .write32 0x4000FFFC 1 :: [] ∧
    (windowed []).busy = false ∧ { windowed [] with busy := true }.busy = true := by decide

/-- HOST_MEM_BASE + a leads to device address a (R59). -/
theorem test_window_base : after (step (windowed [.write32 0x4000FFFC 0x04030201])) (fun t =>
    (List.range 4).map (fun k => t.byteAt (0xFFFC + k)) == [1, 2, 3, 4]) = true := by decide +kernel

/-- Just below the control block and just above it, each outside device memory too. -/
theorem witness_outside :
    ¬ (s32.dev.hostCsrBase ≤ 0x7FFFFFFF ∧ 0x7FFFFFFF < s32.dev.hostCsrBase + 0x1000) ∧
    ¬ (s32.dev.hostMemBase ≤ 0x7FFFFFFF ∧ 0x7FFFFFFF < s32.dev.hostMemBase + s32.memSize) ∧
    ¬ (s32.dev.hostCsrBase ≤ 0x80001000 ∧ 0x80001000 < s32.dev.hostCsrBase + 0x1000) ∧
    ¬ (s32.dev.hostMemBase ≤ 0x10000 ∧ 0x10000 < s32.dev.hostMemBase + s32.memSize) ∧
    { s32 with host := [.read32 0x7FFFFFFF] }.host = .read32 0x7FFFFFFF :: [] := by decide

/-- A byte of the control block, a misaligned register, a misaligned word of memory. -/
theorem witness_undefined_access :
    0x80000010 = s32.dev.hostCsrBase + 0x10 ∧ 0x80000012 = s32.dev.hostCsrBase + 0x12 ∧ 0x12 < 0x1000 ∧
    0x12 % 4 ≠ 0 ∧ 0x102 = s32.dev.hostMemBase + 0x102 ∧ 0x102 < s32.memSize ∧ 0x102 % 4 ≠ 0 ∧
    ¬ (s32.dev.hostCsrBase ≤ 0x102 ∧ 0x102 < s32.dev.hostCsrBase + 0x1000) ∧
    { s32 with host := [.read8 0x80000010] }.host = .read8 0x80000010 :: [] ∧
    { s32 with host := [.write32 0x80000012 1] }.host = .write32 0x80000012 1 :: [] ∧
    { s32 with host := [.read32 0x102] }.host = .read32 0x102 :: [] := by decide

theorem witness_reset : { s32 with host := [.reset, .pass] }.host = .reset :: [.pass] := rfl

/-- A state in the middle of a run, about to do a NOP, and its step. -/
theorem witness_invariant : (atCp s32 0 (encode .nop)).Inv where
  memory := by unfold State.memoryCanonical; decide +kernel
  limbs := by unfold State.limbsFit; decide +kernel
  runBits := by unfold State.runBitsExclusive; decide +kernel
  recorded := by unfold State.faultRecorded; decide +kernel
  fresh := by unfold State.unwrittenAtReset; decide +kernel
theorem witness_invariant_step :
    after (step (atCp s32 0 (encode .nop))) (fun t => t.cp == 8) = true := by decide +kernel

theorem witness_run_ends : s32.busy = true ∧ s32.host = [] := by decide

/-- Two states that differ in the unwritten f7, about to copy the written f1. -/
theorem witness_agree :
    let s := atCp (s32.writeF 1 (fp 1 0 0 0)) 0 (encode (.mov 2 1))
    let s' := { s with f := s.f.set 7 ⟨9, 9, 9, 9⟩ }
    s.AgreeOnWritten s' ∧ s ≠ s' ∧ s.safe = true ∧ after (step s) (fun t => t.isWritten 2) = true :=
  ⟨⟨rfl, by decide +kernel⟩, by decide +kernel, by decide +kernel, by decide +kernel⟩

theorem witness_lanes : ∃ t, exec (.mov 2 1) s32 = .next t := ⟨_, rfl⟩

end Sys2Proof.Tests
end

section
/-! PROOFS. The cases of the commands that check their operands; the value LDF loads (spec/00_scope.md R7,
spec/20_memory.md R51, spec/45_system_and_transfer.md R136); and that no command depends on the number of lanes
(spec/00_scope.md R11, spec/44_escape.md R126). -/
namespace Sys2Proof.Machine

/-! ### The arms of `exec` for the commands that check their operands (R75) -/

theorem exec_ldf (rd : Reg) (a : Word) (s : State) : exec (.ldf rd a) s = execLdf rd a s := rfl
theorem exec_stf (ra : Reg) (a : Word) (s : State) : exec (.stf ra a) s = execStf ra a s := rfl
theorem exec_parse (rd : Reg) (a : Word) (s : State) : exec (.parse rd a) s = execParse rd a s := rfl
theorem exec_escape (ra rb rc : Reg) (d : Word) (s : State) :
    exec (.escape ra rb rc d) s = execEscape ra rb rc d s := rfl

/-! ### The answer of each command that checks its operands, one equation per case (R91, R92, R121, R136, R137)

The meanings are unfolded by `delta`, which needs no equation lemma: proofs elaborated side by side would each hold a
thread while they wait for the same one. -/

theorem exec_ldf_of_fault {s : State} {a : Word} {c : Cause} (rd : Reg) (h : s.valueAddrFault a = some c) :
    exec (.ldf rd a) s = .next (s.faultIn (.ldf rd a) c a) := by
  rw [exec_ldf]
  delta execLdf
  rw [h]

theorem exec_ldf_of_valid {s : State} {a : Word} (rd : Reg) (h : s.valueAddrFault a = none) :
    exec (.ldf rd a) s = .next (s.writeF rd (s.loadFP s.w a.toNat)).advance := by
  rw [exec_ldf]
  delta execLdf
  rw [h]

theorem exec_stf_of_fault {s : State} {a : Word} {c : Cause} (ra : Reg) (h : s.valueAddrFault a = some c) :
    exec (.stf ra a) s = .next (s.faultIn (.stf ra a) c a) := by
  rw [exec_stf]
  delta execStf
  rw [h]

theorem exec_stf_of_valid {s : State} {a : Word} (ra : Reg) (h : s.valueAddrFault a = none) :
    exec (.stf ra a) s = .next (s.storeFP a.toNat (s.readF ra)).advance := by
  rw [exec_stf]
  delta execStf
  rw [h]

theorem exec_parse_of_value {s : State} {a : Word} {x : FixedPoint s.w} (rd : Reg) (h : s.parseAt a = .inl x) :
    exec (.parse rd a) s = .next (s.writeF rd x).advance := by
  rw [exec_parse]
  delta execParse
  rw [h]

theorem exec_parse_of_fault {s : State} {a addr : Word} {c : Cause} (rd : Reg) (h : s.parseAt a = .inr (c, addr)) :
    exec (.parse rd a) s = .next (s.faultIn (.parse rd a) c addr) := by
  rw [exec_parse]
  delta execParse
  rw [h]

theorem exec_fmt_of_fault {s : State} {ra : Reg} {a : Word}
    (h : s.inRange a.toNat ((Codec.formatText (s.readF ra)).length + 1) = false) :
    exec (.fmt ra a) s = .next (s.faultIn (.fmt ra a) .bus a) :=
  congrArg Host.Outcome.next (if_pos h)

theorem exec_fmt_of_inRange {s : State} {ra : Reg} {a : Word}
    (h : s.inRange a.toNat ((Codec.formatText (s.readF ra)).length + 1) = true) :
    exec (.fmt ra a) s = .next (s.writeBytes a.toNat (Codec.formatText (s.readF ra) ++ [0])).advance :=
  congrArg Host.Outcome.next (if_neg (by simp [h]))

theorem exec_escape_of_fault {s : State} {ra rb rc : Reg} {d addr : Word} {c : Cause}
    (h : s.escapeVerdict ra rb rc d = .fault c addr) :
    exec (.escape ra rb rc d) s = .next (s.faultIn (.escape ra rb rc d) c addr) := by
  rw [exec_escape]
  delta execEscape
  rw [h]

theorem exec_escape_of_empty {s : State} {ra rb rc : Reg} {d : Word} (h : s.escapeVerdict ra rb rc d = .empty) :
    exec (.escape ra rb rc d) s = .next s.advance := by
  rw [exec_escape]
  delta execEscape
  rw [h]

theorem exec_escape_of_render {s : State} {ra rb rc : Reg} {d : Word} (h : s.escapeVerdict ra rb rc d = .render) :
    exec (.escape ra rb rc d) s = .next
      (State.renderInOrder (s.snapshot ra rb rc d) s (List.range (s.snapshot ra rb rc d).npix)).advance := by
  rw [exec_escape]
  delta execEscape
  rw [h]

/-! ### LDF (R7, R51, R136) -/

/-- `8 * LB = W` in both widths (R7). -/
theorem State.eight_mul_limbBytes (s : State) : 8 * s.limbBytes = s.w := by
  rw [State.limbBytes, State.w, FixedPoint.limbBytes]
  cases s.dev.width <;> rfl

/-- LB bytes hold exactly the values of one limb (R7). -/
theorem State.pow_limbBytes (s : State) : 256 ^ s.limbBytes = 2 ^ s.w := by
  rw [← s.eight_mul_limbBytes, Nat.pow_mul]

theorem State.limb_loadFP (s : State) (w a : Nat) {i : Nat} (hi : i < 4) :
    (s.loadFP w a).limb i
      = BitVec.ofNat w (s.memRead (a + i * FixedPoint.limbBytes w) (FixedPoint.limbBytes w)) := by
  match i, hi with
  | 0, _ | 1, _ | 2, _ | 3, _ => rfl

/-- A loaded limb is the LB bytes read, with none of them cut off (R51). -/
theorem State.limb_loadFP_toNat (s : State) (a : Nat) {i : Nat} (hi : i < 4) :
    ((s.loadFP s.w a).limb i).toNat = s.memRead (a + i * s.limbBytes) s.limbBytes := by
  have fits : s.memRead (a + i * s.limbBytes) s.limbBytes < 2 ^ s.w :=
    s.pow_limbBytes ▸ s.memRead_lt _ _
  rw [s.limb_loadFP s.w a hi, BitVec.toNat_ofNat]
  exact Nat.mod_eq_of_lt fits

/-- Byte k of limb i of a loaded value (R51). -/
theorem State.limb_loadFP_byte (s : State) (a : Nat) {i k : Nat} (hi : i < 4) (hk : k < s.limbBytes) :
    ((s.loadFP s.w a).limb i).toNat / 256 ^ k % 256 = (s.byteAt (a + i * s.limbBytes + k)).toNat := by
  rw [s.limb_loadFP_toNat a hi, s.memRead_byte _ _ k hk]

/-- Settles O35: at an address that passes both checks LDF writes the loaded value to rd, and its limbs are
little-endian reads of LB bytes each. -/
theorem ldfLoadsTheValue : Obligations.LdfLoadsTheValue := by
  intro s rd a aligned inRange
  have valid : s.valueAddrFault a = none := (s.valueAddrFault_none a).2 ⟨aligned, inRange⟩
  refine ⟨s.eight_mul_limbBytes, s.valueBytes_eq, _, exec_ldf_of_valid rd valid, s.wroteOnly_advance rd _,
    fun i k hi hk => ?_⟩
  have loaded : (s.writeF rd (s.loadFP s.w a.toNat)).advance.readF rd = s.loadFP s.w a.toNat :=
    s.readF_writeF_same rd _
  rw [loaded]
  exact s.limb_loadFP_byte a.toNat hi hk

/-! ### The number of lanes (R11, R126) -/

/-- The same state on a device with another NLANES. -/
def State.withLanes (s : State) (n : BitVec 8) : State := { s with dev := { s.dev with lanesLess1 := n } }

theorem State.carryMode_withLanes (s : State) (n : BitVec 8) : (s.withLanes n).dev.carryMode = s.dev.carryMode := rfl

/-! What an operation reads does not depend on NLANES. -/

theorem State.memRead_withLanes (s : State) (n : BitVec 8) (a k : Nat) :
    (s.withLanes n).memRead a k = s.memRead a k :=
  State.memRead_congr _ _ a k fun _ _ _ => rfl

theorem State.wordAt_withLanes (s : State) (n : BitVec 8) (a : Nat) : (s.withLanes n).wordAt a = s.wordAt a := by
  rw [State.wordAt, State.wordAt, State.memRead_withLanes]

theorem State.loadFP_withLanes (s : State) (n : BitVec 8) (w a : Nat) :
    (s.withLanes n).loadFP w a = s.loadFP w a :=
  State.loadFP_congr _ _ w a fun _ _ _ => rfl

theorem State.scanText_withLanes (s : State) (n : BitVec 8) (a k : Nat) :
    (s.withLanes n).scanText a k = s.scanText a k := by
  induction k generalizing a with
  | zero => rfl
  | succ k ih =>
    rw [State.scanText, State.scanText, ih]
    rfl

theorem State.parseAt_withLanes (s : State) (n : BitVec 8) (a : Word) :
    (s.withLanes n).parseAt a = s.parseAt a := by
  rw [State.parseAt, State.parseAt, State.scanText_withLanes]
  cases s.scanText a.toNat (Config.strMax + 1) with
  | outOfRange | noEnd => rfl
  | text bytes =>
    dsimp only
    cases Codec.split bytes with
    | none => rfl
    | some t =>
      have value : Codec.parseValue (s.withLanes n).w (s.withLanes n).dev.negIntParse t
          = Codec.parseValue s.w s.dev.negIntParse t := rfl
      dsimp only
      rw [value]
      cases Codec.parseValue s.w s.dev.negIntParse t <;> rfl

theorem State.snapshot_withLanes (s : State) (n : BitVec 8) (ra rb rc : Reg) (d : Word) :
    (s.withLanes n).snapshot ra rb rc d = s.snapshot ra rb rc d := by
  simp only [State.snapshot, State.wordAt_withLanes]
  rfl

theorem State.escapeVerdict_withLanes (s : State) (n : BitVec 8) (ra rb rc : Reg) (d : Word) :
    (s.withLanes n).escapeVerdict ra rb rc d = s.escapeVerdict ra rb rc d := by
  rw [State.escapeVerdict, State.escapeVerdict, State.snapshot_withLanes]
  rfl

/-! What an operation changes is the same under every NLANES. -/

theorem State.advance_withLanes (s : State) (n : BitVec 8) : (s.withLanes n).advance = s.advance.withLanes n := rfl

theorem State.memWrite_withLanes (s : State) (n : BitVec 8) (a k v : Nat) :
    (s.withLanes n).memWrite a k v = (s.memWrite a k v).withLanes n := by
  induction k generalizing s a v with
  | zero => rfl
  | succ k ih => exact ih (s.setByte a (BitVec.ofNat 8 v)) (a + 1) (v / 256)

theorem State.writeBytes_withLanes (s : State) (n : BitVec 8) (a : Nat) (bs : List Byte) :
    (s.withLanes n).writeBytes a bs = (s.writeBytes a bs).withLanes n := by
  induction bs generalizing s a with
  | nil => rfl
  | cons b bs ih => exact ih (s.setByte a b) (a + 1)

theorem State.storeFP_withLanes (s : State) (n : BitVec 8) (a : Nat) {w : Nat} (x : FixedPoint w) :
    (s.withLanes n).storeFP a x = (s.storeFP a x).withLanes n := by
  simp only [State.storeFP, List.foldl, State.memWrite_withLanes]

theorem State.renderPixel_withLanes {w : Nat} (sn : Snapshot w) (s : State) (n : BitVec 8) (k : Nat) :
    State.renderPixel sn (s.withLanes n) k = (State.renderPixel sn s k).withLanes n := by
  simp only [State.renderPixel, State.loadFP_withLanes, State.memWrite_withLanes, State.carryMode_withLanes]

theorem State.renderInOrder_withLanes {w : Nat} (sn : Snapshot w) (s : State) (n : BitVec 8) (order : List Nat) :
    State.renderInOrder sn (s.withLanes n) order = (State.renderInOrder sn s order).withLanes n :=
  List.foldl_hom (State.withLanes · n) fun t k => State.renderPixel_withLanes sn t n k

/-- A command and the change of NLANES commute. The commands without an operand check read none of the device but its
width and its carry mode; the others take the same case of their checks with every NLANES. -/
theorem exec_withLanes (i : Instr) (s : State) (n : BitVec 8) :
    ∃ t, exec i s = .next t ∧ exec i (s.withLanes n) = .next (t.withLanes n) := by
  cases i with
  | nop | halt | ldi | mov | inc | neg | dbl | add | mul | sqr => exact ⟨_, rfl, rfl⟩
  | ldf rd a =>
    cases h : s.valueAddrFault a with
    | some c => exact ⟨_, exec_ldf_of_fault rd h, exec_ldf_of_fault (s := s.withLanes n) rd h⟩
    | none =>
      refine ⟨_, exec_ldf_of_valid rd h, (exec_ldf_of_valid (s := s.withLanes n) rd h).trans ?_⟩
      rw [State.loadFP_withLanes]
      rfl
  | stf ra a =>
    cases h : s.valueAddrFault a with
    | some c => exact ⟨_, exec_stf_of_fault ra h, exec_stf_of_fault (s := s.withLanes n) ra h⟩
    | none =>
      refine ⟨_, exec_stf_of_valid ra h, (exec_stf_of_valid (s := s.withLanes n) ra h).trans ?_⟩
      rw [State.storeFP_withLanes, State.advance_withLanes]
      rfl
  | parse rd a =>
    have same := s.parseAt_withLanes n a
    cases h : s.parseAt a with
    | inl x => exact ⟨_, exec_parse_of_value rd h, exec_parse_of_value rd (same.trans h)⟩
    | inr r => exact ⟨_, exec_parse_of_fault rd h, exec_parse_of_fault rd (same.trans h)⟩
  | fmt ra a =>
    cases h : s.inRange a.toNat ((Codec.formatText (s.readF ra)).length + 1) with
    | false => exact ⟨_, exec_fmt_of_fault h, exec_fmt_of_fault (s := s.withLanes n) h⟩
    | true =>
      refine ⟨_, exec_fmt_of_inRange h, (exec_fmt_of_inRange (s := s.withLanes n) h).trans ?_⟩
      rw [State.writeBytes_withLanes, State.advance_withLanes]
      rfl
  | escape ra rb rc d =>
    have same := s.escapeVerdict_withLanes n ra rb rc d
    cases h : s.escapeVerdict ra rb rc d with
    | fault c addr => exact ⟨_, exec_escape_of_fault h, exec_escape_of_fault (same.trans h)⟩
    | empty => exact ⟨_, exec_escape_of_empty h, exec_escape_of_empty (same.trans h)⟩
    | render =>
      refine ⟨_, exec_escape_of_render h, (exec_escape_of_render (same.trans h)).trans ?_⟩
      rw [← State.advance_withLanes, ← State.renderInOrder_withLanes]
      exact congrArg (fun sn : Snapshot s.w =>
        Host.Outcome.next (State.renderInOrder sn (s.withLanes n) (List.range sn.npix)).advance)
        (s.snapshot_withLanes n ra rb rc d)

/-- Settles O60, by the case of each command's operand checks. -/
theorem lanesAreUnobservable : Obligations.LanesAreUnobservable := by
  intro i s t n h
  obtain ⟨u, hu, hn⟩ := exec_withLanes i s n
  obtain rfl : u = t := Host.Outcome.next.inj (hu.symm.trans h)
  exact hn

end Sys2Proof.Machine
end

section
/-! PROOFS. What a command cycle and a host access can do to the state, said once, and from it the invariant of the
machine (spec/10_state.md R24, R36, R39, R47; spec/45_system_and_transfer.md R131, R133, R135;
spec/60_exceptions.md R141). -/
namespace Sys2Proof.Machine

/-! ### The size of memory (R10) -/

theorem State.memSize_eq (s : State) : s.memSize = 2 ^ (16 + s.dev.memSizeLog.val) := rfl

theorem State.eight_dvd_memSize (s : State) : 8 ∣ s.memSize := by
  rw [State.memSize_eq]
  exact Nat.pow_dvd_pow 2 (by omega : 3 ≤ 16 + s.dev.memSizeLog.val)

theorem State.memSize_le (s : State) : s.memSize ≤ 2 ^ 31 := by
  have := s.dev.memSizeLog.isLt
  rw [State.memSize_eq]
  exact Nat.pow_le_pow_right (by decide) (by omega)

/-! ### What a command cycle does -/

theorem State.fetchFault_cause (s : State) (c : Cause) (h : s.fetchFault = some c) : c ≠ .none := by
  rw [State.fetchFault] at h
  repeat' (split at h)
  all_goals cases h
  all_goals decide

/-- A command cycle answers a next state: it takes a fault, or CP passes the two checks of the fetch and the decoded
command has one of its effects (R73, R74, R131). -/
theorem commandCycle_cases (s : State) : ∃ t, commandCycle s = .next t ∧
    ((∃ c addr w0 w1, c ≠ .none ∧ t = s.takeFault c addr w0 w1) ∨
      (s.fetchFault = none ∧ ∃ i, Effect i s t)) := by
  rw [commandCycle]
  cases hf : s.fetchFault with
  | some c => exact ⟨_, rfl, .inl ⟨c, _, _, _, s.fetchFault_cause c hf, rfl⟩⟩
  | none =>
    cases decodeWords s.fetch0 s.fetch1 with
    | illegal e => exact ⟨_, rfl, .inl ⟨.illegal, _, _, _, by decide, rfl⟩⟩
    | command i =>
      obtain ⟨t, ht, effect⟩ := exec_effect i s
      exact ⟨t, ht, .inr ⟨rfl, i, effect⟩⟩

/-! ### What a host access does -/

/-- Everything a host access to one of the two windows can do to the state (R59 to R61). -/
inductive HostEffect (s : State) : State → Prop where
  /-- It returns a word, or does not reach MZC. -/
  | data (d : Word) : HostEffect s { s with hostRData := d }
  /-- It is refused with HERR. -/
  | refused (d : Word) : HostEffect s { s.hostError with hostRData := d }
  /-- It writes a control register. -/
  | control (offset : Nat) (v : Word) : HostEffect s (s.csrWrite offset v)
  /-- It writes device memory, which keeps its canonical form. -/
  | memory (t : State) (same : s.SameButMem t)
      (wf : Memory.wf s.memSize s.mem = true → Memory.wf s.memSize t.mem = true) : HostEffect s t

/-- A device address that the memory window leads to is below MEM_SIZE (R59). -/
theorem routeHost_memory {d : Device} {addr a : Nat} (h : routeHost d addr = .memory a) : a < d.memSize := by
  rw [routeHost] at h
  split at h
  · cases h
  · split at h
    · cases h
      omega
    · cases h

theorem State.windowRead_effect (s : State) (a n : Nat) : HostEffect s (s.windowRead a n) := by
  rw [State.windowRead]
  split
  · exact .refused 0
  · exact .data _

theorem State.windowWrite_effect (s : State) (a n v : Nat) (h : a + n ≤ s.memSize) :
    HostEffect s (s.windowWrite a n v) := by
  rw [State.windowWrite]
  split
  · exact .refused s.hostRData
  · exact .memory _ (s.memWrite_same a n v) fun hs => s.memWrite_wf _ a n v hs h

theorem State.hostRead_effect {s t : State} {addr n : Nat} (h : s.hostRead addr n = .next t) : HostEffect s t := by
  rw [State.hostRead] at h
  split at h
  · cases h
    exact .data s.hostRData
  · split at h <;> cases h
    exact .data _
  · split at h <;> cases h
    exact s.windowRead_effect _ n

theorem State.hostWrite_effect {s t : State} {addr n : Nat} {v : Word} (hn : n = 1 ∨ n = 4)
    (h : s.hostWrite addr n v = .next t) : HostEffect s t := by
  rw [State.hostWrite] at h
  split at h
  · cases h
    exact .data s.hostRData
  · split at h <;> cases h
    exact .control _ v
  · rename_i a route
    split at h <;> cases h
    rename_i aligned
    have inside : a < s.memSize := routeHost_memory route
    have size := s.eight_dvd_memSize
    exact s.windowWrite_effect a n _ (by omega)

/-! ### The invariant under a command -/

theorem State.isWritten_writeF_same (s : State) (r : Reg) {w : Nat} (x : FixedPoint w) :
    (s.writeF r x).isWritten r = true :=
  Vector.getElem_set_self _

theorem State.isWritten_writeF_other (s : State) (r q : Reg) {w : Nat} (x : FixedPoint w) (h : q ≠ r) :
    (s.writeF r x).isWritten q = s.isWritten q :=
  Vector.getElem_set_ne r.isLt q.isLt fun e => h (BitVec.eq_of_toNat_eq e.symm)

/-- Writing a register with an N-bit pattern and completing keeps the invariant (R24, R28). -/
theorem State.Inv.writeF {s : State} (h : s.Inv) (rd : Reg) (x : FixedPoint s.w) :
    (s.writeF rd x).advance.Inv where
  memory := h.memory
  limbs q := by
    by_cases hq : q = rd
    · subst hq
      exact (s.wroteOnly_advance q x).fits
    · show (FixedPoint.ofContainer s.w ((s.writeF rd x).f[q.toNat]'q.isLt)).toContainer = (s.writeF rd x).f[q.toNat]'q.isLt
      rw [s.f_writeF_other rd q x hq]
      exact h.limbs q
  runBits := h.runBits
  recorded := h.recorded
  fresh q hq := by
    have other : q ≠ rd := by
      rintro rfl
      exact absurd ((s.isWritten_writeF_same q x).symm.trans hq) (by decide)
    exact (s.f_writeF_other rd q x other).trans (h.fresh q ((s.isWritten_writeF_other rd q x other).symm.trans hq))

/-- Another canonical memory keeps the invariant (R47). -/
theorem State.Inv.sameButMem {s t : State} (h : s.Inv) (same : s.SameButMem t)
    (wf : Memory.wf s.memSize t.mem = true) : t.Inv := by
  obtain ⟨m, rfl⟩ := same
  exact ⟨wf, h.limbs, h.runBits, h.recorded, h.fresh⟩

/-- Taking a fault in a run keeps the invariant: DONE was 0 and the fault has a cause (R141). -/
theorem State.Inv.takeFault {s : State} (h : s.Inv) (hb : s.busy = true) {c : Cause} (hc : c ≠ .none)
    (addr w0 w1 : Word) : (s.takeFault c addr w0 w1).Inv where
  memory := h.memory
  limbs := h.limbs
  runBits := by
    obtain ⟨done, -⟩ := h.runBits.1 hb
    exact ⟨fun e => absurd e Bool.false_ne_true, fun e => absurd (done.symm.trans e.1) (by decide)⟩
  recorded _ := hc
  fresh := h.fresh

/-- HALT in a run keeps the invariant: FAULT was 0 (R135). -/
theorem State.Inv.endRun {s : State} (h : s.Inv) (hb : s.busy = true) : s.endRun.Inv where
  memory := h.memory
  limbs := h.limbs
  runBits := by
    obtain ⟨-, fault⟩ := h.runBits.1 hb
    exact ⟨fun e => absurd e Bool.false_ne_true, fun e => absurd (fault.symm.trans e.2) (by decide)⟩
  recorded := h.recorded
  fresh := h.fresh

theorem Effect.inv {i : Instr} {s t : State} (effect : Effect i s t) (h : s.Inv) (hb : s.busy = true) : t.Inv := by
  cases effect with
  | register rd x => exact h.writeF rd x
  | memory t same wf =>
    have ht := h.sameButMem same (wf h.memory)
    exact ⟨ht.memory, ht.limbs, ht.runBits, ht.recorded, ht.fresh⟩
  | halt => exact h.endRun hb
  | fault c addr raised => exact h.takeFault hb raised.1 addr _ _

theorem deviceMove_inv {s t : State} (h : s.Inv) (move : deviceMove s = .next t) : t.Inv := by
  rw [deviceMove] at move
  split at move
  · rename_i hb
    obtain ⟨u, hu, hcase⟩ := commandCycle_cases s
    obtain rfl : u = t := Host.Outcome.next.inj (hu.symm.trans move)
    rcases hcase with ⟨c, addr, w0, w1, hc, rfl⟩ | ⟨-, i, effect⟩
    · exact h.takeFault hb hc addr w0 w1
    · exact effect.inv h hb
  · cases move
    exact h

/-! ### The invariant under a move of the host -/

/-- Setting HERR and what the host read keeps the invariant (R146). -/
theorem State.Inv.hostBits {s : State} (h : s.Inv) (e : Bool) (d : Word) :
    { s with herr := e, hostRData := d }.Inv :=
  ⟨h.memory, h.limbs, h.runBits, h.recorded, h.fresh⟩

/-- A host write to CTRL keeps the invariant: a run begins only while FAULT is 0, and clears DONE (R133). -/
theorem State.Inv.writeCtrl {s : State} (h : s.Inv) (v : Word) : (s.writeCtrl v).Inv := by
  have ie : { s with ie := v.getLsbD 1 }.Inv := ⟨h.memory, h.limbs, h.runBits, h.recorded, h.fresh⟩
  simp only [State.writeCtrl]
  split
  · split
    · exact ie.hostBits true s.hostRData
    · rename_i idle
      have fault : s.fault = false := by simp_all
      exact ⟨h.memory, h.limbs, ⟨fun _ => ⟨rfl, fault⟩, fun e => absurd e.1 Bool.false_ne_true⟩, h.recorded, h.fresh⟩
  · exact ie

/-- A host write to STATUS keeps the invariant: it only clears bits (R36). -/
theorem State.Inv.writeStatus {s : State} (h : s.Inv) (v : Word) : (s.writeStatus v).Inv where
  memory := h.memory
  limbs := h.limbs
  runBits := by
    obtain ⟨running, exclusive⟩ := h.runBits
    simp only [State.runBitsExclusive, State.writeStatus, Bool.and_eq_true, Bool.and_eq_false_iff]
    exact ⟨fun hb => ⟨.inl (running hb).1, .inl (running hb).2⟩, fun e => exclusive ⟨e.1.1, e.2.1⟩⟩
  recorded e := h.recorded (Bool.and_eq_true_iff.1 e).1
  fresh := h.fresh

theorem State.Inv.writeCpStart {s : State} (h : s.Inv) (v : Word) : (s.writeCpStart v).Inv := by
  rw [State.writeCpStart]
  split
  · exact h.hostBits true s.hostRData
  · exact ⟨h.memory, h.limbs, h.runBits, h.recorded, h.fresh⟩

theorem State.Inv.writePalsize {s : State} (h : s.Inv) (v : Word) : (s.writePalsize v).Inv := by
  rw [State.writePalsize]
  split
  · exact h.hostBits true s.hostRData
  · exact ⟨h.memory, h.limbs, h.runBits, h.recorded, h.fresh⟩

theorem State.Inv.csrWrite {s : State} (h : s.Inv) (offset : Nat) (v : Word) : (s.csrWrite offset v).Inv := by
  unfold State.csrWrite
  split
  · exact h.writeCtrl v
  · exact h.writeStatus v
  · exact h.writeCpStart v
  · exact h.writePalsize v
  · exact h

theorem HostEffect.inv {s t : State} (effect : HostEffect s t) (h : s.Inv) : t.Inv := by
  cases effect with
  | data d => exact h.hostBits s.herr d
  | refused d => exact h.hostBits true d
  | control offset v => exact h.csrWrite offset v
  | memory t same wf => exact h.sameButMem same (wf h.memory)

/-- Every device has the invariant right after a reset (R155). -/
theorem State.inv_resetOf (d : Device) (n : Nat) : (State.resetOf d n).Inv where
  memory := rfl
  limbs r := by
    have zero : (State.resetOf d n).f[r.toNat]'r.isLt = ⟨0, 0, 0, 0⟩ := Vector.getElem_replicate _
    rw [State.readF, zero]
    simp [FixedPoint.ofContainer, FixedPoint.toContainer]
  runBits := ⟨fun e => absurd e Bool.false_ne_true, fun e => absurd e.1 Bool.false_ne_true⟩
  recorded e := absurd e Bool.false_ne_true
  fresh _ _ := Vector.getElem_replicate _

theorem State.inv_platformReset (s : State) : s.platformReset.Inv :=
  have h := State.inv_resetOf s.dev (s.resets + 1)
  ⟨h.memory, h.limbs, h.runBits, h.recorded, h.fresh⟩

theorem hostMove_inv {m : HostMove} {s t : State} (h : s.Inv) (move : hostMove m s = .next t) : t.Inv := by
  cases m with
  | pass => exact deviceMove_inv h move
  | read8 addr | read32 addr => exact (State.hostRead_effect move).inv h
  | write8 addr v => exact (State.hostWrite_effect (.inl rfl) move).inv h
  | write32 addr v => exact (State.hostWrite_effect (.inr rfl) move).inv h
  | reset =>
    obtain rfl := Host.Outcome.next.inj move
    exact s.inv_platformReset

/-- Settles O56, by the case of the move: MZC's own, by the effects of a command cycle; the host's, by the effects of a
host access or by the values after a reset. -/
theorem stepKeepsTheInvariant : Obligations.StepKeepsTheInvariant := by
  intro s t h move
  rw [step, machineMove] at move
  split at move
  · exact deviceMove_inv h move
  · rename_i m rest _
    have h' : { s with host := rest }.Inv := ⟨h.memory, h.limbs, h.runBits, h.recorded, h.fresh⟩
    exact hostMove_inv h' move

end Sys2Proof.Machine
end

section
/-! PROOFS. A register that no command has written cannot influence a safe step (spec/10_state.md R25, R27): the machine
run with other contents of unwritten registers makes the same step, but for those contents. -/
namespace Sys2Proof.Machine

/-- The same state with other register contents. -/
def State.withRegs (s : State) (f : Vector (FixedPoint 64) 16) : State := { s with f := f }

theorem State.ite_withRegs {c : Prop} {d d' : Decidable c} {s t s' t' : State}
    {f : Vector (FixedPoint 64) 16} (hs : s' = s.withRegs f) (ht : t' = t.withRegs f) :
    @ite State c d' s' t' = (@ite State c d s t).withRegs f := by
  subst hs ht
  obtain rfl := Subsingleton.elim d d'
  exact (apply_ite (State.withRegs · f) c s t).symm

/-! ### What reads no register -/

theorem State.memRead_withRegs (s : State) (f : Vector (FixedPoint 64) 16) (a k : Nat) :
    (s.withRegs f).memRead a k = s.memRead a k :=
  State.memRead_congr _ _ a k fun _ _ _ => rfl

theorem State.wordAt_withRegs (s : State) (f : Vector (FixedPoint 64) 16) (a : Nat) :
    (s.withRegs f).wordAt a = s.wordAt a := by
  rw [State.wordAt, State.wordAt, State.memRead_withRegs]

theorem State.loadFP_withRegs (s : State) (f : Vector (FixedPoint 64) 16) (w a : Nat) :
    (s.withRegs f).loadFP w a = s.loadFP w a :=
  State.loadFP_congr _ _ w a fun _ _ _ => rfl

theorem State.scanText_withRegs (s : State) (f : Vector (FixedPoint 64) 16) (a k : Nat) :
    (s.withRegs f).scanText a k = s.scanText a k := by
  induction k generalizing a with
  | zero => rfl
  | succ k ih =>
    rw [State.scanText, State.scanText, ih]
    rfl

theorem State.parseAt_withRegs (s : State) (f : Vector (FixedPoint 64) 16) (a : Word) :
    (s.withRegs f).parseAt a = s.parseAt a := by
  rw [State.parseAt, State.parseAt, State.scanText_withRegs]
  cases s.scanText a.toNat (Config.strMax + 1) with
  | outOfRange | noEnd => rfl
  | text bytes =>
    dsimp only
    cases Codec.split bytes with
    | none => rfl
    | some t =>
      dsimp only
      have value : Codec.parseValue (s.withRegs f).w (s.withRegs f).dev.negIntParse t
          = Codec.parseValue s.w s.dev.negIntParse t := rfl
      rw [value]
      cases Codec.parseValue s.w s.dev.negIntParse t <;> rfl

/-! ### What changes no register -/

theorem State.memWrite_withRegs (s : State) (f : Vector (FixedPoint 64) 16) (a k v : Nat) :
    (s.withRegs f).memWrite a k v = (s.memWrite a k v).withRegs f := by
  induction k generalizing s a v with
  | zero => rfl
  | succ k ih => exact ih (s.setByte a (BitVec.ofNat 8 v)) (a + 1) (v / 256)

theorem State.writeBytes_withRegs (s : State) (f : Vector (FixedPoint 64) 16) (a : Nat) (bs : List Byte) :
    (s.withRegs f).writeBytes a bs = (s.writeBytes a bs).withRegs f := by
  induction bs generalizing s a with
  | nil => rfl
  | cons b bs ih => exact ih (s.setByte a b) (a + 1)

theorem State.storeFP_withRegs (s : State) (f : Vector (FixedPoint 64) 16) (a : Nat) {w : Nat} (x : FixedPoint w) :
    (s.withRegs f).storeFP a x = (s.storeFP a x).withRegs f := by
  simp only [State.storeFP, List.foldl, State.memWrite_withRegs]

theorem State.renderPixel_withRegs {w : Nat} (sn : Snapshot w) (s : State) (f : Vector (FixedPoint 64) 16) (k : Nat) :
    State.renderPixel sn (s.withRegs f) k = (State.renderPixel sn s k).withRegs f := by
  simp only [State.renderPixel, State.loadFP_withRegs, State.memWrite_withRegs]
  rfl

theorem State.renderInOrder_withRegs {w : Nat} (sn : Snapshot w) (s : State) (f : Vector (FixedPoint 64) 16)
    (order : List Nat) :
    State.renderInOrder sn (s.withRegs f) order = (State.renderInOrder sn s order).withRegs f :=
  List.foldl_hom (State.withRegs · f) fun t k => State.renderPixel_withRegs sn t f k

/-! ### Commands -/

/-- The register contents f agree with those of s on the registers that the command reads. -/
def State.AgreesOnSources (s : State) (f : Vector (FixedPoint 64) 16) (i : Instr) : Prop :=
  ∀ r ∈ sources i, f[r.toNat]'r.isLt = s.f[r.toNat]'r.isLt

theorem State.AgreesOnSources.readF {s : State} {f : Vector (FixedPoint 64) 16} {i : Instr}
    (h : s.AgreesOnSources f i) {r : Reg} (hr : r ∈ sources i) : (s.withRegs f).readF r = s.readF r :=
  congrArg (FixedPoint.ofContainer s.w) (h r hr)

/-- With the same contents in its three registers ESCAPE takes the same snapshot (R120). -/
theorem State.AgreesOnSources.snapshot {s : State} {f : Vector (FixedPoint 64) 16} {ra rb rc : Reg} {d : Word}
    (h : s.AgreesOnSources f (.escape ra rb rc d)) :
    (s.withRegs f).snapshot ra rb rc d = s.snapshot ra rb rc d := by
  simp only [State.snapshot, State.wordAt_withRegs, h.readF (r := ra) (by simp [sources]),
    h.readF (r := rb) (by simp [sources]), h.readF (r := rc) (by simp [sources])]
  rfl

theorem State.AgreesOnSources.escapeVerdict {s : State} {f : Vector (FixedPoint 64) 16} {ra rb rc : Reg} {d : Word}
    (h : s.AgreesOnSources f (.escape ra rb rc d)) :
    (s.withRegs f).escapeVerdict ra rb rc d = s.escapeVerdict ra rb rc d := by
  rw [State.escapeVerdict, State.escapeVerdict, h.snapshot]
  rfl

/-- Two moves of MZC that differ in register contents alone: both write the same value to the same register, or
neither touches a register. -/
inductive SameMove (s : State) (f : Vector (FixedPoint 64) 16) : State → State → Prop where
  | register (rd : Reg) (x : FixedPoint s.w) :
      SameMove s f (s.writeF rd x).advance ((s.withRegs f).writeF rd x).advance
  | rest (t : State) (regs : t.f = s.f) (written : t.written = s.written) : SameMove s f t (t.withRegs f)

/-- The register case, from two values that are equal. -/
theorem SameMove.register_of_eq {s : State} {f : Vector (FixedPoint 64) 16} (rd : Reg) {x y : FixedPoint s.w}
    (h : y = x) : SameMove s f (s.writeF rd x).advance ((s.withRegs f).writeF rd y).advance := by
  subst h
  exact .register rd y

/-- A command that changes memory alone and completes. -/
theorem SameMove.completes {s : State} {f : Vector (FixedPoint 64) 16} (t : State) (regs : t.f = s.f)
    (written : t.written = s.written) : SameMove s f t.advance (t.withRegs f).advance :=
  .rest t.advance regs written

/-- A command run with register contents that agree on the registers it reads makes the same move. -/
theorem exec_withRegs (i : Instr) (s : State) (f : Vector (FixedPoint 64) 16) (h : s.AgreesOnSources f i) :
    ∃ t t', exec i s = .next t ∧ exec i (s.withRegs f) = .next t' ∧ SameMove s f t t' := by
  cases i with
  | nop | halt => exact ⟨_, _, rfl, rfl, .rest _ rfl rfl⟩
  | ldi rd imm => exact ⟨_, _, rfl, rfl, .register rd _⟩
  | mov rd ra => exact ⟨_, _, rfl, rfl, .register_of_eq rd (h.readF (by simp [sources]))⟩
  | inc rd ra => exact ⟨_, _, rfl, rfl, .register_of_eq rd (congrArg FixedPoint.inc (h.readF (by simp [sources])))⟩
  | neg rd ra => exact ⟨_, _, rfl, rfl, .register_of_eq rd (congrArg FixedPoint.neg (h.readF (by simp [sources])))⟩
  | dbl rd ra => exact ⟨_, _, rfl, rfl, .register_of_eq rd (congrArg FixedPoint.dbl (h.readF (by simp [sources])))⟩
  | sqr rd ra =>
    exact ⟨_, _, rfl, rfl,
      .register_of_eq rd (congrArg (FixedPoint.sqr s.dev.carryMode) (h.readF (by simp [sources])))⟩
  | add rd ra rb =>
    exact ⟨_, _, rfl, rfl, .register_of_eq rd (congrArg₂ (FixedPoint.add s.dev.carryMode)
      (h.readF (by simp [sources])) (h.readF (by simp [sources])))⟩
  | mul rd ra rb =>
    exact ⟨_, _, rfl, rfl, .register_of_eq rd (congrArg₂ (FixedPoint.mul s.dev.carryMode)
      (h.readF (by simp [sources])) (h.readF (by simp [sources])))⟩
  | ldf rd a =>
    cases hv : s.valueAddrFault a with
    | some c =>
      exact ⟨_, _, exec_ldf_of_fault rd hv, exec_ldf_of_fault (s := s.withRegs f) rd hv, .rest _ rfl rfl⟩
    | none =>
      exact ⟨_, _, exec_ldf_of_valid rd hv, exec_ldf_of_valid (s := s.withRegs f) rd hv,
        .register_of_eq rd (s.loadFP_withRegs f s.w a.toNat)⟩
  | stf ra a =>
    cases hv : s.valueAddrFault a with
    | some c =>
      exact ⟨_, _, exec_stf_of_fault ra hv, exec_stf_of_fault (s := s.withRegs f) ra hv, .rest _ rfl rfl⟩
    | none =>
      have stored : (s.withRegs f).storeFP a.toNat ((s.withRegs f).readF ra)
          = (s.storeFP a.toNat (s.readF ra)).withRegs f :=
        (congrArg (fun x : FixedPoint s.w => (s.withRegs f).storeFP a.toNat x)
          (h.readF (by simp [sources]))).trans (s.storeFP_withRegs f _ _)
      refine ⟨_, _, exec_stf_of_valid ra hv, exec_stf_of_valid (s := s.withRegs f) ra hv, ?_⟩
      rw [stored]
      exact .completes _ (State.storeFP_f _ _ _) (State.storeFP_written _ _ _)
  | parse rd a =>
    have same := s.parseAt_withRegs f a
    cases hp : s.parseAt a with
    | inl x => exact ⟨_, _, exec_parse_of_value rd hp, exec_parse_of_value rd (same.trans hp), .register rd x⟩
    | inr r => exact ⟨_, _, exec_parse_of_fault rd hp, exec_parse_of_fault rd (same.trans hp), .rest _ rfl rfl⟩
  | fmt ra a =>
    have same : Codec.formatText ((s.withRegs f).readF ra) = Codec.formatText (s.readF ra) :=
      congrArg Codec.formatText (h.readF (by simp [sources]))
    cases hr : s.inRange a.toNat ((Codec.formatText (s.readF ra)).length + 1) with
    | false =>
      exact ⟨_, _, exec_fmt_of_fault hr, exec_fmt_of_fault (s := s.withRegs f) (same ▸ hr), .rest _ rfl rfl⟩
    | true =>
      refine ⟨_, _, exec_fmt_of_inRange hr, exec_fmt_of_inRange (s := s.withRegs f) (same ▸ hr), ?_⟩
      rw [same, State.writeBytes_withRegs]
      exact .completes _ (State.writeBytes_f _ _ _) (State.writeBytes_written _ _ _)
  | escape ra rb rc d =>
    have same := h.escapeVerdict
    cases hv : s.escapeVerdict ra rb rc d with
    | fault c addr =>
      exact ⟨_, _, exec_escape_of_fault hv, exec_escape_of_fault (same.trans hv), .rest _ rfl rfl⟩
    | empty => exact ⟨_, _, exec_escape_of_empty hv, exec_escape_of_empty (same.trans hv), .rest _ rfl rfl⟩
    | render =>
      have rendered : State.renderInOrder ((s.withRegs f).snapshot ra rb rc d) (s.withRegs f)
            (List.range ((s.withRegs f).snapshot ra rb rc d).npix)
          = (State.renderInOrder (s.snapshot ra rb rc d) s (List.range (s.snapshot ra rb rc d).npix)).withRegs f :=
        (congrArg (fun sn : Snapshot s.w => State.renderInOrder sn (s.withRegs f) (List.range sn.npix))
          h.snapshot).trans (State.renderInOrder_withRegs _ s f _)
      refine ⟨_, _, exec_escape_of_render hv, exec_escape_of_render (same.trans hv), ?_⟩
      rw [rendered]
      exact .completes _ (State.renderInOrder_f _ _ _) (State.renderInOrder_written _ _ _)

/-! ### Agreement on the written registers (R25) -/

theorem State.f_writeF_same (s : State) (r : Reg) {w : Nat} (x : FixedPoint w) :
    (s.writeF r x).f[r.toNat]'r.isLt = x.toContainer :=
  Vector.getElem_set_self _

/-- The same move of MZC keeps the agreement on the written registers. -/
theorem SameMove.agree {s t t' : State} {f : Vector (FixedPoint 64) 16} (h : s.AgreeOnWritten (s.withRegs f))
    (move : SameMove s f t t') : t.AgreeOnWritten t' := by
  cases move with
  | register rd x =>
    refine ⟨rfl, fun q hq => ?_⟩
    by_cases hr : q = rd
    · subst hr
      calc ((s.withRegs f).writeF q x).f[q.toNat]'q.isLt
        _ = x.toContainer := State.f_writeF_same _ q x
        _ = (s.writeF q x).f[q.toNat]'q.isLt := (s.f_writeF_same q x).symm
    · have written : s.isWritten q = true := (s.isWritten_writeF_other rd q x hr).symm.trans hq
      calc ((s.withRegs f).writeF rd x).f[q.toNat]'q.isLt
        _ = f[q.toNat]'q.isLt := State.f_writeF_other _ rd q x hr
        _ = s.f[q.toNat]'q.isLt := h.registers q written
        _ = (s.writeF rd x).f[q.toNat]'q.isLt := (s.f_writeF_other rd q x hr).symm
  | rest _ regs written =>
    refine ⟨rfl, fun q hq => ?_⟩
    have hq' : s.isWritten q = true := by simpa only [State.isWritten, written] using hq
    exact (h.registers q hq').trans (by simp only [regs])

/-- In a safe state the registers that the next command reads agree. -/
theorem State.AgreeOnWritten.sources {s : State} {f : Vector (FixedPoint 64) 16}
    (h : s.AgreeOnWritten (s.withRegs f)) (safe : s.safe = true) {i : Instr} (next : s.nextCommand = some i) :
    s.AgreesOnSources f i := by
  rw [State.safe, next] at safe
  exact fun r hr => h.registers r (List.all_eq_true.1 safe r hr)

/-- MZC's own move in a safe state: idle, a fault of the fetch or the decode, or a command that reads written registers
only. -/
theorem deviceMove_withRegs {s t : State} {f : Vector (FixedPoint 64) 16} (h : s.AgreeOnWritten (s.withRegs f))
    (safe : s.safe = true) (move : deviceMove s = .next t) :
    ∃ t', deviceMove (s.withRegs f) = .next t' ∧ SameMove s f t t' := by
  have word0 : (s.withRegs f).fetch0 = s.fetch0 := s.wordAt_withRegs f _
  have word1 : (s.withRegs f).fetch1 = s.fetch1 := s.wordAt_withRegs f _
  have check : (s.withRegs f).fetchFault = s.fetchFault := rfl
  rw [deviceMove] at move
  split at move
  case isFalse idle =>
    cases move
    exact ⟨_, if_neg idle, .rest s rfl rfl⟩
  case isTrue busy =>
    have run : deviceMove (s.withRegs f) = commandCycle (s.withRegs f) := if_pos busy
    rw [commandCycle] at move
    rw [run, commandCycle, check, word0, word1]
    cases hf : s.fetchFault with
    | some c =>
      rw [hf] at move
      cases move
      exact ⟨_, rfl, .rest _ rfl rfl⟩
    | none =>
      rw [hf] at move
      cases hd : decodeWords s.fetch0 s.fetch1 with
      | illegal e =>
        rw [hd] at move
        cases move
        exact ⟨_, rfl, .rest _ rfl rfl⟩
      | command i =>
        rw [hd] at move
        have next : s.nextCommand = some i := by rw [State.nextCommand, if_pos ⟨busy, hf⟩, hd]
        obtain ⟨u, u', hu, hu', same⟩ := exec_withRegs i s f (h.sources safe next)
        obtain rfl : u = t := Host.Outcome.next.inj (hu.symm.trans move)
        exact ⟨u', hu', same⟩

/-! ### Moves of the host -/

theorem State.csrWrite_withRegs (s : State) (f : Vector (FixedPoint 64) 16) (offset : Nat) (v : Word) :
    (s.withRegs f).csrWrite offset v = (s.csrWrite offset v).withRegs f := by
  unfold State.csrWrite
  split
  · simp only [State.writeCtrl]
    split
    · exact State.ite_withRegs rfl rfl
    · rfl
  · rfl
  · exact State.ite_withRegs rfl rfl
  · exact State.ite_withRegs rfl rfl
  · rfl

theorem State.windowRead_withRegs (s : State) (f : Vector (FixedPoint 64) 16) (a n : Nat) :
    (s.withRegs f).windowRead a n = (s.windowRead a n).withRegs f := by
  rw [State.windowRead, State.windowRead, State.memRead_withRegs]
  exact State.ite_withRegs rfl rfl

theorem State.windowWrite_withRegs (s : State) (f : Vector (FixedPoint 64) 16) (a n v : Nat) :
    (s.withRegs f).windowWrite a n v = (s.windowWrite a n v).withRegs f := by
  rw [State.windowWrite, State.windowWrite, State.memWrite_withRegs]
  exact State.ite_withRegs rfl rfl

theorem State.hostRead_withRegs {s t : State} (f : Vector (FixedPoint 64) 16) {addr n : Nat}
    (h : s.hostRead addr n = .next t) : (s.withRegs f).hostRead addr n = .next (t.withRegs f) := by
  have route : routeHost (s.withRegs f).dev addr = routeHost s.dev addr := rfl
  rw [State.hostRead] at h
  rw [State.hostRead, route]
  cases hr : routeHost s.dev addr with
  | outside =>
    rw [hr] at h
    cases h
    rfl
  | control offset =>
    rw [hr] at h
    dsimp only at h ⊢
    split at h <;> cases h
    rename_i defined
    rw [if_pos defined]
    rfl
  | memory a =>
    rw [hr] at h
    dsimp only at h ⊢
    split at h <;> cases h
    rename_i defined
    rw [if_pos defined, State.windowRead_withRegs]

theorem State.hostWrite_withRegs {s t : State} (f : Vector (FixedPoint 64) 16) {addr n : Nat} {v : Word}
    (h : s.hostWrite addr n v = .next t) : (s.withRegs f).hostWrite addr n v = .next (t.withRegs f) := by
  have route : routeHost (s.withRegs f).dev addr = routeHost s.dev addr := rfl
  rw [State.hostWrite] at h
  rw [State.hostWrite, route]
  cases hr : routeHost s.dev addr with
  | outside =>
    rw [hr] at h
    cases h
    rfl
  | control offset =>
    rw [hr] at h
    dsimp only at h ⊢
    split at h <;> cases h
    rename_i defined
    rw [if_pos defined, State.csrWrite_withRegs]
  | memory a =>
    rw [hr] at h
    dsimp only at h ⊢
    split at h <;> cases h
    rename_i defined
    rw [if_pos defined, State.windowWrite_withRegs]

/-- A host access changes no register and no record of what has been written. -/
theorem HostEffect.registers {s t : State} (effect : HostEffect s t) : t.f = s.f ∧ t.written = s.written := by
  cases effect with
  | data d | refused d => exact ⟨rfl, rfl⟩
  | control offset v =>
    unfold State.csrWrite State.writeCtrl State.writeCpStart State.writePalsize
    dsimp only
    repeat' split
    all_goals exact ⟨rfl, rfl⟩
  | memory t same =>
    obtain ⟨m, rfl⟩ := same
    exact ⟨rfl, rfl⟩

/-- A move of the host, or MZC's when the host passes. -/
theorem hostMove_agree {m : HostMove} {s t : State} {f : Vector (FixedPoint 64) 16}
    (h : s.AgreeOnWritten (s.withRegs f)) (safe : s.safe = true) (move : hostMove m s = .next t) :
    ∃ t', hostMove m (s.withRegs f) = .next t' ∧ t.AgreeOnWritten t' := by
  have access (effect : HostEffect s t) : t.AgreeOnWritten (t.withRegs f) :=
    (SameMove.rest t effect.registers.1 effect.registers.2).agree h
  cases m with
  | pass =>
    obtain ⟨t', move', same⟩ := deviceMove_withRegs h safe move
    exact ⟨t', move', same.agree h⟩
  | read8 addr | read32 addr => exact ⟨_, State.hostRead_withRegs f move, access (State.hostRead_effect move)⟩
  | write8 addr v => exact ⟨_, State.hostWrite_withRegs f move, access (State.hostWrite_effect (.inl rfl) move)⟩
  | write32 addr v => exact ⟨_, State.hostWrite_withRegs f move, access (State.hostWrite_effect (.inr rfl) move)⟩
  | reset =>
    obtain rfl := Host.Outcome.next.inj move
    exact ⟨_, rfl, rfl, fun _ _ => rfl⟩

/-- Settles O59: the second state is the first with other register contents, and each kind of move keeps the
agreement. -/
theorem unwrittenRegistersAreUnobservable : Obligations.UnwrittenRegistersAreUnobservable := by
  intro s s' t h safe move
  obtain ⟨f, rfl⟩ : ∃ f, s' = s.withRegs f := ⟨s'.f, h.rest⟩
  rw [step, machineMove] at move ⊢
  have script : (s.withRegs f).host = s.host := rfl
  rw [script]
  split at move
  case h_1 =>
    obtain ⟨t', move', same⟩ := deviceMove_withRegs h safe move
    exact ⟨t', move', same.agree h⟩
  case h_2 m rest _ =>
    exact hostMove_agree (s := { s with host := rest }) ⟨rfl, h.registers⟩ safe move

end Sys2Proof.Machine
end

section
/-! PROOFS. What a command leaves of the control block, precise faults, and that every run ends (spec/10_state.md R28 to
R42; spec/45_system_and_transfer.md R131, R132; spec/60_exceptions.md R141). -/
namespace Sys2Proof.Machine

/-! ### Commands and the control block -/

/-- A command other than HALT leaves DONE (R36). -/
theorem exec_done {i : Instr} {s t : State} (hi : i ≠ .halt) (h : exec i s = .next t) : t.done = s.done := by
  cases i with
  | halt => exact absurd rfl hi
  | nop | ldi | mov | inc | neg | dbl | add | mul | sqr =>
    obtain rfl := Host.Outcome.next.inj h
    rfl
  | ldf rd a =>
    obtain rfl := Host.Outcome.next.inj h
    split <;> rfl
  | stf ra a =>
    obtain rfl := Host.Outcome.next.inj h
    split
    · rfl
    · exact (State.advance_done _).trans (State.storeFP_done _ _ _)
  | parse rd a =>
    obtain rfl := Host.Outcome.next.inj h
    split <;> rfl
  | fmt ra a =>
    obtain rfl := Host.Outcome.next.inj h
    dsimp only
    split
    · rfl
    · exact (State.advance_done _).trans (State.writeBytes_done _ _ _)
  | escape ra rb rc d =>
    obtain rfl := Host.Outcome.next.inj h
    split
    · rfl
    · rfl
    · exact (State.advance_done _).trans (State.renderInOrder_done _ _ _)

/-- What a command leaves of the control block: the parameters, IE, HERR, CPSTART and PALSIZE (R30, R35, R37, R42). -/
theorem Effect.control {i : Instr} {s t : State} (effect : Effect i s t) :
    t.dev = s.dev ∧ t.ie = s.ie ∧ t.herr = s.herr ∧ t.cpStart = s.cpStart ∧ t.palsize = s.palsize := by
  cases effect with
  | register rd x => exact ⟨rfl, rfl, rfl, rfl, rfl⟩
  | memory t same =>
    obtain ⟨m, rfl⟩ := same
    exact ⟨rfl, rfl, rfl, rfl, rfl⟩
  | halt => exact ⟨rfl, rfl, rfl, rfl, rfl⟩
  | fault c addr => exact ⟨rfl, rfl, rfl, rfl, rfl⟩

/-- A command takes a fault, or leaves FAULT and the fault record (R39 to R41). -/
theorem Effect.fault_record {i : Instr} {s t : State} (effect : Effect i s t) :
    (∃ c addr, c ≠ .none ∧ t = s.faultIn i c addr) ∨
    (t.fault = s.fault ∧ t.fcause = s.fcause ∧ t.faddr = s.faddr ∧ t.fcmd0 = s.fcmd0 ∧ t.fcmd1 = s.fcmd1) := by
  cases effect with
  | register rd x => exact .inr ⟨rfl, rfl, rfl, rfl, rfl⟩
  | memory t same =>
    obtain ⟨m, rfl⟩ := same
    exact .inr ⟨rfl, rfl, rfl, rfl, rfl⟩
  | halt => exact .inr ⟨rfl, rfl, rfl, rfl, rfl⟩
  | fault c addr raised => exact .inl ⟨c, addr, raised.1, rfl⟩

/-- Settles O46: of the effects of a command, taking a fault is the only one that sets FAULT. -/
theorem faultsArePrecise : Obligations.FaultsArePrecise := by
  intro i s t h before after
  obtain ⟨u, hu, effect⟩ := exec_effect i s
  obtain rfl : u = t := Host.Outcome.next.inj (hu.symm.trans h)
  rcases effect.fault_record with ⟨c, addr, raised, rfl⟩ | ⟨same, -⟩
  · exact ⟨c, addr, raised, rfl⟩
  · exact absurd ((before.symm.trans same.symm).trans after) Bool.false_ne_true

/-- Settles O47, by the effects of a command. -/
theorem commandsLeaveTheControlBlock : Obligations.CommandsLeaveTheControlBlock := by
  intro i s t h
  obtain ⟨u, hu, effect⟩ := exec_effect i s
  obtain rfl : u = t := Host.Outcome.next.inj (hu.symm.trans h)
  obtain ⟨dev, ie, herr, cpStart, palsize⟩ := effect.control
  refine ⟨dev, ie, herr, cpStart, palsize, fun hi => exec_done hi h, fun _ after => ?_⟩
  rcases effect.fault_record with ⟨c, addr, -, rfl⟩ | ⟨-, record⟩
  · exact absurd after.symm Bool.false_ne_true
  · exact record

/-! ### Every run ends (R132) -/

/-- A command ends the run with DONE or FAULT, or completes: CP advances by 8, and nothing but registers and memory
changes beside it (R28). -/
theorem Effect.ends_or_advances {i : Instr} {s t : State} (effect : Effect i s t) :
    (t.busy = false ∧ (t.done = true ∨ t.fault = true)) ∨
    t = { s with f := t.f, written := t.written, mem := t.mem, cp := s.cp + 8 } := by
  cases effect with
  | register rd x => exact .inr rfl
  | memory t same =>
    obtain ⟨m, rfl⟩ := same
    exact .inr rfl
  | halt => exact .inl ⟨rfl, .inl rfl⟩
  | fault c addr => exact .inl ⟨rfl, .inr rfl⟩

theorem step_of_no_move {s : State} (hb : s.busy = true) (hh : s.host = []) : step s = commandCycle s := by
  rw [step, machineMove, hh]
  exact if_pos hb

/-- A step of a run ends it with DONE or FAULT, or goes on with CP below MEM_SIZE advanced by 8. -/
theorem step_ends_or_advances {s : State} (hb : s.busy = true) (hh : s.host = []) : ∃ t, step s = .next t ∧
    ((t.busy = false ∧ (t.done = true ∨ t.fault = true)) ∨
      (t.busy = true ∧ t.host = [] ∧ t.memSize = s.memSize ∧ s.cp.toNat < s.memSize ∧
        t.cp.toNat = s.cp.toNat + 8)) := by
  obtain ⟨t, ht, hcase⟩ := commandCycle_cases s
  refine ⟨t, (step_of_no_move hb hh).trans ht, ?_⟩
  rcases hcase with ⟨c, addr, w0, w1, -, rfl⟩ | ⟨fetched, i, effect⟩
  · exact .inl ⟨rfl, .inr rfl⟩
  · refine effect.ends_or_advances.imp_right fun same => ?_
    obtain ⟨-, inRange⟩ := s.fetchFault_none.1 fetched
    have size := s.memSize_le
    have cp : t.cp.toNat = s.cp.toNat + 8 := by
      rw [same, BitVec.toNat_add_of_lt]
      · rfl
      · change s.cp.toNat + 8 < 2 ^ 32
        omega
    rw [same] at cp ⊢
    exact ⟨hb, hh, rfl, by omega, cp⟩

theorem run_succ {s t : State} (h : step s = .next t) (k : Nat) : core.run (k + 1) s = core.run k t := by
  have h' : core.step s = .next t := h
  simp only [Host.Core.run, h']

/-- A run whose CP is at most 8 n bytes below the end of memory ends within n + 1 steps. -/
theorem run_ends (n : Nat) (s : State) (hb : s.busy = true) (hh : s.host = []) (hn : s.memSize ≤ s.cp.toNat + 8 * n) :
    ∃ (k : Nat) (t : State), k ≤ n + 1 ∧ core.run k s = .next t ∧
      t.busy = false ∧ (t.done = true ∨ t.fault = true) := by
  induction n generalizing s with
  | zero =>
    obtain ⟨t, ht, ended | ⟨-, -, -, below, -⟩⟩ := step_ends_or_advances hb hh
    · exact ⟨1, t, le_rfl, run_succ ht 0, ended⟩
    · omega
  | succ n ih =>
    obtain ⟨t, ht, ended | ⟨busy, host, size, -, cp⟩⟩ := step_ends_or_advances hb hh
    · exact ⟨1, t, by omega, run_succ ht 0, ended⟩
    · obtain ⟨k, u, hk, run, ended⟩ := ih t busy host (by omega)
      exact ⟨k + 1, u, by omega, (run_succ ht k).trans run, ended⟩

/-- Settles O58: each step that goes on advances CP by 8, and CP cannot pass the end of memory. -/
theorem everyRunEnds : Obligations.EveryRunEnds := by
  intro s hb hh
  have size := s.eight_dvd_memSize
  exact run_ends (s.memSize / 8) s hb hh (by omega)

end Sys2Proof.Machine
end

section
/-! PROOFS. The control block as the host reads and writes it (spec/10_state.md R30 to R43, R59; spec/60_exceptions.md
R140, R146). -/
namespace Sys2Proof.Machine

/-! ### An access to the control block -/

theorem routeHost_control (d : Device) {offset : Nat} (h : offset < 0x1000) :
    routeHost d (d.hostCsrBase + offset) = .control offset := by
  rw [routeHost, if_pos (by omega), Nat.add_sub_cancel_left]

/-- A 32-bit host read of the register at a multiple of 4 in the control block (R59, R60). -/
theorem step_read_control {s : State} {offset : Nat} {rest : List HostMove}
    (h : s.host = .read32 (s.dev.hostCsrBase + offset) :: rest) (inside : offset < 0x1000)
    (aligned : offset % 4 = 0) : step s = .next { s with host := rest, hostRData := s.csrRead offset } := by
  rw [step, machineMove, h]
  show State.hostRead { s with host := rest } (s.dev.hostCsrBase + offset) 4 = _
  rw [State.hostRead, routeHost_control s.dev inside]
  exact if_pos ⟨rfl, aligned⟩

/-- A 32-bit host write of the register at a multiple of 4 in the control block (R59, R60). -/
theorem step_write_control {s : State} {offset : Nat} {v : Word} {rest : List HostMove}
    (h : s.host = .write32 (s.dev.hostCsrBase + offset) v :: rest) (inside : offset < 0x1000)
    (aligned : offset % 4 = 0) : step s = .next ({ s with host := rest }.csrWrite offset v) := by
  rw [step, machineMove, h]
  show State.hostWrite { s with host := rest } (s.dev.hostCsrBase + offset) 4 v = _
  rw [State.hostWrite, routeHost_control s.dev inside]
  exact if_pos ⟨rfl, aligned⟩

/-! ### STATUS (R36) -/

theorem getLsbD_bitWord (b : Bool) (k : Nat) : (bitWord b).getLsbD k = (k == 0 && b) := by
  cases k with
  | zero => cases b <;> rfl
  | succ k => simp [bitWord]

/-- The bits of STATUS as the host reads it. -/
theorem State.getLsbD_statusWord (s : State) (k : Nat) : s.statusWord.getLsbD k =
    ((k == 0 && s.busy) || (k == 1 && s.done) || (k == 2 && s.fault) || (k == 3 && s.herr)) := by
  simp only [State.statusWord, BitVec.getLsbD_or, BitVec.getLsbD_shiftLeft, getLsbD_bitWord]
  match k with
  | 0 | 1 | 2 | 3 => simp
  | k + 4 => simp

/-- Settles O50, by the bits of the word read and the equation of the write. -/
theorem statusRegister : Obligations.StatusRegister := by
  intro s v rest
  refine ⟨fun h => ⟨s.statusWord, step_read_control h (by decide) (by decide), s.getLsbD_statusWord⟩, fun h => ?_⟩
  exact step_write_control h (by decide) (by decide)

/-! ### CPSTART and PALSIZE (R37, R42) -/

/-- Settles O51, by the equation of a write to the control block. -/
theorem hostWritesWhileBusy : Obligations.HostWritesWhileBusy := by
  intro s v rest
  exact ⟨fun h => step_write_control h (by decide) (by decide), fun h => step_write_control h (by decide) (by decide)⟩

/-! ### The other registers -/

/-- A write to any offset but those of CTRL, STATUS, CPSTART and PALSIZE is ignored (R30). -/
theorem State.csrWrite_ignored (s : State) {k : Nat} (v : Word) (h : k ∉ [4, 5, 6, 12]) :
    s.csrWrite (4 * k) v = s := by
  simp only [List.mem_cons, List.not_mem_nil, or_false, not_or] at h
  unfold State.csrWrite
  split
  · omega
  · omega
  · omega
  · omega
  · rfl

/-- Reserved offsets read 0 (R43). -/
theorem State.csrRead_reserved (s : State) {offset : Nat} (h : 0x030 < offset) : s.csrRead offset = 0 := by
  unfold State.csrRead
  split
  case h_14 => rfl
  all_goals omega

theorem State.ctrlWord_eq (s : State) : s.ctrlWord = if s.ie then 2 else 0 := by
  rw [State.ctrlWord]
  cases s.ie <;> rfl

/-- Fields that do not overlap add up. -/
theorem toNat_or_shiftLeft (x y : Word) (k : Nat) (hx : x.toNat < 2 ^ k) (hy : y.toNat * 2 ^ k < 2 ^ 32) :
    (x ||| y <<< k).toNat = x.toNat + y.toNat * 2 ^ k := by
  rw [BitVec.toNat_or, BitVec.toNat_shiftLeft, Nat.shiftLeft_eq, Nat.mod_eq_of_lt hy, Nat.lor_comm,
    ← Nat.shiftLeft_eq, ← Nat.shiftLeft_add_eq_or_of_lt hx, Nat.add_comm]

theorem toNat_bitWord_lt (b : Bool) : (bitWord b).toNat < 2 := by
  cases b <;> decide

/-- The five fields of CFG, side by side (R32). -/
theorem cfgFields_eq {w k lanes carry parse : Word} (hw : w.toNat < 2 ^ 8) (hk : k.toNat < 2 ^ 8)
    (hl : lanes.toNat < 2 ^ 8) (hc : carry.toNat < 2) (hp : parse.toNat < 2) :
    w ||| k <<< 8 ||| lanes <<< 16 ||| carry <<< 24 ||| parse <<< 25 = BitVec.ofNat 32
      (w.toNat + k.toNat * 2 ^ 8 + lanes.toNat * 2 ^ 16 + carry.toNat * 2 ^ 24 + parse.toNat * 2 ^ 25) := by
  have e1 := toNat_or_shiftLeft w k 8 (by omega) (by omega)
  have e2 := toNat_or_shiftLeft (w ||| k <<< 8) lanes 16 (by omega) (by omega)
  have e3 := toNat_or_shiftLeft (w ||| k <<< 8 ||| lanes <<< 16) carry 24 (by omega) (by omega)
  have e4 := toNat_or_shiftLeft (w ||| k <<< 8 ||| lanes <<< 16 ||| carry <<< 24) parse 25 (by omega) (by omega)
  rw [← e1, ← e2, ← e3, ← e4, BitVec.ofNat_toNat, BitVec.setWidth_eq]

/-- CFG as the sum of its fields (R32). -/
theorem cfgWord_eq (d : Device) : cfgWord d = BitVec.ofNat 32 (d.width.bits + 4 * 2 ^ 8 + (d.nlanes - 1) * 2 ^ 16
    + (if d.carryMode = .twoPass then 2 ^ 24 else 0) + (if d.negIntParse = .literal then 2 ^ 25 else 0)) := by
  have width : (BitVec.ofNat 32 d.width.bits).toNat = d.width.bits ∧ d.width.bits < 2 ^ 8 := by
    cases d.width <;> decide
  have four : (BitVec.ofNat 32 4).toNat = 4 := rfl
  have lanes : (d.lanesLess1.setWidth 32).toNat = d.nlanes - 1 := by
    rw [BitVec.toNat_setWidth_of_le (by decide), Device.nlanes, Nat.add_sub_cancel]
  have lanesLt : (d.lanesLess1.setWidth 32).toNat < 2 ^ 8 := by
    rw [BitVec.toNat_setWidth_of_le (by decide)]
    exact d.lanesLess1.isLt
  have carry : (bitWord (d.carryMode == .twoPass)).toNat * 2 ^ 24
      = (if d.carryMode = .twoPass then 2 ^ 24 else 0) := by
    cases d.carryMode <;> rfl
  have parse : (bitWord (d.negIntParse == .literal)).toNat * 2 ^ 25
      = (if d.negIntParse = .literal then 2 ^ 25 else 0) := by
    cases d.negIntParse <;> rfl
  rw [cfgWord, cfgFields_eq (by omega) (by decide) lanesLt (toNat_bitWord_lt _) (toNat_bitWord_lt _), width.1, four,
    lanes, carry, parse]

/-- Settles O52, register by register. -/
theorem controlBlockRegisters : Obligations.ControlBlockRegisters := by
  intro s k v rest hk
  refine ⟨?_, ⟨_, ?_, ?_, s.memSize_eq⟩, fun writable h => ?_, fun notStatus h => ?_⟩
  · rw [State.w]
    cases s.dev.width
    · exact .inl rfl
    · exact .inr rfl
  · omega
  · omega
  · rw [step_write_control h (by omega) (by omega), State.csrWrite_ignored _ v writable]
  · rw [step_read_control h (by omega) (by omega)]
    refine congrArg (fun x => Host.Outcome.next { s with host := rest, hostRData := x }) ?_
    match k, notStatus with
    | 0, _ | 2, _ | 3, _ | 6, _ | 7, _ | 9, _ | 10, _ | 11, _ | 12, _ => rfl
    | 1, _ => exact cfgWord_eq s.dev
    | 4, _ => exact s.ctrlWord_eq
    | 8, _ =>
      show s.fcause.code.setWidth 32 = _
      cases s.fcause <;> rfl
    | k + 13, _ =>
      rw [s.csrRead_reserved (by omega)]
      simp

end Sys2Proof.Machine
end

section
/-! PROOFS. FORMAT_VALUE is exactly val(X) (spec/10_state.md R21; spec/40_codec.md R88). -/
namespace Sys2Proof.FixedPoint

variable {w : Nat}

/-- The integer limb is the pattern without its F fraction bits (R20). -/
theorem pat_eq_limb0_add (x : FixedPoint w) : x.pat = x.l0.toNat * 2 ^ (3 * w) + x.pat % 2 ^ (3 * w) := by
  obtain ⟨-, -, -, top⟩ := limb_of_pat x
  rw [Nat.div_div_eq_div_mul, Nat.div_div_eq_div_mul, ← Nat.pow_add, ← Nat.pow_add,
    show w + (w + w) = 3 * w by omega] at top
  rw [top]
  exact (Nat.div_add_mod' _ _).symm

/-- The top bit of the pattern is the top bit of the integer limb (R109). -/
theorem pat_lt_half_iff (x : FixedPoint w) (hw : 0 < w) : x.pat < 2 ^ (4 * w - 1) ↔ 2 * x.l0.toNat < 2 ^ w := by
  obtain ⟨k, rfl⟩ : ∃ k, w = k + 1 := ⟨w - 1, by omega⟩
  have half : 2 ^ (4 * (k + 1) - 1) = 2 ^ k * 2 ^ (3 * (k + 1)) := by
    rw [← pow_add]
    congr 1
    omega
  have frac := Nat.mod_lt x.pat (Nat.two_pow_pos (3 * (k + 1)))
  rw [half, pow_succ, x.pat_eq_limb0_add]
  generalize 2 ^ (3 * (k + 1)) = B at *
  constructor
  · intro h
    have : x.l0.toNat < 2 ^ k := lt_of_mul_lt_mul_right (by omega) (Nat.zero_le B)
    omega
  · intro h
    have := Nat.mul_le_mul_right B (show x.l0.toNat + 1 ≤ 2 ^ k by omega)
    rw [Nat.succ_mul] at this
    omega

/-- val(X) is the signed integer limb and the F fraction bits (R21). -/
theorem sval_eq_limb0_add (x : FixedPoint w) (hw : 0 < w) :
    x.sval = x.l0.toInt * 2 ^ (3 * w) + (x.pat % 2 ^ (3 * w) : Nat) := by
  have value : (x.pat : Int) = x.l0.toNat * 2 ^ (3 * w) + (x.pat % 2 ^ (3 * w) : Nat) := by
    exact_mod_cast x.pat_eq_limb0_add
  have full : (2 : Int) ^ (4 * w) = 2 ^ w * 2 ^ (3 * w) := by
    rw [← pow_add]
    congr 1
    omega
  rw [sval, BitVec.toInt_eq_toNat_cond]
  by_cases h : 2 * x.l0.toNat < 2 ^ w
  · rw [if_pos ((x.pat_lt_half_iff hw).2 h), if_pos h, value]
  · rw [if_neg (mt (x.pat_lt_half_iff hw).1 h), if_neg h, full]
    push_cast at value ⊢
    linear_combination value

end Sys2Proof.FixedPoint

namespace Sys2Proof.Codec

/-- The sum of FORMAT_VALUE after its first n fraction bits (R88). -/
def formatSum {w : Nat} (x : FixedPoint w) (n : Nat) : Int :=
  (List.range n).foldl
    (fun v k => if fractionBit x (k + 1) then v + 5 ^ (k + 1) * 10 ^ (3 * w - (k + 1)) else v)
    (x.l0.toInt * 10 ^ (3 * w))

theorem formatValue_eq_formatSum {w : Nat} (x : FixedPoint w) : formatValue x = formatSum x (3 * w) := rfl

theorem formatSum_succ {w : Nat} (x : FixedPoint w) (n : Nat) : formatSum x (n + 1) =
    formatSum x n + if fractionBit x (n + 1) then 5 ^ (n + 1) * 10 ^ (3 * w - (n + 1)) else 0 := by
  rw [formatSum, List.range_succ, List.foldl_append, ← formatSum]
  show (if fractionBit x (n + 1) then formatSum x n + _ else formatSum x n) = _
  split
  · rfl
  · exact (Int.add_zero _).symm

/-- The term of fraction bit k is 2^-k: times 2^F it is `2^(F-k)` units of 10^F. -/
theorem term_mul_two_pow {F k : Nat} (h : k ≤ F) : (5 : Int) ^ k * 10 ^ (F - k) * 2 ^ F = 2 ^ (F - k) * 10 ^ F := by
  obtain ⟨j, rfl⟩ := Nat.exists_eq_add_of_le h
  rw [Nat.add_sub_cancel_left, show (10 : Int) = 2 * 5 by rfl, mul_pow, mul_pow, pow_add, pow_add]
  ring

/-- After n fraction bits what is missing is the value of the F - n bits below them. -/
theorem formatSum_mul {w : Nat} (x : FixedPoint w) (hw : 0 < w) (n : Nat) (hn : n ≤ 3 * w) :
    formatSum x n * 2 ^ (3 * w) = (x.sval - (x.pat % 2 ^ (3 * w - n) : Nat)) * 10 ^ (3 * w) := by
  induction n with
  | zero =>
    rw [Nat.sub_zero, x.sval_eq_limb0_add hw, add_sub_cancel_right]
    show x.l0.toInt * 10 ^ (3 * w) * 2 ^ (3 * w) = _
    ring
  | succ n ih =>
    have bit : x.pat % 2 ^ (3 * w - n) = x.pat % 2 ^ (3 * w - (n + 1))
        + 2 ^ (3 * w - (n + 1)) * (fractionBit x (n + 1)).toNat := by
      rw [show 3 * w - n = 3 * w - (n + 1) + 1 by omega, Nat.mod_pow_succ, ← Nat.toNat_testBit]
      rfl
    rw [formatSum_succ, add_mul, ih (by omega), bit]
    cases fractionBit x (n + 1) with
    | false => simp
    | true =>
      rw [if_pos rfl, term_mul_two_pow hn, Bool.toNat_true]
      push_cast
      ring

/-- Settles O27: after all F bits nothing is missing. -/
theorem formatValueIsExact : Obligations.FormatValueIsExact := by
  intro d x
  have hw : 0 < d.bits := by cases d <;> decide
  rw [formatValue_eq_formatSum, formatSum_mul x hw _ le_rfl, Nat.sub_self, Nat.pow_zero, Nat.mod_one]
  simp

end Sys2Proof.Codec
end

section
/-! PROOFS. STF stores what LDF loads back, the faults of the two, and the order of ESCAPE's pixels (spec/20_memory.md R51
to R53, R56, R62, R64; spec/44_escape.md R126; spec/45_system_and_transfer.md R136, R137). -/
namespace Sys2Proof.Machine

/-! ### STF and LDF (R51 to R53, R136, R137) -/

/-- A limb of a stored value reads back whole: LB bytes hold it (R7, R51). -/
theorem State.memRead_storeFP_limb (s : State) (a : Nat) (x : FixedPoint s.w) {i : Nat} (hi : i < 4) :
    (s.storeFP a x).memRead (a + i * s.limbBytes) s.limbBytes = (x.limb i).toNat := by
  have fits : (x.limb i).toNat < 256 ^ s.limbBytes := s.pow_limbBytes ▸ (x.limb i).isLt
  exact (s.memRead_storeFP a x i (by omega)).trans (Nat.mod_eq_of_lt fits)

/-- Byte k of limb i of a stored value (R51). -/
theorem State.byteAt_storeFP (s : State) (a : Nat) (x : FixedPoint s.w) {i k : Nat} (hi : i < 4)
    (hk : k < s.limbBytes) :
    ((s.storeFP a x).byteAt (a + i * s.limbBytes + k)).toNat = (x.limb i).toNat / 256 ^ k % 256 := by
  rw [← State.memRead_byte _ _ _ k hk, s.memRead_storeFP_limb a x hi]

/-- Storing a value and completing leaves everything outside its VB bytes (R28, R51, R56). -/
theorem State.storedOnly_storeFP (s : State) (a : Nat) (x : FixedPoint s.w) :
    s.StoredOnly (s.storeFP a x).advance a s.valueBytes where
  rest := congrArg State.advance (s.storeFP_same a x).eq
  memory b hb := s.byteAt_storeFP_outside a x b (s.valueBytes_eq ▸ hb)

/-- Settles O36: what STF answers at an address that passes both checks, byte by byte. -/
theorem stfStoresTheValue : Obligations.StfStoresTheValue := by
  intro s ra a aligned inRange
  have valid : s.valueAddrFault a = none := (s.valueAddrFault_none a).2 ⟨aligned, inRange⟩
  exact ⟨_, exec_stf_of_valid ra valid, s.storedOnly_storeFP a.toNat (s.readF ra),
    fun i k hi hk => s.byteAt_storeFP a.toNat (s.readF ra) hi hk⟩

theorem State.valueAddrFault_align {s : State} {a : Word} (h : a.toNat % s.limbBytes ≠ 0) :
    s.valueAddrFault a = some .align := if_pos h

theorem State.valueAddrFault_bus {s : State} {a : Word} (aligned : a.toNat % s.limbBytes = 0)
    (h : s.memSize < a.toNat + s.valueBytes) : s.valueAddrFault a = some .bus := by
  rw [State.valueAddrFault, State.inRange, if_neg (not_not.2 aligned), if_pos (decide_eq_false (by omega))]

/-- LDF and STF record the fault of their address with that address as FADDR (R52, R53, R136, R137). -/
theorem exec_ldf_stf_faulted {s : State} {r : Reg} {a : Word} {c : Cause} {i : Instr}
    (hi : i = .ldf r a ∨ i = .stf r a) (h : s.valueAddrFault a = some c) :
    ∃ t, exec i s = .next t ∧ s.Faulted t c a i.word0 a := by
  rcases hi with rfl | rfl
  · exact ⟨_, exec_ldf_of_fault r h, rfl⟩
  · exact ⟨_, exec_stf_of_fault r h, rfl⟩

/-- Settles O37, by the two checks of the address. -/
theorem ldfStfFaults : Obligations.LdfStfFaults := fun _ _ _ _ hi =>
  ⟨fun misaligned => exec_ldf_stf_faulted hi (State.valueAddrFault_align misaligned),
    fun aligned outside => exec_ldf_stf_faulted hi (State.valueAddrFault_bus aligned outside)⟩

theorem State.loadFP_advance (s : State) (w a : Nat) : s.advance.loadFP w a = s.loadFP w a :=
  State.loadFP_congr _ _ w a fun _ _ _ => rfl

/-- What LDF leaves in its register (R136). -/
theorem exec_ldf_readF {s : State} {a : Word} (rd : Reg) (valid : s.valueAddrFault a = none) :
    ∃ t, exec (.ldf rd a) s = .next t ∧ t.patF rd = (s.loadFP s.w a.toNat).pat :=
  ⟨_, exec_ldf_of_valid rd valid, congrArg FixedPoint.pat (s.readF_writeF_same rd _)⟩

/-- Settles O38: STF changes memory only, so LDF finds the same device and, at the address, the stored value. -/
theorem loadAfterStore : Obligations.LoadAfterStore := by
  intro s ra rd a aligned inRange
  have valid : s.valueAddrFault a = none := (s.valueAddrFault_none a).2 ⟨aligned, inRange⟩
  obtain ⟨m, same⟩ := s.storeFP_same a.toNat (s.readF ra)
  have stored : exec (.stf ra a) s = .next { s with mem := m }.advance := same ▸ exec_stf_of_valid ra valid
  have back : State.loadFP { s with mem := m }.advance s.w a.toNat = s.readF ra := by
    rw [State.loadFP_advance, ← same, s.loadFP_storeFP a.toNat (s.readF ra) s.pow_limbBytes]
  obtain ⟨u, loaded, pattern⟩ := exec_ldf_readF (s := { s with mem := m }.advance) rd valid
  exact ⟨_, u, stored, loaded, pattern.trans (congrArg FixedPoint.pat back)⟩

/-! ### The order of the pixels (R64, R126) -/

/-- A store passes an entry below its address. -/
theorem Memory.store_cons_of_lt {c : Host.Cell} (m : List Host.Cell) {a : Nat} (h : c.1 < a) (v : Byte) :
    Memory.store (c :: m) a v = c :: Memory.store m a v := by
  rw [Memory.store, if_neg (by omega), if_neg (by omega)]

/-- Stores at two addresses commute, in canonical form or not: both pass the entries below both addresses, and at the
first other entry each finds its own place beside the other's. -/
theorem Memory.store_comm (m : List Host.Cell) {a b : Nat} (h : a ≠ b) (u v : Byte) :
    Memory.store (Memory.store m a u) b v = Memory.store (Memory.store m b v) a u := by
  induction m with
  | nil => grind [Memory.store]
  | cons c m ih =>
    by_cases below : c.1 < a ∧ c.1 < b
    · obtain ⟨ha, hb⟩ := below
      rw [Memory.store_cons_of_lt m ha, Memory.store_cons_of_lt m hb, Memory.store_cons_of_lt _ hb,
        Memory.store_cons_of_lt _ ha, ih]
    · grind [Memory.store]

theorem State.setByte_comm (s : State) {a b : Nat} (h : a ≠ b) (u v : Byte) :
    (s.setByte a u).setByte b v = (s.setByte b v).setByte a u :=
  congrArg (fun m => { s with mem := m }) (Memory.store_comm s.mem h u v)

theorem State.memWrite_setByte_comm (s : State) {a b n : Nat} (h : b < a ∨ a + n ≤ b) (u : Byte) (v : Nat) :
    (s.setByte b u).memWrite a n v = (s.memWrite a n v).setByte b u := by
  induction n generalizing s a v with
  | zero => rfl
  | succ n ih =>
    rw [State.memWrite, State.memWrite, s.setByte_comm (by omega : b ≠ a), ih _ (by omega)]

/-- Writes to disjoint places commute (R56). -/
theorem State.memWrite_comm (s : State) {a b n k : Nat} (h : a + n ≤ b ∨ b + k ≤ a) (u v : Nat) :
    (s.memWrite a n u).memWrite b k v = (s.memWrite b k v).memWrite a n u := by
  induction n generalizing s a u with
  | zero => rfl
  | succ n ih =>
    rw [State.memWrite, State.memWrite, ih _ (by omega), s.memWrite_setByte_comm (by omega)]

theorem State.loadFP_memWrite_outside (s : State) {w a b n : Nat} (v : Nat)
    (h : a + FixedPoint.valueBytes w ≤ b ∨ b + n ≤ a) : (s.memWrite b n v).loadFP w a = s.loadFP w a := by
  rw [FixedPoint.valueBytes] at h
  refine State.loadFP_congr _ _ w a fun c hc hc' => s.byteAt_memWrite_outside b n v c ?_
  rw [FixedPoint.limbBytes] at hc'
  omega

/-- The output word of pixel k as memory stands (R122, R123, R125). -/
def State.pixelWord {w : Nat} (sn : Snapshot w) (s : State) (k : Nat) : Word :=
  let entry := sn.table.toNat + k * (2 * FixedPoint.valueBytes w)
  sn.output (sn.count s.dev.carryMode (s.loadFP w entry) (s.loadFP w (entry + FixedPoint.valueBytes w)))

/-- A pixel is one write, of its output word to its place (R118). -/
theorem State.renderPixel_eq {w : Nat} (sn : Snapshot w) (s : State) (k : Nat) :
    State.renderPixel sn s k = s.memWrite (sn.out.toNat + 4 * k) 4 (s.pixelWord sn k).toNat := rfl

/-- The table and the output words lie apart (check 10 of R121). -/
def Snapshot.Apart {w : Nat} (sn : Snapshot w) : Prop :=
  sn.table.toNat + 2 * FixedPoint.valueBytes w * sn.npix ≤ sn.out.toNat ∨ sn.out.toNat + 4 * sn.npix ≤ sn.table.toNat

/-- A pixel reads nothing that another pixel writes (R64). -/
theorem State.pixelWord_renderPixel {w : Nat} {sn : Snapshot w} (apart : sn.Apart) (s : State) {j k : Nat}
    (hj : j < sn.npix) (hk : k < sn.npix) : (State.renderPixel sn s j).pixelWord sn k = s.pixelWord sn k := by
  have entry : (k + 1) * (2 * FixedPoint.valueBytes w) ≤ 2 * FixedPoint.valueBytes w * sn.npix :=
    Nat.mul_comm _ sn.npix ▸ Nat.mul_le_mul_right _ hk
  rw [Nat.succ_mul] at entry
  rw [Snapshot.Apart] at apart
  rw [State.renderPixel_eq, State.pixelWord, State.memWrite_dev,
    s.loadFP_memWrite_outside _ (by omega), s.loadFP_memWrite_outside _ (by omega)]
  rfl

theorem State.renderPixel_renderPixel {w : Nat} {sn : Snapshot w} (apart : sn.Apart) (s : State) {j k : Nat}
    (hj : j < sn.npix) (hk : k < sn.npix) : State.renderPixel sn (State.renderPixel sn s j) k
      = (s.memWrite (sn.out.toNat + 4 * j) 4 (s.pixelWord sn j).toNat).memWrite (sn.out.toNat + 4 * k) 4
        (s.pixelWord sn k).toNat := by
  rw [State.renderPixel_eq sn (State.renderPixel sn s j) k, s.pixelWord_renderPixel apart hj hk, State.renderPixel_eq]

theorem State.renderPixel_comm {w : Nat} {sn : Snapshot w} (apart : sn.Apart) (s : State) {j k : Nat}
    (hj : j < sn.npix) (hk : k < sn.npix) :
    State.renderPixel sn (State.renderPixel sn s j) k = State.renderPixel sn (State.renderPixel sn s k) j := by
  by_cases same : j = k
  · rw [same]
  · rw [s.renderPixel_renderPixel apart hj hk, s.renderPixel_renderPixel apart hk hj, s.memWrite_comm (by omega)]

/-- Settles O42: pixels commute, in every memory, so every permutation of them gives the same state. -/
theorem pixelOrderIsUnobservable : Obligations.PixelOrderIsUnobservable := by
  intro s ra rb rc d order _ render perm
  have apart : (s.snapshot ra rb rc d).Apart := (s.escapeVerdict_render ra rb rc d render).disjoint
  have pixel : ∀ k ∈ order, k < (s.snapshot ra rb rc d).npix := fun k hk => List.mem_range.1 (perm.mem_iff.1 hk)
  have rendered : State.renderInOrder (s.snapshot ra rb rc d) s order
      = State.renderInOrder (s.snapshot ra rb rc d) s (List.range (s.snapshot ra rb rc d).npix) :=
    perm.foldl_eq' (fun j hj k hk t => t.renderPixel_comm apart (pixel j hj) (pixel k hk)) s
  rw [exec_escape_of_render render, rendered]

end Sys2Proof.Machine
end

section
/-! PROOFS. The host's memory window, and the host accesses that reach no window or have no meaning (spec/20_memory.md R59
to R61). -/
namespace Sys2Proof.Machine

/-! ### Where an access leads (R59) -/

theorem routeHost_outside {d : Device} {addr : Nat}
    (control : ¬ (d.hostCsrBase ≤ addr ∧ addr < d.hostCsrBase + 0x1000))
    (memory : ¬ (d.hostMemBase ≤ addr ∧ addr < d.hostMemBase + d.memSize)) : routeHost d addr = .outside := by
  rw [routeHost, if_neg control, if_neg memory]

theorem routeHost_window {d : Device} {a : Nat} (inside : a < d.memSize)
    (control : ¬ (d.hostCsrBase ≤ d.hostMemBase + a ∧ d.hostMemBase + a < d.hostCsrBase + 0x1000)) :
    routeHost d (d.hostMemBase + a) = .memory a := by
  rw [routeHost, if_neg control, if_pos (by omega), Nat.add_sub_cancel_left]

/-! ### What an access answers, one equation per place it leads to (R59, R60) -/

section
variable (s : State) {addr n : Nat}

theorem State.hostRead_outside (route : routeHost s.dev addr = .outside) : s.hostRead addr n = .next s := by
  rw [State.hostRead, route]

theorem State.hostWrite_outside {v : Word} (route : routeHost s.dev addr = .outside) :
    s.hostWrite addr n v = .next s := by
  rw [State.hostWrite, route]

theorem State.hostRead_memory {a : Nat} (route : routeHost s.dev addr = .memory a) (defined : n = 1 ∨ a % 4 = 0) :
    s.hostRead addr n = .next (s.windowRead a n) := by
  rw [State.hostRead, route]
  exact if_pos defined

theorem State.hostWrite_memory {v : Word} {a : Nat} (route : routeHost s.dev addr = .memory a)
    (defined : n = 1 ∨ a % 4 = 0) : s.hostWrite addr n v = .next (s.windowWrite a n v.toNat) := by
  rw [State.hostWrite, route]
  exact if_pos defined

/-- The spec gives the access no meaning: to the control block it is not 32 bits wide at a multiple of 4, or to device
memory it is neither 8 bits wide nor at a multiple of 4 (R60). -/
def HostTarget.Undefined (n : Nat) : HostTarget → Prop
  | .control offset => ¬ (n = 4 ∧ offset % 4 = 0)
  | .memory a => ¬ (n = 1 ∨ a % 4 = 0)
  | .outside => False

theorem State.hostRead_undefined (h : (routeHost s.dev addr).Undefined n) :
    s.hostRead addr n = .refused .hostAccessUndefined := by
  rw [State.hostRead]
  revert h
  cases routeHost s.dev addr with
  | control | memory => exact fun h => if_neg h
  | outside => exact False.elim

theorem State.hostWrite_undefined {v : Word} (h : (routeHost s.dev addr).Undefined n) :
    s.hostWrite addr n v = .refused .hostAccessUndefined := by
  rw [State.hostWrite]
  revert h
  cases routeHost s.dev addr with
  | control | memory => exact fun h => if_neg h
  | outside => exact False.elim

end

/-! ### A step in which the host moves (R143) -/

theorem step_hostMove {s : State} {m : HostMove} {rest : List HostMove} (h : s.host = m :: rest) :
    step s = hostMove m { s with host := rest } := by
  rw [step, machineMove, h]

/-- The host address and the width in bytes of a move that is an access (R60). -/
def HostMove.access : HostMove → Option (Nat × Nat)
  | .read8 addr | .write8 addr _ => some (addr, 1)
  | .read32 addr | .write32 addr _ => some (addr, 4)
  | .pass | .reset => none

theorem hostMove_outside {m : HostMove} {addr n : Nat} (t : State) (hm : m.access = some (addr, n))
    (route : routeHost t.dev addr = .outside) : hostMove m t = .next t := by
  cases m with
  | pass | reset => cases hm
  | read8 | read32 => cases hm; exact t.hostRead_outside route
  | write8 | write32 => cases hm; exact t.hostWrite_outside route

theorem hostMove_undefined {m : HostMove} {addr n : Nat} (t : State) (hm : m.access = some (addr, n))
    (undefined : (routeHost t.dev addr).Undefined n) : hostMove m t = .refused .hostAccessUndefined := by
  cases m with
  | pass | reset => cases hm
  | read8 | read32 => cases hm; exact t.hostRead_undefined undefined
  | write8 | write32 => cases hm; exact t.hostWrite_undefined undefined

/-! ### Device memory through the window (R50, R61) -/

theorem State.ofNat_memRead_one (s : State) (a : Nat) : BitVec.ofNat 32 (s.memRead a 1) = (s.byteAt a).setWidth 32 := by
  rw [State.memRead, State.memRead, Nat.mul_zero, Nat.add_zero, BitVec.ofNat_toNat]

/-- Byte k of the word at an address (R50). -/
theorem State.wordAt_byte (s : State) (a : Nat) {k : Nat} (hk : k < 4) :
    (s.wordAt a).toNat / 256 ^ k % 256 = (s.byteAt (a + k)).toNat := by
  have fits : s.memRead a 4 < 2 ^ 32 := s.memRead_lt a 4
  rw [State.wordAt, BitVec.toNat_ofNat, Nat.mod_eq_of_lt fits, s.memRead_byte a 4 k hk]

/-- Byte k of a little-endian write (R50). -/
theorem State.byteAt_memWrite_inside (s : State) (a v : Nat) {n k : Nat} (hk : k < n) :
    ((s.memWrite a n v).byteAt (a + k)).toNat = v / 256 ^ k % 256 := by
  rw [State.byteAt_memWrite, if_pos (by omega), Nat.add_sub_cancel_left, BitVec.toNat_ofNat]

/-- Writing one byte, given as a word (R50, R56). -/
theorem State.byteAt_memWrite_byte (s : State) (a : Nat) (b : Byte) (c : Nat) :
    (s.memWrite a 1 (b.setWidth 32).toNat).byteAt c = if c = a then b else s.byteAt c := by
  have byte : BitVec.ofNat 8 (b.setWidth 32).toNat = b := by
    rw [BitVec.toNat_setWidth_of_le (by decide), BitVec.ofNat_toNat, BitVec.setWidth_eq]
  rw [State.memWrite, State.memWrite, byte, State.byteAt_setByte]

theorem State.windowWrite_of_busy (s : State) (h : s.busy = true) (a n v : Nat) :
    s.windowWrite a n v = s.hostError := if_pos h

theorem State.windowWrite_of_idle (s : State) (h : s.busy = false) (a n v : Nat) :
    s.windowWrite a n v = s.memWrite a n v := if_neg (by simp [h])

/-- Settles O53: outside both windows no access reaches MZC; inside the memory window each of the four accesses is a read
or a write of the window. -/
theorem memoryWindow : Obligations.MemoryWindow := by
  constructor
  · intro s addr b v rest m control memory hm h
    have route : routeHost s.dev addr = .outside := routeHost_outside control memory
    have access : ∃ n, m.access = some (addr, n) := by
      rcases hm with rfl | rfl | rfl | rfl <;> exact ⟨_, rfl⟩
    obtain ⟨n, access⟩ := access
    exact ⟨route, (step_hostMove h).trans (hostMove_outside _ access route)⟩
  · rintro s _ a b v rest rfl inside control
    have route : routeHost s.dev (s.dev.hostMemBase + a) = .memory a := routeHost_window inside control
    refine ⟨route, fun k hk => s.wordAt_byte a hk, fun h => ?_, fun h aligned => ?_, fun h => ?_, fun h aligned => ?_⟩
    · rw [step_hostMove h, ← State.ofNat_memRead_one]
      exact State.hostRead_memory _ route (.inl rfl)
    · rw [step_hostMove h]
      exact State.hostRead_memory _ route (.inr aligned)
    · refine ⟨_, (step_hostMove h).trans (State.hostWrite_memory { s with host := rest } route (.inl rfl)),
        fun hb => State.windowWrite_of_busy { s with host := rest } hb a 1 _, fun hb => ?_⟩
      rw [State.windowWrite_of_idle { s with host := rest } hb]
      exact ⟨(State.memWrite_same _ a 1 _).eq, State.byteAt_memWrite_byte _ a b⟩
    · refine ⟨_, (step_hostMove h).trans (State.hostWrite_memory { s with host := rest } route (.inr aligned)),
        fun hb => State.windowWrite_of_busy { s with host := rest } hb a 4 _, fun hb => ?_⟩
      rw [State.windowWrite_of_idle { s with host := rest } hb]
      exact ⟨(State.memWrite_same _ a 4 _).eq, fun k hk => State.byteAt_memWrite_inside _ a _ hk,
        State.byteAt_memWrite_outside _ a 4 _⟩

/-! ### Accesses without a meaning (R60) -/

/-- Settles O54, by where each of the accesses leads. -/
theorem undefinedHostAccesses : Obligations.UndefinedHostAccesses := by
  intro s addr n b v rest m h
  rw [step_hostMove h]
  refine ⟨?_, ?_, ?_⟩
  · rintro rfl inside hm
    have access : m.access = some (s.dev.hostCsrBase + n, 1) := by rcases hm with rfl | rfl <;> rfl
    refine hostMove_undefined _ access ?_
    rw [routeHost_control s.dev inside]
    exact fun defined => absurd defined.1 (by decide)
  · rintro rfl inside misaligned hm
    have access : m.access = some (s.dev.hostCsrBase + n, 4) := by rcases hm with rfl | rfl <;> rfl
    refine hostMove_undefined _ access ?_
    rw [routeHost_control s.dev inside]
    exact fun defined => misaligned defined.2
  · rintro rfl inside control misaligned hm
    have access : m.access = some (s.dev.hostMemBase + n, 4) := by rcases hm with rfl | rfl <;> rfl
    refine hostMove_undefined _ access ?_
    rw [routeHost_window inside control]
    exact fun defined => defined.elim (by decide) misaligned

end Sys2Proof.Machine
end

section
/-! PROOFS. Encoder and decoder: the words of a command decode to it and to nothing else, and the decoder accepts exactly
the words of the match and mask list (spec/30_encoding.md R70, R71, R74 to R77). -/
namespace Sys2Proof

/-! ### The fields of word0 (R71) -/

/-- word0 from all its fields, rsv too; `packWord0` is the case rsv = 0. -/
def joinFields (op : BitVec 8) (rd ra rb rc : Reg) (rsv : BitVec 8) : Word := op ++ rd ++ ra ++ rb ++ rc ++ rsv

theorem packWord0_eq_joinFields (op : BitVec 8) (rd ra rb rc : Reg) :
    packWord0 op rd ra rb rc = joinFields op rd ra rb rc 0 := rfl

theorem joinFields_fields (w : Word) :
    joinFields (fieldOp w) (fieldRd w) (fieldRa w) (fieldRb w) (fieldRc w) (fieldRsv w) = w := by
  show w.extractLsb' 24 8 ++ w.extractLsb' 20 4 ++ w.extractLsb' 16 4 ++ w.extractLsb' 12 4 ++ w.extractLsb' 8 4
    ++ w.extractLsb' 0 8 = w
  iterate 5 rw [BitVec.extractLsb'_append_extractLsb'_eq_extractLsb' (by decide)]
  exact BitVec.extractLsb'_eq_self

section
variable (op : BitVec 8) (rd ra rb rc : Reg) (rsv : BitVec 8)

@[simp] theorem fieldOp_joinFields : fieldOp (joinFields op rd ra rb rc rsv) = op := by
  show (op ++ rd ++ ra ++ rb ++ rc ++ rsv).extractLsb' 24 8 = op
  iterate 5 rw [BitVec.extractLsb'_append_eq_of_le (by decide)]
  exact BitVec.extractLsb'_eq_self

@[simp] theorem fieldRd_joinFields : fieldRd (joinFields op rd ra rb rc rsv) = rd := by
  show (op ++ rd ++ ra ++ rb ++ rc ++ rsv).extractLsb' 20 4 = rd
  iterate 4 rw [BitVec.extractLsb'_append_eq_of_le (by decide)]
  exact BitVec.extractLsb'_append_eq_right

@[simp] theorem fieldRa_joinFields : fieldRa (joinFields op rd ra rb rc rsv) = ra := by
  show (op ++ rd ++ ra ++ rb ++ rc ++ rsv).extractLsb' 16 4 = ra
  iterate 3 rw [BitVec.extractLsb'_append_eq_of_le (by decide)]
  exact BitVec.extractLsb'_append_eq_right

@[simp] theorem fieldRb_joinFields : fieldRb (joinFields op rd ra rb rc rsv) = rb := by
  show (op ++ rd ++ ra ++ rb ++ rc ++ rsv).extractLsb' 12 4 = rb
  iterate 2 rw [BitVec.extractLsb'_append_eq_of_le (by decide)]
  exact BitVec.extractLsb'_append_eq_right

@[simp] theorem fieldRc_joinFields : fieldRc (joinFields op rd ra rb rc rsv) = rc := by
  show (op ++ rd ++ ra ++ rb ++ rc ++ rsv).extractLsb' 8 4 = rc
  rw [BitVec.extractLsb'_append_eq_of_le (by decide)]
  exact BitVec.extractLsb'_append_eq_right

@[simp] theorem fieldRsv_joinFields : fieldRsv (joinFields op rd ra rb rc rsv) = rsv :=
  BitVec.extractLsb'_append_eq_right

/-- Two words are equal exactly when their fields are. -/
theorem joinFields_inj {op' : BitVec 8} {rd' ra' rb' rc' : Reg} {rsv' : BitVec 8} :
    joinFields op rd ra rb rc rsv = joinFields op' rd' ra' rb' rc' rsv' ↔
      op = op' ∧ rd = rd' ∧ ra = ra' ∧ rb = rb' ∧ rc = rc' ∧ rsv = rsv' := by
  constructor
  · intro h
    have hop := congrArg fieldOp h
    have hrd := congrArg fieldRd h
    have hra := congrArg fieldRa h
    have hrb := congrArg fieldRb h
    have hrc := congrArg fieldRc h
    have hrsv := congrArg fieldRsv h
    simp only [fieldOp_joinFields, fieldRd_joinFields, fieldRa_joinFields, fieldRb_joinFields, fieldRc_joinFields,
      fieldRsv_joinFields] at hop hrd hra hrb hrc hrsv
    exact ⟨hop, hrd, hra, hrb, hrc, hrsv⟩
  · rintro ⟨rfl, rfl, rfl, rfl, rfl, rfl⟩
    rfl

/-- A mask works field by field. -/
theorem joinFields_and (op' : BitVec 8) (rd' ra' rb' rc' : Reg) (rsv' : BitVec 8) :
    joinFields op rd ra rb rc rsv &&& joinFields op' rd' ra' rb' rc' rsv' =
      joinFields (op &&& op') (rd &&& rd') (ra &&& ra') (rb &&& rb') (rc &&& rc') (rsv &&& rsv') := by
  show (op ++ rd ++ ra ++ rb ++ rc ++ rsv) &&& (op' ++ rd' ++ ra' ++ rb' ++ rc' ++ rsv') = _
  iterate 5 rw [BitVec.and_append]
  rfl

/-- R71's formula for word0. -/
theorem packWord0_eq_or : packWord0 op rd ra rb rc = op.setWidth 32 <<< 24 ||| rd.setWidth 32 <<< 20
    ||| ra.setWidth 32 <<< 16 ||| rb.setWidth 32 <<< 12 ||| rc.setWidth 32 <<< 8 := by
  have widths : packWord0 op rd ra rb rc = (op ++ rd ++ ra ++ rb ++ rc ++ 0#8).setWidth 32 :=
    (BitVec.setWidth_eq _).symm
  rw [widths]
  simp only [BitVec.setWidth_append_eq_shiftLeft_setWidth_or, BitVec.shiftLeft_or_distrib, ← BitVec.shiftLeft_add]
  simp

end

/-! ### Opcodes and their operands (R74, R75) -/

theorem Opcode.number_of_ofNumber {n : BitVec 8} {o : Opcode} (h : Opcode.ofNumber n = some o) : o.number = n :=
  eq_of_beq (List.find?_some h :)

theorem Opcode.ofNumber_number (o : Opcode) : Opcode.ofNumber o.number = some o := by
  cases o <;> rfl

/-- The number stands for the opcode exactly when it is its number in the map. -/
theorem Opcode.ofNumber_eq_some_iff {n : BitVec 8} {o : Opcode} : Opcode.ofNumber n = some o ↔ n = o.number :=
  ⟨fun h => (Opcode.number_of_ofNumber h).symm, fun h => h ▸ o.ofNumber_number⟩

/-- What is not an operand of the opcode is 0: the register fields it does not use, and word1 of a ZERO row (R71). -/
structure Opcode.Takes (o : Opcode) (rd ra rb rc : Reg) (w1 : Word) : Prop where
  rd    : o.usesRd = false → rd = 0
  ra    : o.usesRa = false → ra = 0
  rb    : o.usesRb = false → rb = 0
  rc    : o.usesRc = false → rc = 0
  word1 : o.word1 = .zero → w1 = 0

/-- The decoder's checks pass for the opcode (R74). -/
structure Opcode.Accepts (o : Opcode) (w0 w1 : Word) : Prop where
  number   : fieldOp w0 = o.number
  reserved : fieldRsv w0 = 0
  operands : o.Takes (fieldRd w0) (fieldRa w0) (fieldRb w0) (fieldRc w0) w1

/-- The decoder says once: a command is decoded exactly when the checks pass for an opcode, and it is that opcode's
command with the fields of the words. -/
theorem decodeWords_eq_command_iff {w0 w1 : Word} {i : Instr} : decodeWords w0 w1 = .command i ↔
    ∃ o : Opcode, o.Accepts w0 w1 ∧ o.build (fieldRd w0) (fieldRa w0) (fieldRb w0) (fieldRc w0) w1 = i := by
  rw [decodeWords]
  constructor
  · intro h
    split at h
    · cases h
    next o ho =>
      repeat' (split at h; · cases h)
      next rsv rd ra rb rc word1 =>
        simp only [not_and, not_not] at rsv rd ra rb rc word1
        exact ⟨o, ⟨Opcode.ofNumber_eq_some_iff.1 ho, rsv, rd, ra, rb, rc, word1⟩, Decoded.command.inj h⟩
  · rintro ⟨o, ⟨number, reserved, operands⟩, rfl⟩
    obtain ⟨rd, ra, rb, rc, word1⟩ := operands
    rw [Opcode.ofNumber_eq_some_iff.2 number]
    dsimp only
    rw [if_neg (not_not.2 reserved), if_neg fun h => h.2 (rd h.1), if_neg fun h => h.2 (ra h.1),
      if_neg fun h => h.2 (rb h.1), if_neg fun h => h.2 (rc h.1), if_neg fun h => h.2 (word1 h.1)]

/-! ### The words of a command (R71, R75) -/

/-- The words of an opcode's command hold the fields it uses. -/
theorem Opcode.words_build (o : Opcode) (rd ra rb rc : Reg) (w1 : Word) :
    (o.build rd ra rb rc w1).word0 = packWord0 o.number (if o.usesRd then rd else 0) (if o.usesRa then ra else 0)
      (if o.usesRb then rb else 0) (if o.usesRc then rc else 0) ∧
    (o.build rd ra rb rc w1).word1 = if o.word1 = .zero then 0 else w1 := by
  cases o <;> exact ⟨rfl, rfl⟩

theorem Opcode.Takes.words {o : Opcode} {rd ra rb rc : Reg} {w1 : Word} (h : o.Takes rd ra rb rc w1) :
    (o.build rd ra rb rc w1).word0 = joinFields o.number rd ra rb rc 0 ∧ (o.build rd ra rb rc w1).word1 = w1 := by
  have kept : ∀ {used : Bool} {r : Reg}, (used = false → r = 0) → (if used then r else 0) = r := by
    rintro (_ | _) r hr
    · exact (hr rfl).symm
    · rfl
  obtain ⟨hw0, hw1⟩ := o.words_build rd ra rb rc w1
  rw [hw0, hw1, kept h.rd, kept h.ra, kept h.rb, kept h.rc, packWord0_eq_joinFields]
  exact ⟨rfl, ite_eq_right_iff.2 fun zero => (h.word1 zero).symm⟩

/-- Every command is its opcode's, with operands that the opcode takes. -/
theorem Instr.exists_build (i : Instr) :
    ∃ rd ra rb rc, i.opcode.Takes rd ra rb rc i.word1 ∧ i.opcode.build rd ra rb rc i.word1 = i := by
  cases i with
  | nop | halt => exact ⟨0, 0, 0, 0, ⟨fun _ => rfl, fun _ => rfl, fun _ => rfl, fun _ => rfl, fun _ => rfl⟩, rfl⟩
  | ldf rd w | ldi rd w | parse rd w =>
    exact ⟨rd, 0, 0, 0, ⟨nofun, fun _ => rfl, fun _ => rfl, fun _ => rfl, nofun⟩, rfl⟩
  | stf ra w | fmt ra w => exact ⟨0, ra, 0, 0, ⟨fun _ => rfl, nofun, fun _ => rfl, fun _ => rfl, nofun⟩, rfl⟩
  | mov rd ra | inc rd ra | neg rd ra | dbl rd ra | sqr rd ra =>
    exact ⟨rd, ra, 0, 0, ⟨nofun, nofun, fun _ => rfl, fun _ => rfl, fun _ => rfl⟩, rfl⟩
  | add rd ra rb | mul rd ra rb => exact ⟨rd, ra, rb, 0, ⟨nofun, nofun, nofun, fun _ => rfl, fun _ => rfl⟩, rfl⟩
  | escape ra rb rc w => exact ⟨0, ra, rb, rc, ⟨fun _ => rfl, nofun, nofun, nofun, nofun⟩, rfl⟩

/-! ### Decoder and encoder -/

/-- The words of a command decode to it. -/
theorem decodeWords_words (i : Instr) : decodeWords i.word0 i.word1 = .command i := by
  obtain ⟨rd, ra, rb, rc, takes, hi⟩ := i.exists_build
  have word0 : i.word0 = joinFields i.opcode.number rd ra rb rc 0 := by
    rw [← takes.words.1, hi]
  rw [decodeWords_eq_command_iff, word0]
  refine ⟨i.opcode, ⟨?_, ?_, ?_⟩, ?_⟩
  all_goals simp only [fieldOp_joinFields, fieldRd_joinFields, fieldRa_joinFields, fieldRb_joinFields,
    fieldRc_joinFields, fieldRsv_joinFields]
  · exact takes
  · exact hi

/-- Settles O2: the fields of the words, joined again, are the words. -/
theorem decodeThenEncode : Obligations.DecodeThenEncode := by
  intro w0 w1 i h
  obtain ⟨o, accepts, rfl⟩ := decodeWords_eq_command_iff.1 h
  obtain ⟨word0, word1⟩ := accepts.operands.words
  exact ⟨by rw [word0, ← accepts.number, ← accepts.reserved, joinFields_fields], word1⟩

/-- Decoding the bytes of two words is decoding the words (R50, R70). -/
theorem decode_bytesOfWord (w0 w1 : Word) (rest : List Byte) :
    decode (bytesOfWord w0 ++ bytesOfWord w1 ++ rest) = (decodeWords w0 w1, rest) := by
  have word : ∀ w : Word, wordOfBytes (w.extractLsb' 0 8) (w.extractLsb' 8 8) (w.extractLsb' 16 8)
      (w.extractLsb' 24 8) = w := by
    intro w
    show w.extractLsb' 24 8 ++ w.extractLsb' 16 8 ++ w.extractLsb' 8 8 ++ w.extractLsb' 0 8 = w
    iterate 3 rw [BitVec.extractLsb'_append_extractLsb'_eq_extractLsb' (by decide)]
    exact BitVec.extractLsb'_eq_self
  simp only [bytesOfWord, List.cons_append, List.nil_append, decode, word]

/-- Settles O1: decoding the bytes is decoding the words, and these decode to the command. -/
theorem encodeThenDecode : Obligations.EncodeThenDecode := by
  intro i rest
  rw [encode, decode_bytesOfWord, decodeWords_words]

/-- Settles O4: each is the round trip of the command named. -/
theorem workedEncodings : Obligations.WorkedEncodings :=
  ⟨decodeWords_words (.add 1 2 3), by decide, decodeWords_words (.mul 4 4 5), decodeWords_words (.sqr 2 9),
    decodeWords_words (.ldi 3 0xFFFFFFFE), decodeWords_words (.parse 1 0x400),
    decodeWords_words (.fmt 1 0x500), decodeWords_words (.escape 4 6 7 0x800), decodeWords_words .halt⟩

/-! ### The match and mask list (R75) -/

/-- The mask of a register field: its bits are looked at where the opcode does not use it. -/
def fieldMask (used : Bool) : Reg := if used then 0 else BitVec.allOnes 4

theorem and_fieldMask_eq_zero_iff {r : Reg} {used : Bool} : r &&& fieldMask used = 0 ↔ (used = false → r = 0) := by
  cases used
  · rw [show fieldMask false = BitVec.allOnes 4 from rfl, BitVec.and_allOnes, imp_iff_right rfl]
  · rw [show fieldMask true = 0 from rfl]
    simp

/-- The row of an opcode, from the opcode's number and the fields it uses. -/
def Opcode.selects (o : Opcode) (w0 w1 : Word) : Bool :=
  (w0 &&& joinFields (BitVec.allOnes 8) (fieldMask o.usesRd) (fieldMask o.usesRa) (fieldMask o.usesRb)
    (fieldMask o.usesRc) (BitVec.allOnes 8) == joinFields o.number 0 0 0 0 0) && (!(o.word1 == .zero) || w1 == 0)

/-- The fifteen rows are those of the fifteen opcodes. -/
theorem matchRows_map_selects : matchRows.map MatchRow.selects = Opcode.all.map Opcode.selects := rfl

theorem Opcode.mem_all (o : Opcode) : o ∈ Opcode.all := by
  cases o <;> decide

/-- A row selects the words exactly when the decoder's checks pass for its opcode. -/
theorem Opcode.selects_iff {o : Opcode} {w0 w1 : Word} : o.selects w0 w1 = true ↔ o.Accepts w0 w1 := by
  have word1 : (!(o.word1 == .zero) || w1 == 0) = true ↔ (o.word1 = .zero → w1 = 0) := by
    simp [imp_iff_not_or]
  rw [Opcode.selects, Bool.and_eq_true, word1, beq_iff_eq, ← joinFields_fields w0, joinFields_and, joinFields_inj,
    joinFields_fields]
  simp only [BitVec.and_allOnes, and_fieldMask_eq_zero_iff]
  constructor
  · rintro ⟨⟨number, rd, ra, rb, rc, reserved⟩, word1⟩
    exact ⟨number, reserved, rd, ra, rb, rc, word1⟩
  · rintro ⟨number, reserved, rd, ra, rb, rc, word1⟩
    exact ⟨⟨number, rd, ra, rb, rc, reserved⟩, word1⟩

theorem wellFormed_iff {w0 w1 : Word} : wellFormed w0 w1 = true ↔ ∃ o : Opcode, o.Accepts w0 w1 := by
  have rows : wellFormed w0 w1 = (matchRows.map MatchRow.selects).any fun p => p w0 w1 := by
    rw [List.any_map]
    rfl
  rw [rows, matchRows_map_selects, List.any_map, List.any_eq_true]
  exact ⟨fun ⟨o, _, h⟩ => ⟨o, Opcode.selects_iff.1 h⟩, fun ⟨o, h⟩ => ⟨o, o.mem_all, Opcode.selects_iff.2 h⟩⟩

/-- Settles O3: decoder and list ask the same of the words, and `packWord0` is R71's formula. -/
theorem commandsAreTheMatchRows : Obligations.CommandsAreTheMatchRows := by
  refine ⟨fun w0 w1 => ?_, fun rd ra rb rc w1 => ?_⟩
  · rw [wellFormed_iff]
    constructor
    · rintro ⟨i, h⟩
      obtain ⟨o, accepts, -⟩ := decodeWords_eq_command_iff.1 h
      exact ⟨o, accepts⟩
    · rintro ⟨o, accepts⟩
      exact ⟨_, decodeWords_eq_command_iff.2 ⟨o, accepts, rfl⟩⟩
  · intro pack words
    have word0 : ∀ (op : BitVec 8) (rd ra rb rc : Reg), packWord0 op rd ra rb rc = pack (op.setWidth 32) rd ra rb rc :=
      packWord0_eq_or
    simp only [words, Prod.mk.injEq, Instr.word0, Instr.word1, Instr.opcode, Opcode.number, word0, and_true]
    exact ⟨rfl, rfl, rfl, rfl, rfl, rfl, rfl, rfl, rfl, rfl, rfl, rfl, rfl, rfl, rfl⟩

end Sys2Proof
end

section
/-! PROOFS. The checks of the fetch and of the decoder, the integer that LDI loads, and the pseudo-instruction SUB
(spec/30_encoding.md R72 to R74, R80; spec/41_twos_complement.md R96; spec/42_adder.md R101;
spec/45_system_and_transfer.md R138). -/
namespace Sys2Proof.Machine

/-! ### Fetch and decode faults (R73, R74) -/

theorem step_of_fetchFault {s : State} {c : Cause} (hb : s.busy = true) (hh : s.host = [])
    (h : s.fetchFault = some c) : step s = .next (s.takeFault c s.cp 0 0) := by
  rw [step_of_no_move hb hh, commandCycle, h]

theorem State.fetchFault_align {s : State} (h : s.cp.toNat % 8 ≠ 0) : s.fetchFault = some .align := if_pos h

theorem State.fetchFault_bus {s : State} (aligned : s.cp.toNat % 8 = 0) (h : s.memSize < s.cp.toNat + 8) :
    s.fetchFault = some .bus := by
  rw [State.fetchFault, State.inRange, if_neg (not_not.2 aligned), if_pos (decide_eq_false (by omega))]

theorem State.toNat_wordAt (s : State) (a : Nat) : (s.wordAt a).toNat = s.memRead a 4 :=
  (BitVec.toNat_ofNat _ _).trans (Nat.mod_eq_of_lt (s.memRead_lt a 4))

/-- Settles O7, by the fault of each check. -/
theorem fetchChecks : Obligations.FetchChecks := by
  intro s hb hh
  refine ⟨fun misaligned => ?_, fun aligned outside => ?_, fun aligned inside => ?_⟩
  · exact ⟨_, step_of_fetchFault hb hh (State.fetchFault_align misaligned), rfl⟩
  · exact ⟨_, step_of_fetchFault hb hh (State.fetchFault_bus aligned outside), rfl⟩
  · exact ⟨s.fetchFault_none.2 ⟨aligned, inside⟩, s.toNat_wordAt _, s.toNat_wordAt _⟩

/-- Settles O6: the fetch goes through and the decoder raises the fault. -/
theorem illegalWordsFault : Obligations.IllegalWordsFault := by
  intro s e hb hh aligned inside illegal
  have fetched : s.fetchFault = none := s.fetchFault_none.2 ⟨aligned, inside⟩
  have decoded : decodeWords s.fetch0 s.fetch1 = .illegal e := illegal
  refine ⟨s.takeFault .illegal s.cp s.fetch0 s.fetch1, ?_, rfl⟩
  rw [step_of_no_move hb hh, commandCycle, fetched]
  dsimp only
  rw [decoded]

/-! ### LDI (R72, R138) -/

theorem State.w_ge (s : State) : 32 ≤ s.w := by
  rw [State.w]
  cases s.dev.width <;> decide

/-- An immediate has no fraction bits, and its limb 0 keeps the sign. -/
theorem sval_immediate {w : Nat} (hw : 32 ≤ w) (imm : Word) :
    (immediate w imm).sval = imm.toInt * 2 ^ (3 * w) := by
  have fraction : (immediate w imm).pat % 2 ^ (3 * w) = 0 := by
    simp [immediate, FixedPoint.pat]
  have integer : (immediate w imm).l0.toInt = imm.toInt := BitVec.toInt_signExtend_of_le hw
  rw [FixedPoint.sval_eq_limb0_add _ (by omega), fraction, integer, Int.natCast_zero, Int.add_zero]

/-- Settles O33, by the value of the immediate. -/
theorem ldiLoadsTheInteger : Obligations.LdiLoadsTheInteger := by
  intro s rd imm
  have value : (s.writeF rd (immediate s.w imm)).advance.readF rd = immediate s.w imm := s.readF_writeF_same rd _
  refine ⟨_, rfl, ?_, s.wroteOnly_advance rd _⟩
  calc ((s.writeF rd (immediate s.w imm)).advance.readF rd).sval
      = (immediate s.w imm).sval := congrArg FixedPoint.sval value
    _ = imm.toInt * 2 ^ (3 * s.w) := sval_immediate s.w_ge imm
    _ = imm.toInt * s.unit := by rw [State.unit]; push_cast; rfl

/-! ### SUB (R80) -/

/-- NEG's value and frame (R96, R99). -/
theorem exec_neg_patF (s : State) (rd ra : Reg) : ∃ t, exec (.neg rd ra) s = .next t ∧
    t.patF rd = (s.patterns - s.patF ra) % s.patterns ∧ s.WroteOnly t rd :=
  ⟨_, rfl, (congrArg FixedPoint.pat (s.readF_writeF_same rd _)).trans (FixedPoint.pat_neg _),
    s.wroteOnly_advance rd _⟩

/-- ADD's value and frame under FULL (R101, R106). -/
theorem exec_add_patF {s : State} (full : s.dev.carryMode = .full) (rd ra rb : Reg) :
    ∃ t, exec (.add rd ra rb) s = .next t ∧ t.patF rd = (s.patF ra + s.patF rb) % s.patterns ∧ s.WroteOnly t rd := by
  refine ⟨_, rfl, ?_, s.wroteOnly_advance rd _⟩
  calc _ = (FixedPoint.add s.dev.carryMode (s.readF ra) (s.readF rb)).pat :=
        congrArg FixedPoint.pat (s.readF_writeF_same rd _)
    _ = (FixedPoint.addFull (s.readF ra) (s.readF rb)).pat := by rw [full, FixedPoint.add]
    _ = (s.patF ra + s.patF rb) % s.patterns := FixedPoint.pat_addFull _ _

theorem State.WroteOnly.dev {s t : State} {rd : Reg} (h : s.WroteOnly t rd) : t.dev = s.dev := by
  rw [h.rest]

theorem State.WroteOnly.patterns {s t : State} {rd : Reg} (h : s.WroteOnly t rd) : t.patterns = s.patterns := by
  rw [State.patterns, State.w, h.dev, State.patterns, State.w]

/-- The pattern of another register than the one written (R24). -/
theorem State.WroteOnly.patF_other {s t : State} {rd q : Reg} (h : s.WroteOnly t rd) (hq : q ≠ rd) :
    t.patF q = s.patF q := by
  rw [State.patF, State.readF, State.w, h.dev, h.registers q hq]
  rfl

/-- Settles O39: NEG leaves -fb in ft and does not touch fa, which is another register; ADD adds the two. -/
theorem subPseudoSubtracts : Obligations.SubPseudoSubtracts := by
  intro s fd fa fb ft full other
  obtain ⟨t, negates, negated, frame⟩ := exec_neg_patF s ft fb
  obtain ⟨u, adds, added, -⟩ := exec_add_patF (frame.dev ▸ full) fd fa ft
  refine ⟨.neg ft fb, .add fd fa ft, t, u, if_neg other, negates, adds, ?_⟩
  have bound : s.patF fb ≤ s.patterns := (s.readF fb).pat_lt.le
  rw [added, frame.patterns, frame.patF_other other.symm, negated, Nat.add_mod_mod, ← Nat.add_sub_assoc bound]

end Sys2Proof.Machine
end

section
/-! PROOFS. PARSE accepts exactly the grammar and splits the text by it (spec/40_codec.md R81 to R83). -/
namespace Sys2Proof.Codec

open Sys2Proof.Machine

/-! ### Digit bytes and their value (R81, R83) -/

theorem isDigit_iff {c : Byte} : isDigit c = true ↔ 0x30 ≤ c.toNat ∧ c.toNat ≤ 0x39 := decide_eq_true_iff

theorem areDigits_iff {s : List Byte} : areDigits s ↔ ∀ c ∈ s, isDigit c = true := by
  simp only [areDigits, isDigit_iff]

theorem digitsValue_concat (s : List Byte) (c : Byte) :
    digitsValue (s ++ [c]) = 10 * digitsValue s + (c.toNat - 0x30) := by
  rw [digitsValue, List.foldl_append, ← digitsValue]
  rfl

theorem decimalValue_concat (s : List Byte) (c : Byte) :
    decimalValue (s ++ [c]) = 10 * decimalValue s + (c.toNat - 0x30) := by
  rw [decimalValue, List.reverse_append, List.reverse_singleton, List.singleton_append, List.map_cons,
    Nat.ofDigits_cons, ← decimalValue, Nat.add_comm]

/-- The accumulator that PARSE keeps is the number in base 10 (R83). -/
theorem digitsValue_eq_decimalValue (s : List Byte) : digitsValue s = decimalValue s := by
  induction s using List.reverseRecOn with
  | nil => rfl
  | append_singleton s c ih => rw [digitsValue_concat, decimalValue_concat, ih]

theorem decimalValue_lt {s : List Byte} (h : areDigits s) : decimalValue s < 10 ^ s.length := by
  have digits : ∀ d ∈ s.reverse.map fun c => c.toNat - 0x30, d < 10 := fun d hd => by
    obtain ⟨c, hc, rfl⟩ := List.mem_map.1 hd
    have := h c (List.mem_reverse.1 hc)
    omega
  simpa [decimalValue] using Nat.ofDigits_lt_base_pow_length (by decide) digits

/-! ### The grammar (R82) -/

/-- What may follow the integer digits: nothing, or a full stop and digits. -/
def pointPart (point : Bool) (fs : List Byte) : List Byte := if point then fullStop :: fs else []

/-- The digits in front of the point part are all of the leading digits. -/
theorem span_digits {ds : List Byte} (hds : areDigits ds) (point : Bool) (fs : List Byte) :
    (ds ++ pointPart point fs).takeWhile isDigit = ds ∧
      (ds ++ pointPart point fs).dropWhile isDigit = pointPart point fs := by
  have digits := areDigits_iff.1 hds
  have ends : (pointPart point fs).takeWhile isDigit = [] ∧
      (pointPart point fs).dropWhile isDigit = pointPart point fs := by
    cases point <;> exact ⟨rfl, rfl⟩
  rw [List.takeWhile_append_of_pos digits, List.dropWhile_append_of_pos digits, ends.1, ends.2]
  exact ⟨List.append_nil ds, rfl⟩

/-- The unsigned part of the grammar, with what it denotes (R82, R83). -/
theorem splitUnsigned_eq_some_iff {neg : Bool} {s : List Byte} {t : DecimalText} :
    splitUnsigned neg s = some t ↔ ∃ (ds fs : List Byte) (point : Bool),
      s = ds ++ pointPart point fs ∧ ds ≠ [] ∧ areDigits ds ∧ areDigits fs ∧ (point = false → fs = []) ∧
      t = ⟨neg, decimalValue ds, decimalValue fs, fs.length⟩ := by
  simp only [← digitsValue_eq_decimalValue]
  constructor
  · intro h
    have leading : areDigits (s.takeWhile isDigit) := areDigits_iff.2 fun c hc => List.mem_takeWhile_imp hc
    have parts : s = s.takeWhile isDigit ++ s.dropWhile isDigit := List.takeWhile_append_dropWhile.symm
    rw [splitUnsigned] at h
    split at h
    · cases h
    · rename_i nonempty
      rw [List.isEmpty_iff] at nonempty
      split at h
      · rename_i rest
        rw [rest] at parts
        exact ⟨_, [], false, parts, nonempty, leading, List.forall_mem_nil _, fun _ => rfl, (Option.some.inj h).symm⟩
      · rename_i c fs rest
        split at h
        · rename_i tail
          obtain ⟨rfl, digits⟩ := tail
          rw [rest] at parts
          exact ⟨_, fs, true, parts, nonempty, leading, areDigits_iff.2 (List.all_eq_true.1 digits), nofun,
            (Option.some.inj h).symm⟩
        · cases h
  · rintro ⟨ds, fs, point, rfl, nonempty, hds, hfs, noPoint, rfl⟩
    obtain ⟨leading, rest⟩ := span_digits hds point fs
    rw [splitUnsigned, leading, rest, if_neg (by simpa using nonempty)]
    cases point with
    | false =>
      rw [noPoint rfl]
      rfl
    | true => exact if_pos ⟨rfl, List.all_eq_true.2 (areDigits_iff.1 hfs)⟩

theorem split_cons (c : Byte) (rest : List Byte) :
    split (c :: rest) = if c = minusSign then splitUnsigned true rest else splitUnsigned false (c :: rest) := rfl

/-- The sign is the first byte, and the rest is the unsigned part: a text without a sign begins with a digit. -/
theorem split_eq_some_iff {s : List Byte} {t : DecimalText} : split s = some t ↔
    ∃ body, s = (if t.neg then [minusSign] else []) ++ body ∧ splitUnsigned t.neg body = some t := by
  have sign : ∀ {neg body}, splitUnsigned neg body = some t → t.neg = neg := fun h => by
    obtain ⟨_, _, _, -, -, -, -, -, rfl⟩ := splitUnsigned_eq_some_iff.1 h
    rfl
  constructor
  · intro h
    cases s with
    | nil => cases h
    | cons c rest =>
      rw [split_cons] at h
      split at h
      · rename_i minus
        exact ⟨rest, by rw [sign h, minus]; rfl, (sign h).symm ▸ h⟩
      · exact ⟨c :: rest, by rw [sign h]; rfl, (sign h).symm ▸ h⟩
  · rintro ⟨body, rfl, h⟩
    cases hneg : t.neg with
    | true =>
      rw [hneg] at h
      rw [if_pos rfl, List.singleton_append, split_cons, if_pos rfl, h]
    | false =>
      rw [hneg] at h
      obtain ⟨ds, fs, point, rfl, nonempty, hds, -⟩ := splitUnsigned_eq_some_iff.1 h
      obtain ⟨c, ds, rfl⟩ := List.exists_cons_of_ne_nil nonempty
      have notMinus : c ≠ minusSign := fun e => absurd (hds c List.mem_cons_self) (by subst e; decide)
      exact (if_neg notMinus).trans h

/-- The fractional part is a decimal fraction in [0, 1) (R83). -/
theorem fraction_lt_of_split {s : List Byte} {t : DecimalText} (h : split s = some t) : t.fraction < 10 ^ t.places := by
  obtain ⟨_, -, h⟩ := split_eq_some_iff.1 h
  obtain ⟨_, _, _, -, -, -, hfs, -, ht⟩ := splitUnsigned_eq_some_iff.1 h
  rw [ht]
  exact decimalValue_lt hfs

/-- Settles O22: the sign, then the unsigned part of the grammar. -/
theorem splitIsTheGrammar : Obligations.SplitIsTheGrammar := by
  refine ⟨fun s t => ?_, fun s t => fraction_lt_of_split⟩
  rw [split_eq_some_iff]
  constructor
  · rintro ⟨body, rfl, h⟩
    obtain ⟨ds, fs, point, rfl, nonempty, hds, hfs, noPoint, ht⟩ := splitUnsigned_eq_some_iff.1 h
    have fields := DecimalText.mk.inj ht
    exact ⟨ds, fs, point, (List.append_assoc _ _ _).symm, nonempty, hds, hfs, noPoint, fields.2⟩
  · rintro ⟨ds, fs, point, rfl, nonempty, hds, hfs, noPoint, whole, fraction, places⟩
    refine ⟨ds ++ pointPart point fs, List.append_assoc _ _ _, splitUnsigned_eq_some_iff.2
      ⟨ds, fs, point, rfl, nonempty, hds, hfs, noPoint, ?_⟩⟩
    rw [← whole, ← fraction, ← places]

end Sys2Proof.Codec
end

section
/-! PROOFS. PARSE_VALUE truncates toward minus infinity or is out of range, and how NEG_INT_PARSE = LITERAL differs
(spec/40_codec.md R84 to R87). -/
namespace Sys2Proof.FixedPoint

/-- An integer that differs from the pattern of x by a multiple of 2^N stands for x (R20). -/
theorem ofPat_emod {w : Nat} {x : FixedPoint w} {n : Int} (k : Int) (h : n = x.pat + k * 2 ^ (4 * w)) :
    ofPat (n % 2 ^ (4 * w)).toNat = x := by
  have small : (x.pat : Int) < 2 ^ (4 * w) := by exact_mod_cast x.pat_lt
  rw [← pat_inj, pat_ofPat, h, Int.add_mul_emod_self_right, Int.emod_eq_of_lt (Int.natCast_nonneg _) small,
    Int.toNat_natCast, Nat.mod_eq_of_lt x.pat_lt]

end Sys2Proof.FixedPoint

namespace Sys2Proof.Codec

open Sys2Proof.Machine

/-! ### Fraction to bits (R86) -/

theorem bitsValue_append (as bs : List Bool) : bitsValue (as ++ bs) = bitsValue as * 2 ^ bs.length + bitsValue bs := by
  induction bs using List.reverseRecOn with
  | nil => simp [bitsValue]
  | append_singleton bs b ih =>
    have concat : ∀ l : List Bool, bitsValue (l ++ [b]) = 2 * bitsValue l + b.toNat := fun l => by
      rw [bitsValue, List.foldl_append, ← bitsValue]
      rfl
    rw [← List.append_assoc, concat, concat, ih, List.length_append, List.length_singleton]
    ring

theorem bitsValue_cons (b : Bool) (bs : List Bool) : bitsValue (b :: bs) = b.toNat * 2 ^ bs.length + bitsValue bs := by
  rw [← List.singleton_append, bitsValue_append]
  simp [bitsValue]

theorem bitsValue_lt (bs : List Bool) : bitsValue bs < 2 ^ bs.length := by
  induction bs with
  | nil => decide
  | cons b bs ih =>
    have top : b.toNat * 2 ^ bs.length ≤ 1 * 2 ^ bs.length := Nat.mul_le_mul_right _ b.toNat_le
    rw [bitsValue_cons, List.length_cons, Nat.pow_succ]
    omega

@[simp] theorem length_fractionBits (den n r : Nat) (stopped : Bool) : (fractionBits den n r stopped).length = n := by
  induction n generalizing r stopped with
  | zero => rfl
  | succ n ih =>
    cases stopped with
    | true => simp [fractionBits, ih]
    | false =>
      rw [fractionBits]
      split
      · simp [ih]
      · split <;> simp [ih]

/-- Once the procedure has stopped, only zeros follow. -/
theorem bitsValue_fractionBits_stopped (den n r : Nat) : bitsValue (fractionBits den n r true) = 0 := by
  induction n with
  | zero => rfl
  | succ n ih => rw [fractionBits, bitsValue_cons, ih, Bool.toNat_false, Nat.zero_mul]

/-- The n bits of a fraction in [0, 1) are the fraction truncated to n bits. -/
theorem bitsValue_fractionBits {den r : Nat} (n : Nat) (h : r < den) :
    bitsValue (fractionBits den n r false) = r * 2 ^ n / den := by
  have hden : 0 < den := by omega
  induction n generalizing r with
  | zero => rw [pow_zero, mul_one, Nat.div_eq_of_lt h]; rfl
  | succ n ih =>
    have double : r * 2 ^ (n + 1) = 2 * r * 2 ^ n := by ring
    rw [fractionBits, double]
    split
    · rename_i carry
      obtain ⟨q, hq⟩ : ∃ q, 2 * r = den + q := ⟨2 * r - den, by omega⟩
      rw [bitsValue_cons, ih (by omega), length_fractionBits, hq, Nat.add_sub_cancel_left, Nat.add_mul,
        Nat.mul_add_div hden, Bool.toNat_true, Nat.one_mul]
    · split
      · rename_i half
        rw [bitsValue_cons, bitsValue_fractionBits_stopped, length_fractionBits, half, Nat.mul_div_cancel_left _ hden,
          Bool.toNat_true, Nat.one_mul, Nat.add_zero]
      · rw [bitsValue_cons, ih (by omega), Bool.toNat_false, Nat.zero_mul, Nat.zero_add]

/-- The n bits of the fraction 1, which only LITERAL has, are all 1. -/
theorem bitsValue_fractionBits_one {den : Nat} (n : Nat) (hden : 0 < den) :
    bitsValue (fractionBits den n den false) = 2 ^ n - 1 := by
  induction n with
  | zero => rfl
  | succ n ih =>
    have := Nat.two_pow_pos n
    rw [fractionBits, if_pos (by omega), show 2 * den - den = den by omega, bitsValue_cons, ih, length_fractionBits,
      Bool.toNat_true, Nat.pow_succ]
    omega

/-! ### The assembled value (R87) -/

/-- The F bits, sliced into three chunks of W bits. -/
theorem bitsValue_chunks {w : Nat} {bits : List Bool} (h : bits.length = 3 * w) :
    bitsValue bits = bitsValue (bits.take w) * (2 ^ w) ^ 2 + bitsValue ((bits.drop w).take w) * 2 ^ w
      + bitsValue ((bits.drop (2 * w)).take w) := by
  have last : (bits.drop (2 * w)).take w = bits.drop (2 * w) := List.take_of_length_le (by rw [List.length_drop]; omega)
  have first := bitsValue_append (bits.take w) (bits.drop w)
  have rest := bitsValue_append ((bits.drop w).take w) ((bits.drop w).drop w)
  rw [List.take_append_drop] at first rest
  rw [List.drop_drop, ← two_mul] at rest
  rw [first, rest, last, List.length_drop, List.length_drop, h, show 3 * w - w = w * 2 by omega,
    show 3 * w - 2 * w = w by omega, pow_mul]
  ring

theorem toNat_ofNat_chunk {w : Nat} (bits : List Bool) :
    (BitVec.ofNat w (bitsValue (bits.take w))).toNat = bitsValue (bits.take w) := by
  have := bitsValue_lt (bits.take w)
  rw [BitVec.toNat_ofNat]
  exact Nat.mod_eq_of_lt (this.trans_le (Nat.pow_le_pow_right (by decide) (List.length_take_le _ _)))

theorem pat_assemble {w : Nat} (i : Int) {bits : List Bool} (h : bits.length = 3 * w) :
    (assemble w i bits).pat = (BitVec.ofInt w i).toNat * 2 ^ (3 * w) + bitsValue bits := by
  have limbs : assemble w i bits = ⟨BitVec.ofInt w i, BitVec.ofNat w (bitsValue (bits.take w)),
      BitVec.ofNat w (bitsValue ((bits.drop w).take w)), BitVec.ofNat w (bitsValue ((bits.drop (2 * w)).take w))⟩ := by
    simp [assemble, FixedPoint.ofLimbs]
  rw [limbs, FixedPoint.pat_base, bitsValue_chunks h, toNat_ofNat_chunk, toNat_ofNat_chunk, toNat_ofNat_chunk,
    Nat.mul_comm 3 w, pow_mul]
  ring

/-- The assembled value is I' units and the F bits, modulo 2^N. -/
theorem assemble_eq_ofPat {w : Nat} (i : Int) {bits : List Bool} (h : bits.length = 3 * w) :
    assemble w i bits = FixedPoint.ofPat ((i * 2 ^ (3 * w) + bitsValue bits) % 2 ^ (4 * w)).toNat := by
  refine (FixedPoint.ofPat_emod (i / 2 ^ w) ?_).symm
  have limb0 : ((BitVec.ofInt w i).toNat : Int) = i % 2 ^ w := by
    rw [BitVec.toNat_ofInt, Int.toNat_of_nonneg (Int.emod_nonneg _ (by positivity))]
    push_cast
    rfl
  have full : (2 : Int) ^ (4 * w) = 2 ^ w * 2 ^ (3 * w) := by
    rw [← pow_add]
    congr 1
    omega
  rw [pat_assemble i h, full]
  push_cast
  rw [limb0]
  linear_combination -(2 : Int) ^ (3 * w) * Int.mul_ediv_add_emod i (2 ^ w)

/-! ### The adjusted pair and the range checks (R84, R85) -/

theorem adjusted_of_fraction {t : DecimalText} (mode : NegIntParse) (hneg : t.neg = true) (h : 0 < t.fraction) :
    t.adjusted mode = (t.integer - 1, t.denominator - t.fraction) := if_pos ⟨hneg, h⟩

theorem adjusted_of_nonneg {t : DecimalText} (mode : NegIntParse) (hneg : t.neg = false) :
    t.adjusted mode = (t.integer, t.fraction) := by
  simp [DecimalText.adjusted, hneg]

theorem adjusted_exact_of_integer {t : DecimalText} (h : t.fraction = 0) :
    t.adjusted .exact = (t.integer, 0) := by
  simp [DecimalText.adjusted, h]

theorem adjusted_literal_of_integer {t : DecimalText} (hneg : t.neg = true) (h : t.fraction = 0) :
    t.adjusted .literal = (t.integer - 1, t.denominator) := by
  simp [DecimalText.adjusted, hneg, h]

/-- The two modes adjust alike unless the text is negative with a zero fraction. -/
theorem adjusted_literal_eq_exact {t : DecimalText} (h : t.neg = false ∨ 0 < t.fraction) :
    t.adjusted .literal = t.adjusted .exact := by
  cases hneg : t.neg with
  | false => rw [adjusted_of_nonneg _ hneg, adjusted_of_nonneg _ hneg]
  | true =>
    have hf := h.resolve_left (by simp [hneg])
    rw [adjusted_of_fraction _ hneg hf, adjusted_of_fraction _ hneg hf]

/-- I is not lowered but on a negative text, where I is at most 0. -/
theorem adjusted_integer (mode : NegIntParse) (t : DecimalText) :
    (t.adjusted mode).1 = t.integer ∨ (t.integer ≤ 0 ∧ (t.adjusted mode).1 = t.integer - 1) := by
  have nonpos : t.neg = true → t.integer ≤ 0 := fun hneg => by
    rw [DecimalText.integer, if_pos hneg]
    omega
  rw [DecimalText.adjusted]
  split
  · rename_i h
    exact .inr ⟨nonpos h.1, rfl⟩
  · split
    · rename_i h
      exact .inr ⟨nonpos h.1, rfl⟩
    · exact .inl rfl

/-- Under EXACT the adjusted pair (I', f') is the value of the text with 0 ≤ f' < 1. -/
theorem adjusted_exact {t : DecimalText} (h : t.fraction < 10 ^ t.places) :
    (t.adjusted .exact).2 < t.denominator ∧
      decimalNumerator t = (t.adjusted .exact).1 * t.denominator + (t.adjusted .exact).2 := by
  have hden : t.denominator = 10 ^ t.places := rfl
  rw [← hden] at h
  cases hneg : t.neg with
  | false =>
    rw [adjusted_of_nonneg _ hneg]
    refine ⟨h, ?_⟩
    simp [decimalNumerator, DecimalText.integer, hneg, hden]
  | true =>
    rcases Nat.eq_zero_or_pos t.fraction with zero | pos
    · rw [adjusted_exact_of_integer zero]
      refine ⟨by omega, ?_⟩
      simp [decimalNumerator, DecimalText.integer, hneg, hden, zero]
    · rw [adjusted_of_fraction _ hneg pos]
      refine ⟨by omega, ?_⟩
      simp only [decimalNumerator, DecimalText.integer, hneg, ← hden, if_true]
      push_cast [h.le]
      ring

/-- The two range checks together say that I' is in the range of a limb (R84, R85). -/
theorem parseValue_eq (w : Nat) (mode : NegIntParse) (t : DecimalText) :
    parseValue w mode t =
      if -2 ^ (w - 1) ≤ (t.adjusted mode).1 ∧ (t.adjusted mode).1 < 2 ^ (w - 1) then
        some (FixedPoint.ofPat (((t.adjusted mode).1 * 2 ^ (3 * w) + bitsValue (fractionBits t.denominator (3 * w)
          (t.adjusted mode).2 false)) % 2 ^ (4 * w)).toNat)
      else none := by
  have one : (1 : Int) ≤ 2 ^ (w - 1) := one_le_pow₀ (by decide)
  have lowered := adjusted_integer mode t
  simp only [parseValue, assemble_eq_ofPat _ (length_fractionBits _ _ _ _), inLimbRange, decide_eq_false_iff_not]
  generalize (2 : Int) ^ (w - 1) = half at *
  split
  · rw [if_neg (by omega)]
  · split
    · rw [if_neg (by omega)]
    · rw [if_pos (by omega)]

/-- Settles O23: I' is the floor of the value, and the bits are the floor of the rest. -/
theorem parseValueTruncatesDown : Obligations.ParseValueTruncatesDown := by
  intro d t h
  obtain ⟨fraction, value⟩ := adjusted_exact h
  have hden : ((10 : Int) ^ t.places) = t.denominator := by simp [DecimalText.denominator]
  have den : (0 : Int) < t.denominator := by rw [← hden]; positivity
  rw [parseValue_eq, bitsValue_fractionBits _ fraction, value, hden]
  generalize t.adjusted .exact = p at *
  obtain ⟨i, r⟩ := p
  have hr : (r : Int) < t.denominator := by exact_mod_cast fraction
  have quotient : (i * t.denominator + r) / t.denominator = i := by
    rw [add_comm, Int.add_mul_ediv_right _ _ den.ne', Int.ediv_eq_zero_of_lt (Int.natCast_nonneg r) hr, zero_add]
  have floor : (i * t.denominator + r) * 2 ^ (3 * d.bits) / t.denominator =
      i * 2 ^ (3 * d.bits) + (r * 2 ^ (3 * d.bits) / t.denominator : Nat) := by
    rw [show (i * t.denominator + r) * 2 ^ (3 * d.bits) =
      r * 2 ^ (3 * d.bits) + i * 2 ^ (3 * d.bits) * t.denominator by ring, Int.add_mul_ediv_right _ _ den.ne', add_comm]
    push_cast
    rfl
  simp only [floor, ← neg_mul, ← Int.le_ediv_iff_mul_le den, ← Int.ediv_lt_iff_lt_mul den, quotient]

/-- One ulp below the negative integer -n. -/
theorem ofPat_ulp_below {w n : Nat} (h : n + 1 ≤ 2 ^ (w - 1)) :
    (FixedPoint.ofPat (((-(n : Int) - 1) * 2 ^ (3 * w) + (2 ^ (3 * w) - 1 : Nat)) % 2 ^ (4 * w)).toNat : FixedPoint w) =
      FixedPoint.ofPat (2 ^ (4 * w) - n * 2 ^ (3 * w) - 1) := by
  have unit : 1 ≤ 2 ^ (3 * w) := Nat.one_le_two_pow
  have fits : (n + 1) * 2 ^ (3 * w) ≤ 2 ^ (4 * w) := by
    rw [show 4 * w = w + 3 * w by omega, pow_add]
    exact Nat.mul_le_mul_right _ (h.trans (Nat.pow_le_pow_right (by decide) (Nat.sub_le w 1)))
  rw [Nat.succ_mul] at fits
  refine FixedPoint.ofPat_emod (-1) ?_
  rw [FixedPoint.pat_ofPat, Nat.mod_eq_of_lt (by omega), Nat.sub_sub, Nat.cast_sub unit, Nat.cast_sub (by omega)]
  push_cast
  ring

/-- Settles O24: the two modes adjust alike but on negative integers, where LITERAL takes the fraction 1 from I - 1. -/
theorem literalParseOfNegativeIntegers : Obligations.LiteralParseOfNegativeIntegers := by
  intro d t h
  constructor
  · intro same
    rw [parseValue_eq, parseValue_eq, adjusted_literal_eq_exact same]
  · intro hneg zero
    have den : 0 < t.denominator := Nat.pow_pos (by decide)
    have integer : t.integer = -(t.whole : Int) := if_pos hneg
    have half : (2 ^ (d.bits - 1) : Int) = (2 ^ (d.bits - 1) : Nat) := by push_cast; rfl
    rw [parseValue_eq, adjusted_literal_of_integer hneg zero, integer, bitsValue_fractionBits_one _ den, half]
    by_cases range : t.whole + 1 ≤ 2 ^ (d.bits - 1)
    · rw [if_pos (by omega), if_pos range, ofPat_ulp_below range]
    · rw [if_neg (by omega), if_neg range]

end Sys2Proof.Codec
end

section
/-! PROOFS. PARSE writes the value of its text and only rd, or takes the fault of its checks (spec/20_memory.md R47;
spec/40_codec.md R91; spec/60_exceptions.md R140 to R142). -/
namespace Sys2Proof.Machine

/-! ### The byte scan of a string operand (R91), one lemma per answer -/

theorem State.scanText_succ_of_byte {s : State} {a : Nat} (n : Nat) (inside : a < s.memSize) (h : s.byteAt a ≠ 0) :
    s.scanText a (n + 1) = (s.scanText (a + 1) n).cons (s.byteAt a) := by
  rw [State.scanText, if_neg (by omega), if_neg h]

/-- A text of fewer than n bytes is found by a scan of n. -/
theorem State.scanText_of_text {s : State} {a n : Nat} {bytes : List Byte} (fits : bytes.length < n)
    (inside : a + bytes.length < s.memSize) (nul : s.byteAt (a + bytes.length) = 0)
    (held : ∀ k, (h : k < bytes.length) → bytes[k] ≠ 0 ∧ s.byteAt (a + k) = bytes[k]) :
    s.scanText a n = .text bytes := by
  induction bytes generalizing a n with
  | nil =>
    obtain ⟨n, rfl⟩ := Nat.exists_eq_succ_of_ne_zero (Nat.ne_of_gt fits)
    have inside : a < s.memSize := inside
    rw [State.scanText, if_neg (by omega)]
    exact if_pos nul
  | cons c bytes ih =>
    obtain ⟨n, rfl⟩ := Nat.exists_eq_succ_of_ne_zero (Nat.ne_zero_of_lt fits)
    obtain ⟨first, byte⟩ := held 0 (Nat.succ_pos _)
    have byte : s.byteAt a = c := byte
    rw [List.length_cons] at fits inside nul
    have rest : s.scanText (a + 1) n = .text bytes := by
      refine ih (by omega) (by omega) (by rwa [Nat.add_right_comm]) fun k hk => ?_
      rw [Nat.add_right_comm]
      exact held (k + 1) (Nat.succ_lt_succ hk)
    rw [State.scanText_succ_of_byte n (by omega) (byte ▸ first), rest, byte]
    rfl

/-- A scan that reaches the end of memory before a NUL gives the first address outside. -/
theorem State.scanText_of_outOfRange {s : State} {a n : Nat} (long : s.memSize - a < n)
    (noNul : ∀ k, k < s.memSize - a → s.byteAt (a + k) ≠ 0) : s.scanText a n = .outOfRange (max a s.memSize) := by
  induction n generalizing a with
  | zero => omega
  | succ n ih =>
    by_cases outside : s.memSize ≤ a
    · rw [State.scanText, if_pos outside, max_eq_left outside]
    · have rest : s.scanText (a + 1) n = .outOfRange (max (a + 1) s.memSize) :=
        ih (by omega) fun k hk => Nat.add_right_comm a 1 k ▸ noNul (k + 1) (by omega)
      rw [State.scanText_succ_of_byte (a := a) n (by omega) (noNul 0 (by omega)), rest, max_eq_right (by omega),
        max_eq_right (by omega)]
      rfl

/-- A scan of n bytes of memory without a NUL finds no end. -/
theorem State.scanText_of_noEnd {s : State} {a n : Nat} (inside : a + n ≤ s.memSize)
    (noNul : ∀ k, k < n → s.byteAt (a + k) ≠ 0) : s.scanText a n = .noEnd := by
  induction n generalizing a with
  | zero => rfl
  | succ n ih =>
    have rest : s.scanText (a + 1) n = .noEnd :=
      ih (by omega) fun k hk => Nat.add_right_comm a 1 k ▸ noNul (k + 1) (by omega)
    rw [State.scanText_succ_of_byte (a := a) n (by omega) (noNul 0 (by omega)), rest]
    rfl

/-- The scan of PARSE finds the text that memory holds. -/
theorem State.HoldsText.scan {s : State} {a : Nat} {bytes : List Byte} (h : s.HoldsText a bytes) :
    s.scanText a (Config.strMax + 1) = .text bytes := by
  obtain ⟨short, inside, nul, held⟩ := h
  exact State.scanText_of_text (Nat.lt_succ_of_le short) inside nul held

/-! ### What PARSE makes of the string at its operand (R91) -/

theorem State.parseAt_of_outOfRange {s : State} {a : Word} {addr : Nat}
    (h : s.scanText a.toNat (Config.strMax + 1) = .outOfRange addr) :
    s.parseAt a = .inr (.bus, BitVec.ofNat 32 addr) := by
  rw [State.parseAt, h]

theorem State.parseAt_of_noEnd {s : State} {a : Word} (h : s.scanText a.toNat (Config.strMax + 1) = .noEnd) :
    s.parseAt a = .inr (.parseSyntax, a) := by
  rw [State.parseAt, h]

theorem State.parseAt_of_malformed {s : State} {a : Word} {bytes : List Byte} (h : s.HoldsText a.toNat bytes)
    (malformed : Codec.split bytes = none) : s.parseAt a = .inr (.parseSyntax, a) := by
  simp only [State.parseAt, h.scan, malformed]

theorem State.parseAt_of_tooLarge {s : State} {a : Word} {bytes : List Byte} {t : Codec.DecimalText}
    (h : s.HoldsText a.toNat bytes) (text : Codec.split bytes = some t)
    (range : Codec.parseValue s.w s.dev.negIntParse t = none) : s.parseAt a = .inr (.parseRange, a) := by
  simp only [State.parseAt, h.scan, text, range]

theorem State.parseAt_of_value {s : State} {a : Word} {bytes : List Byte} {t : Codec.DecimalText} {x : FixedPoint s.w}
    (h : s.HoldsText a.toNat bytes) (text : Codec.split bytes = some t)
    (value : Codec.parseValue s.w s.dev.negIntParse t = some x) : s.parseAt a = .inl x := by
  simp only [State.parseAt, h.scan, text, value]

/-! ### The command -/

/-- Settles O25, by the answer of PARSE to a well-formed text in range. -/
theorem parseWritesTheValue : Obligations.ParseWritesTheValue := by
  intro s rd a bytes t x held text value
  exact ⟨_, exec_parse_of_value rd (State.parseAt_of_value held text value),
    congrArg FixedPoint.pat (s.readF_writeF_same rd x), s.wroteOnly_advance rd x⟩

/-- Settles O26, by the answer of PARSE in each of its four faults. -/
theorem parseFaults : Obligations.ParseFaults := by
  intro s rd a
  refine ⟨fun near noNul => ?_, fun inside noNul => ?_, fun bytes held malformed => ?_,
    fun bytes t held text range => ?_⟩
  · have scan := State.scanText_of_outOfRange (Nat.lt_succ_of_le near) noNul
    exact ⟨_, exec_parse_of_fault rd (State.parseAt_of_outOfRange scan), rfl⟩
  · have scan := State.scanText_of_noEnd inside fun k hk => noNul k (Nat.le_of_lt_succ hk)
    exact ⟨_, exec_parse_of_fault rd (State.parseAt_of_noEnd scan), rfl⟩
  · exact ⟨_, exec_parse_of_fault rd (State.parseAt_of_malformed held malformed), rfl⟩
  · exact ⟨_, exec_parse_of_fault rd (State.parseAt_of_tooLarge held text range), rfl⟩

end Sys2Proof.Machine
end

section
/-! PROOFS. The text that FMT writes: its sign, its two numbers in decimal, and its length (spec/40_codec.md R88
to R90). -/
namespace Sys2Proof.FixedPoint

variable {w : Nat}

/-- val(X) is at least -2^(W-1) and below 2^(W-1) (R21, R22). -/
theorem sval_bounds (x : FixedPoint w) (hw : 0 < w) :
    -(2 ^ (w - 1) * 2 ^ (3 * w)) ≤ x.sval ∧ x.sval < 2 ^ (w - 1) * 2 ^ (3 * w) := by
  have half : (2 : Int) ^ (4 * w - 1) = 2 ^ (w - 1) * 2 ^ (3 * w) := by
    rw [← pow_add]
    congr 1
    omega
  have full : (2 : Int) ^ (4 * w) = 2 * 2 ^ (4 * w - 1) := by
    rw [← pow_succ']
    congr 1
    omega
  have low : (0 : Int) ≤ x.pat := Int.natCast_nonneg _
  have high : (x.pat : Int) < 2 ^ (4 * w) := by exact_mod_cast x.pat_lt
  have cut : x.pat < 2 ^ (4 * w - 1) ↔ (x.pat : Int) < 2 ^ (4 * w - 1) := by
    rw [← Nat.cast_lt (α := Int)]
    push_cast
    rfl
  rw [← half, sval]
  generalize (2 : Int) ^ (4 * w - 1) = h at *
  split <;> omega

/-- The value of a pattern stands for it (R21). -/
theorem ofPat_sval (x : FixedPoint w) : ofPat (x.sval % 2 ^ (4 * w)).toNat = x := by
  rw [sval]
  split
  · exact ofPat_emod 0 (by ring)
  · exact ofPat_emod (-1) (by ring)

end Sys2Proof.FixedPoint

namespace Sys2Proof.Codec

open Sys2Proof.Machine

/-! ### Digit characters (R81) -/

theorem toNat_digitChar {n : Nat} (h : n < 10) : (BitVec.ofNat 8 (0x30 + n)).toNat = 0x30 + n := by
  rw [BitVec.toNat_ofNat]
  omega

theorem areDigits_digitChars {ds : List Nat} (h : ∀ n ∈ ds, n < 10) : areDigits (digitChars ds) := by
  intro c hc
  obtain ⟨n, hn, rfl⟩ := List.mem_map.1 hc
  have := h n hn
  rw [toNat_digitChar this]
  omega

theorem decimalValue_digitChars {ds : List Nat} (h : ∀ n ∈ ds, n < 10) :
    decimalValue (digitChars ds) = Nat.ofDigits 10 ds.reverse := by
  have digits : (digitChars ds).map (fun c => c.toNat - 0x30) = ds := by
    rw [digitChars, List.map_map]
    refine (List.map_congr_left fun n hn => ?_).trans (List.map_id ds)
    rw [Function.comp_apply, toNat_digitChar (h n hn), Nat.add_sub_cancel_left, id]
  rw [decimalValue, List.map_reverse, digits]

@[simp] theorem length_digitChars (ds : List Nat) : (digitChars ds).length = ds.length := List.length_map _

theorem digitChars_ne_nil {ds : List Nat} : digitChars ds ≠ [] ↔ ds ≠ [] := not_congr List.map_eq_nil_iff

/-- Only the digit 0 has the character '0'. -/
theorem eq_zero_of_digitChar {d : Option Nat} (h : ∀ n ∈ d, n < 10)
    (hz : d.map (fun n => BitVec.ofNat 8 (0x30 + n)) = some 0x30#8) : d = some 0 := by
  obtain ⟨n, rfl, hn⟩ := Option.map_eq_some_iff.1 hz
  have value := toNat_digitChar (h n rfl)
  rw [hn] at value
  exact congrArg some (Nat.add_left_cancel value.symm)

/-! ### The digits of a number (R89) -/

theorem length_decimalDigits (k n : Nat) : (decimalDigits k n).length = k := by
  induction k generalizing n with
  | zero => rfl
  | succ k ih => rw [decimalDigits, List.length_append, ih, List.length_singleton]

theorem lt_of_mem_decimalDigits {k n d : Nat} (h : d ∈ decimalDigits k n) : d < 10 := by
  induction k generalizing n with
  | zero => cases h
  | succ k ih =>
    rcases List.mem_append.1 h with h | h
    · exact ih h
    · rw [List.mem_singleton.1 h]
      exact Nat.mod_lt _ (by decide)

theorem ofDigits_decimalDigits {k n : Nat} (h : n < 10 ^ k) : Nat.ofDigits 10 (decimalDigits k n).reverse = n := by
  induction k generalizing n with
  | zero =>
    rw [pow_zero, Nat.lt_one_iff] at h
    rw [h]
    rfl
  | succ k ih =>
    rw [decimalDigits, List.reverse_append, List.reverse_singleton, List.singleton_append, Nat.ofDigits_cons,
      ih (by omega), Nat.mod_add_div]

/-- Without leading zeros they are the digits of the library. -/
theorem dropWhile_decimalDigits {k n : Nat} (h : n < 10 ^ k) :
    (decimalDigits k n).dropWhile (fun d => d == 0) = (Nat.digits 10 n).reverse := by
  induction k generalizing n with
  | zero =>
    rw [pow_zero, Nat.lt_one_iff] at h
    simp [h, decimalDigits]
  | succ k ih =>
    rw [decimalDigits, List.dropWhile_append, ih (by omega)]
    rcases Nat.eq_zero_or_pos n with rfl | pos
    · rfl
    · rw [Nat.digits_def' (by decide) pos, List.reverse_cons]
      split
      · rename_i noHigher
        have high : n / 10 = 0 := Nat.digits_eq_nil_iff_eq_zero.1 (by simpa using noHigher)
        have low : n % 10 ≠ 0 := by omega
        simp [high, low]
      · rfl

/-- Removing trailing zeros keeps the fraction that the digits denote. -/
theorem ofDigits_rdropWhile (l : List Nat) :
    Nat.ofDigits 10 (l.rdropWhile fun d => d == 0).reverse * 10 ^ l.length =
      Nat.ofDigits 10 l.reverse * 10 ^ (l.rdropWhile fun d => d == 0).length := by
  induction l using List.reverseRecOn with
  | nil => rfl
  | append_singleton l d ih =>
    rw [List.rdropWhile_concat]
    split
    · rename_i zero
      rw [List.length_append, List.length_singleton, pow_succ, ← mul_assoc, ih, eq_of_beq zero, List.reverse_append,
        List.reverse_singleton, List.singleton_append, Nat.ofDigits_cons]
      ring
    · rfl

/-! ### The two numbers of the text (R89) -/

theorem wholeText_of_ne_zero {n : Nat} (h : n < 10 ^ 20) (nonzero : n ≠ 0) :
    wholeText n = digitChars (Nat.digits 10 n).reverse := by
  rw [wholeText, if_neg nonzero, dropWhile_decimalDigits h]

theorem wholeText_zero : wholeText 0 = digitChars [0] := rfl

/-- The characters of the whole part are its digits with no leading zero, or the single digit 0. -/
theorem wholeText_spec {n : Nat} (h : n < 10 ^ 20) :
    wholeText n ≠ [] ∧ areDigits (wholeText n) ∧ ((wholeText n).head? = some 0x30 → wholeText n = [0x30]) ∧
      decimalValue (wholeText n) = n := by
  rcases eq_or_ne n 0 with rfl | nonzero
  · exact ⟨List.cons_ne_nil _ _, areDigits_digitChars (by decide), fun _ => rfl, rfl⟩
  · have digits : ∀ d ∈ (Nat.digits 10 n).reverse, d < 10 := fun d hd =>
      Nat.digits_lt_base (by decide) (List.mem_reverse.1 hd)
    have nonempty : Nat.digits 10 n ≠ [] := Nat.digits_ne_nil_iff_ne_zero.2 nonzero
    rw [wholeText_of_ne_zero h nonzero]
    refine ⟨digitChars_ne_nil.2 (mt List.reverse_eq_nil_iff.1 nonempty), areDigits_digitChars digits,
      fun head => ?_, ?_⟩
    · rw [digitChars, List.head?_map] at head
      have zero := eq_zero_of_digitChar (fun d hd => digits d (List.mem_of_mem_head? hd)) head
      rw [List.head?_reverse, List.getLast?_eq_getLast_of_ne_nil nonempty] at zero
      exact absurd (Option.some.inj zero) (Nat.getLast_digit_ne_zero 10 nonzero)
    · rw [decimalValue_digitChars digits, List.reverse_reverse, Nat.ofDigits_digits]

theorem length_wholeText_le {n k : Nat} (hk : 0 < k) (small : n < 10 ^ 20) (h : n < 10 ^ k) :
    (wholeText n).length ≤ k := by
  rcases eq_or_ne n 0 with rfl | nonzero
  · exact hk
  · rw [wholeText_of_ne_zero small nonzero, length_digitChars, List.length_reverse]
    exact (Nat.digits_length_le_iff (by decide) n).2 h

theorem fractionText_of_ne_zero {k n : Nat} (nonzero : n ≠ 0) :
    fractionText k n = digitChars ((decimalDigits k n).rdropWhile fun d => d == 0) := if_neg nonzero

theorem fractionText_zero (k : Nat) : fractionText k 0 = digitChars [0] := rfl

/-- The characters of the fraction n / 10^k are its digits with no trailing zero, or the single digit 0. -/
theorem fractionText_spec {k n : Nat} (h : n < 10 ^ k) :
    fractionText k n ≠ [] ∧ areDigits (fractionText k n) ∧
      ((fractionText k n).getLast? = some 0x30 → fractionText k n = [0x30]) ∧
      decimalValue (fractionText k n) * 10 ^ k = n * 10 ^ (fractionText k n).length := by
  rcases eq_or_ne n 0 with rfl | nonzero
  · rw [fractionText_zero]
    refine ⟨List.cons_ne_nil _ _, areDigits_digitChars (by decide), fun _ => rfl, ?_⟩
    rw [decimalValue_digitChars (by decide), Nat.zero_mul]
    exact Nat.zero_mul _
  · have value := ofDigits_rdropWhile (decimalDigits k n)
    have kept := List.rdropWhile_prefix (fun d : Nat => d == 0) (l := decimalDigits k n)
    have last := List.rdropWhile_last_not (fun d : Nat => d == 0) (decimalDigits k n)
    rw [ofDigits_decimalDigits h, length_decimalDigits] at value
    rw [fractionText_of_ne_zero nonzero]
    generalize (decimalDigits k n).rdropWhile (fun d => d == 0) = ds at *
    have digits : ∀ d ∈ ds, d < 10 := fun d hd => lt_of_mem_decimalDigits (kept.subset hd)
    have nonempty : ds ≠ [] := by
      rintro rfl
      exact nonzero (by simpa using value.symm)
    refine ⟨digitChars_ne_nil.2 nonempty, areDigits_digitChars digits, fun zero => ?_, ?_⟩
    · rw [digitChars, List.getLast?_map] at zero
      have zero := eq_zero_of_digitChar (fun d hd => digits d (List.mem_of_mem_getLast? hd)) zero
      rw [List.getLast?_eq_getLast_of_ne_nil nonempty] at zero
      exact absurd (beq_iff_eq.2 (Option.some.inj zero)) (last nonempty)
    · rw [decimalValue_digitChars digits, length_digitChars, value]

theorem length_fractionText_le {k : Nat} (hk : 0 < k) (n : Nat) : (fractionText k n).length ≤ k := by
  rcases eq_or_ne n 0 with rfl | nonzero
  · exact hk
  · rw [fractionText_of_ne_zero nonzero, length_digitChars]
    exact (List.rdropWhile_prefix _ _).length_le.trans (length_decimalDigits k n).le

/-! ### The text of a value (R88 to R90) -/

theorem width_bits_pos (d : Width) : 0 < d.bits := by
  cases d <;> decide

/-- Two fractions that are equal have the same whole part, and fractional parts that are equal. -/
theorem div_mod_of_mul_eq {a b v s : Nat} (ha : 0 < a) (hb : 0 < b) (h : v * a = s * b) :
    v / b = s / a ∧ v % b * a = s % a * b := by
  rw [← Nat.mul_div_mul_right v b ha, ← Nat.mul_mod_mul_right, h, Nat.mul_comm b a]
  exact ⟨Nat.mul_div_mul_right s a hb, Nat.mul_mod_mul_right b s a⟩

/-- The sign and the two numbers of FORMAT_VALUE are those of val(X) (R21, R88). -/
theorem formatValue_parts (d : Width) (x : FixedPoint d.bits) :
    (formatValue x < 0 ↔ x.sval < 0) ∧
    (formatValue x).natAbs / 10 ^ (3 * d.bits) = x.sval.natAbs / 2 ^ (3 * d.bits) ∧
    (formatValue x).natAbs % 10 ^ (3 * d.bits) * 2 ^ (3 * d.bits) =
      x.sval.natAbs % 2 ^ (3 * d.bits) * 10 ^ (3 * d.bits) := by
  have exact := formatValueIsExact d x
  have two : (0 : Int) < 2 ^ (3 * d.bits) := by positivity
  have ten : (0 : Int) < 10 ^ (3 * d.bits) := by positivity
  have scaled : ∀ {n c : Int}, 0 < c → (n * c < 0 ↔ n < 0) := fun hc =>
    ⟨fun h => neg_of_mul_neg_left h hc.le, fun h => mul_neg_of_neg_of_pos h hc⟩
  refine ⟨?_, div_mod_of_mul_eq (by positivity) (by positivity) ?_⟩
  · rw [← scaled two, exact, scaled ten]
  · simpa [Int.natAbs_mul, Int.natAbs_pow] using congrArg Int.natAbs exact

/-- The text of a value by its sign and its two numbers (R89). -/
theorem formatText_eq (d : Width) (x : FixedPoint d.bits) : formatText x =
    (if x.sval < 0 then [minusSign] else []) ++ wholeText (x.sval.natAbs / 2 ^ (3 * d.bits)) ++ [fullStop] ++
      fractionText (3 * d.bits) ((formatValue x).natAbs % 10 ^ (3 * d.bits)) := by
  obtain ⟨sign, whole, -⟩ := formatValue_parts d x
  rw [formatText, whole]
  simp only [sign]

/-- |val(X)| has at most the whole part 2^(W-1) (R22). -/
theorem whole_le (d : Width) (x : FixedPoint d.bits) : x.sval.natAbs / 2 ^ (3 * d.bits) ≤ 2 ^ (d.bits - 1) := by
  obtain ⟨low, high⟩ := x.sval_bounds (width_bits_pos d)
  refine Nat.div_le_of_le_mul ?_
  rw [Nat.mul_comm]
  zify
  exact abs_le.2 ⟨low, high.le⟩

/-- FMT's text is the text of the value (R89). -/
theorem formatText_isTextOf (d : Width) (x : FixedPoint d.bits) : IsTextOf x (formatText x) := by
  obtain ⟨-, -, fraction⟩ := formatValue_parts d x
  have small : x.sval.natAbs / 2 ^ (3 * d.bits) < 10 ^ 20 :=
    (whole_le d x).trans_lt (by cases d <;> decide)
  have below : (formatValue x).natAbs % 10 ^ (3 * d.bits) < 10 ^ (3 * d.bits) := Nat.mod_lt _ (by positivity)
  obtain ⟨ds, hds, lead, whole⟩ := wholeText_spec small
  obtain ⟨fs, hfs, trail, value⟩ := fractionText_spec below
  refine ⟨_, _, formatText_eq d x, ds, hds, lead, fs, hfs, trail, whole, ?_⟩
  generalize fractionText _ _ = text at *
  refine Nat.eq_of_mul_eq_mul_right (show 0 < 10 ^ (3 * d.bits) by positivity) ?_
  calc decimalValue text * 2 ^ (3 * d.bits) * 10 ^ (3 * d.bits)
      = decimalValue text * 10 ^ (3 * d.bits) * 2 ^ (3 * d.bits) := Nat.mul_right_comm _ _ _
    _ = (formatValue x).natAbs % 10 ^ (3 * d.bits) * 2 ^ (3 * d.bits) * 10 ^ text.length := by
      rw [value, Nat.mul_right_comm]
    _ = _ := by rw [fraction, Nat.mul_right_comm]

/-- The length of the text: a sign, the digits of the whole part, the full stop and at most F digits (R90). -/
theorem length_formatText (d : Width) (x : FixedPoint d.bits) {k : Nat} (hk : 0 < k) (small : k ≤ 20)
    (h : 2 ^ (d.bits - 1) < 10 ^ k) : 3 ≤ (formatText x).length ∧ (formatText x).length ≤ 1 + k + 1 + 3 * d.bits := by
  have whole := (whole_le d x).trans_lt h
  have big := whole.trans_le (Nat.pow_le_pow_right (by decide) small)
  have sign : (if x.sval < 0 then [minusSign] else []).length ≤ 1 := by split <;> decide
  have below : (formatValue x).natAbs % 10 ^ (3 * d.bits) < 10 ^ (3 * d.bits) := Nat.mod_lt _ (by positivity)
  have hw := width_bits_pos d
  have ds := List.length_pos_of_ne_nil (wholeText_spec big).1
  have fs := List.length_pos_of_ne_nil (fractionText_spec below).1
  have dsLe := length_wholeText_le hk big whole
  have fsLe := length_fractionText_le (k := 3 * d.bits) (by omega) ((formatValue x).natAbs % 10 ^ (3 * d.bits))
  rw [formatText_eq]
  simp only [List.length_append, List.length_singleton]
  omega

/-- Settles O28: 2^31 has 10 digits and 2^63 has 19. -/
theorem formatTextLength : Obligations.FormatTextLength :=
  ⟨fun x => length_formatText .w32 x (k := 10) (by decide) (by decide) (by decide),
    fun x => length_formatText .w64 x (k := 19) (by decide) (by decide) (by decide)⟩

end Sys2Proof.Codec
end

section
/-! PROOFS. The text of a value read back by PARSE, and the command FMT (spec/40_codec.md R92, R93). -/
namespace Sys2Proof.Codec

open Sys2Proof.Machine

/-! ### The text read back (R93) -/

/-- A split text of the sign and the magnitude of n / 2^F denotes n / 2^F. -/
theorem decimalNumerator_of_magnitude {t : DecimalText} {n : Int} {c : Nat} (sign : t.neg = decide (n < 0))
    (magnitude : (t.whole * 10 ^ t.places + t.fraction) * c = n.natAbs * 10 ^ t.places) :
    decimalNumerator t * c = n * 10 ^ t.places := by
  have scaled : ((t.whole * 10 ^ t.places + t.fraction : Nat) : Int) * c = n.natAbs * 10 ^ t.places := by
    exact_mod_cast magnitude
  rw [decimalNumerator, sign]
  by_cases negative : n < 0
  · rw [if_pos (decide_eq_true negative), neg_mul, scaled, Int.ofNat_natAbs_of_nonpos negative.le, neg_mul, neg_neg]
  · rw [if_neg (by simpa using negative), scaled, Int.natAbs_of_nonneg (not_lt.1 negative)]

/-- PARSE accepts the text of a value and takes from it the value itself. -/
theorem split_of_isTextOf {w : Nat} {x : FixedPoint w} {text : List Byte} (h : IsTextOf x text) :
    ∃ t, split text = some t ∧ decimalNumerator t * (2 ^ (3 * w) : Nat) = x.sval * 10 ^ t.places := by
  obtain ⟨ds, fs, rfl, nonempty, hds, -, -, hfs, -, whole, fraction⟩ := h
  refine ⟨⟨decide (x.sval < 0), decimalValue ds, decimalValue fs, fs.length⟩, split_eq_some_iff.2 ⟨_, ?_,
    splitUnsigned_eq_some_iff.2 ⟨ds, fs, true, rfl, nonempty, hds, hfs, nofun, rfl⟩⟩,
    decimalNumerator_of_magnitude rfl ?_⟩
  · simp [pointPart, minusSign, fullStop]
  · rw [Nat.add_mul, fraction, whole, Nat.mul_right_comm, ← Nat.add_mul, Nat.div_add_mod']

/-- PARSE_VALUE gives a value that the text denotes exactly (R87). -/
theorem parseValue_of_exact {d : Width} {x : FixedPoint d.bits} {t : DecimalText} (h : t.fraction < 10 ^ t.places)
    (value : decimalNumerator t * (2 ^ (3 * d.bits) : Nat) = x.sval * 10 ^ t.places) :
    parseValue d.bits .exact t = some x := by
  obtain ⟨low, high⟩ := x.sval_bounds (width_bits_pos d)
  have unit : (0 : Int) < 2 ^ (3 * d.bits) := by positivity
  have den : (0 : Int) < 10 ^ t.places := by positivity
  push_cast at value
  have range : -(2 ^ (d.bits - 1) * 10 ^ t.places : Int) ≤ decimalNumerator t ∧
      decimalNumerator t < 2 ^ (d.bits - 1) * 10 ^ t.places := by
    constructor
    · refine le_of_mul_le_mul_right ?_ unit
      rw [value]
      linarith [mul_le_mul_of_nonneg_right low den.le]
    · refine lt_of_mul_lt_mul_right ?_ unit.le
      rw [value]
      linarith [mul_lt_mul_of_pos_right high den]
  rw [parseValueTruncatesDown d t h, if_pos range, value, Int.mul_ediv_cancel _ den.ne', x.ofPat_sval]

/-- Settles O30: the text of R89 is in the grammar and denotes the value exactly. -/
theorem parseOfFormatIsIdentity : Obligations.ParseOfFormatIsIdentity := by
  intro d x
  obtain ⟨t, accepted, value⟩ := split_of_isTextOf (formatText_isTextOf d x)
  exact ⟨t, accepted, parseValue_of_exact (fraction_lt_of_split accepted) value⟩

end Sys2Proof.Codec

namespace Sys2Proof.Machine

/-! ### The command (R92) -/

/-- A command that writes a text and a NUL and completes leaves everything else (R28, R56). -/
theorem State.storedOnly_writeText (s : State) (a : Nat) (text : List Byte) :
    s.StoredOnly (s.writeBytes a (text ++ [0])).advance a (text.length + 1) where
  rest := congrArg State.advance (s.writeBytes_same a _).eq
  memory b h := s.byteAt_writeBytes_outside a _ b (by rwa [List.length_append])

theorem State.byteAt_writeText (s : State) (a : Nat) (text : List Byte) {k : Nat} (h : k < text.length) :
    (s.writeBytes a (text ++ [0])).advance.byteAt (a + k) = text[k] :=
  (s.byteAt_writeBytes a _ k (by rw [List.length_append]; omega)).trans (List.getElem_append_left h)

theorem State.byteAt_writeText_nul (s : State) (a : Nat) (text : List Byte) :
    (s.writeBytes a (text ++ [0])).advance.byteAt (a + text.length) = 0 :=
  (s.byteAt_writeBytes a _ _ (by simp)).trans (by simp)

/-- Settles O29, by the text of the value and the check of FMT. -/
theorem fmtWritesTheText : Obligations.FmtWritesTheText := by
  intro s ra a
  refine ⟨Codec.formatText_isTextOf s.dev.width (s.readF ra), fun fits => ?_, fun outside => ?_⟩
  · exact ⟨_, exec_fmt_of_inRange (decide_eq_true fits), s.storedOnly_writeText a.toNat _,
      fun k hk => s.byteAt_writeText a.toNat _ hk, s.byteAt_writeText_nul a.toNat _⟩
  · exact ⟨_, exec_fmt_of_fault (decide_eq_false (Nat.not_le.2 outside)), rfl⟩

end Sys2Proof.Machine
end

section
/-! PROOFS. The commands INC and NEG, and NEG as an involution on patterns (spec/41_twos_complement.md R95 to R99). -/
namespace Sys2Proof.FixedPoint

variable {w : Nat}

/-- NEG undoes itself (R97): 0 is the one pattern whose negation 2^N - 0 wraps. -/
theorem neg_involutive : Function.Involutive (neg : FixedPoint w → FixedPoint w) := by
  intro x
  have bound := x.pat_lt
  rw [← pat_inj, pat_neg, pat_neg]
  obtain zero | pos := Nat.eq_zero_or_pos x.pat
  · rw [zero, Nat.sub_zero, Nat.mod_self, Nat.sub_zero, Nat.mod_self]
  · rw [Nat.mod_eq_of_lt (a := 2 ^ (4 * w) - x.pat) (by omega), Nat.sub_sub_self bound.le, Nat.mod_eq_of_lt bound]

/-- The pattern 2^(N-1) of MIN is half of 2^N, so NEG keeps it (R97). -/
theorem neg_min (hw : 0 < w) : (ofPat (2 ^ (4 * w - 1)) : FixedPoint w).neg = ofPat (2 ^ (4 * w - 1)) := by
  have width : 0 < 4 * w := by omega
  have half : 2 ^ (4 * w) = 2 ^ (4 * w - 1) + 2 ^ (4 * w - 1) := (Nat.two_pow_pred_add_two_pow_pred width).symm
  have below : 2 ^ (4 * w - 1) < 2 ^ (4 * w) := Nat.two_pow_pred_lt_two_pow width
  rw [← pat_inj, pat_neg, pat_ofPat, Nat.mod_eq_of_lt below, Nat.sub_eq_of_eq_add half, Nat.mod_eq_of_lt below]

end Sys2Proof.FixedPoint

namespace Sys2Proof.Machine

/-- A command that writes x into rd leaves the pattern of x there (R24). -/
theorem State.patF_writeF_advance (s : State) (rd : Reg) (x : FixedPoint s.w) :
    (s.writeF rd x).advance.patF rd = x.pat :=
  congrArg FixedPoint.pat (s.readF_writeF_same rd x)

/-- Settles O9, by the pattern that INC's loop leaves. -/
theorem incAddsOneUlp : Obligations.IncAddsOneUlp := fun s rd ra =>
  ⟨(s.writeF rd (s.readF ra).inc).advance, rfl,
    (s.patF_writeF_advance rd _).trans (FixedPoint.pat_inc (s.readF ra)), s.wroteOnly_advance rd _⟩

/-- Settles O10, by NEG's value and frame. -/
theorem negNegatesThePattern : Obligations.NegNegatesThePattern := exec_neg_patF

/-- Settles O11: NEG is an involution, and MIN is a fixed point of it. -/
theorem doubleNegation : Obligations.DoubleNegation := fun _ hw =>
  ⟨FixedPoint.neg_involutive, FixedPoint.neg_min hw⟩

end Sys2Proof.Machine
end

section
/-! PROOFS. What ADD does to patterns under TWO_PASS: the carries of its two passes, and the one ripple that it loses
(spec/42_adder.md R100, R102, R103). -/
namespace Sys2Proof.FixedPoint

variable {w : Nat}

/-! ### The carries of one limb (R100, R102) -/

/-- A limb sum is below an addend exactly when the exact sum does not fit a limb (R100). -/
theorem add_lt_left_iff (a b : BitVec w) : a + b < a ↔ 2 ^ w ≤ a.toNat + b.toNat := by
  have ha := a.isLt
  have hb := b.isLt
  rw [BitVec.lt_def, BitVec.toNat_add]
  by_cases wraps : 2 ^ w ≤ a.toNat + b.toNat
  · rw [Nat.mod_eq_sub_mod wraps, Nat.mod_eq_of_lt (by omega)]
    omega
  · rw [Nat.mod_eq_of_lt (by omega)]
    omega

/-- A limb sum and its carry out are the exact sum (R100). -/
theorem toNat_add_carry (a b : BitVec w) :
    (a + b).toNat + (decide (a + b < a)).toNat * 2 ^ w = a.toNat + b.toNat := by
  have ha := a.isLt
  have hb := b.isLt
  rw [decide_eq_decide.2 (add_lt_left_iff a b), BitVec.toNat_add]
  by_cases wraps : 2 ^ w ≤ a.toNat + b.toNat
  · rw [decide_eq_true wraps, Bool.toNat_true, Nat.mod_eq_sub_mod wraps, Nat.mod_eq_of_lt (by omega)]
    omega
  · rw [decide_eq_false wraps, Bool.toNat_false, Nat.mod_eq_of_lt (by omega), Nat.zero_mul, Nat.add_zero]

/-- A limb sum is ONES exactly when it is ONES as a number. -/
theorem add_eq_allOnes_iff (a b : BitVec w) :
    a + b = BitVec.allOnes w ↔ (a.toNat + b.toNat) % 2 ^ w = 2 ^ w - 1 := by
  rw [← BitVec.toNat_inj, BitVec.toNat_add, BitVec.toNat_allOnes]

/-- A carry put into a limb goes on exactly when the limb held ONES (R102). -/
theorem toNat_add_carryLimb (a : BitVec w) (c : Bool) :
    (a + carryLimb w c).toNat + (c && decide (a = BitVec.allOnes w)).toNat * 2 ^ w = a.toNat + c.toNat := by
  cases c with
  | false => simp [carryLimb]
  | true =>
    rw [carryLimb, if_pos rfl, Bool.true_and, Bool.toNat_true]
    by_cases ones : a = BitVec.allOnes w
    · have wrapped : a + 1 = 0 := by rw [ones, ← BitVec.neg_one_eq_allOnes]; exact neg_add_cancel 1
      have zero : (0 : BitVec w).toNat = 0 := BitVec.toNat_zero
      rw [wrapped, zero, decide_eq_true ones, toNat_of_eq_allOnes ones, Bool.toNat_true]
      omega
    · rw [toNat_succ_of_ne_allOnes ones, decide_eq_false ones, Bool.toNat_false]
      omega

/-! ### The two passes (R102, R103) -/

/-- The four limbs of ADD_TWOPASS: the limb sums and what the two passes add to them (R102). -/
theorem addTwoPass_eq (u v : FixedPoint w) :
    addTwoPass u v =
      ⟨u.l0 + v.l0 + carryLimb w (carryOut u v 1) + carryLimb w (secondCarry u v 1),
        u.l1 + v.l1 + carryLimb w (carryOut u v 2) + carryLimb w (secondCarry u v 2),
        u.l2 + v.l2 + carryLimb w (carryOut u v 3), u.l3 + v.l3⟩ := rfl

/-- The case of R103: limb 3 carries and the limb sums 2 and 1 are both ONES. -/
def lostRipple (u v : FixedPoint w) : Bool :=
  decide (2 ^ w ≤ u.l3.toNat + v.l3.toNat ∧ (u.l2.toNat + v.l2.toNat) % 2 ^ w = 2 ^ w - 1 ∧
    (u.l1.toNat + v.l1.toNat) % 2 ^ w = 2 ^ w - 1)

/-- The case of R103 is symmetric in the addends (R104). -/
theorem lostRipple_comm (u v : FixedPoint w) : lostRipple u v = lostRipple v u := by
  simp only [lostRipple, Nat.add_comm]

/-- A limb sum of ONES has no carry out (R103). -/
theorem not_carry_of_add_eq_allOnes {a b : BitVec w} (ones : a + b = BitVec.allOnes w) : ¬ a + b < a := by
  have total := toNat_of_eq_allOnes ones
  have bound := a.isLt
  rw [BitVec.lt_def]
  omega

/-- The second pass makes limb 1 wrap exactly in the case of R103: its carry into limb 1 comes from a limb sum 2 of
ONES, which has no carry out, so that the first pass has left limb 1 as it was. -/
theorem secondPass_carry (u v : FixedPoint w) :
    (secondCarry u v 2 && decide (u.l1 + v.l1 + carryLimb w (carryOut u v 2) = BitVec.allOnes w)) = lostRipple u v := by
  have carry : secondCarry u v 2 = (decide (2 ^ w ≤ u.l3.toNat + v.l3.toNat) &&
      decide (u.l2 + v.l2 = BitVec.allOnes w)) :=
    congrArg (· && _) (decide_eq_decide.2 (add_lt_left_iff u.l3 v.l3))
  by_cases ones : u.l2 + v.l2 = BitVec.allOnes w
  · have noCarry : carryOut u v 2 = false := decide_eq_false (not_carry_of_add_eq_allOnes ones)
    have kept : u.l1 + v.l1 + carryLimb w (carryOut u v 2) = u.l1 + v.l1 := by rw [noCarry]; exact BitVec.add_zero _
    simp only [carry, kept, lostRipple, add_eq_allOnes_iff, Bool.decide_and, Bool.and_assoc]
  · simp [carry, lostRipple, ones, ← add_eq_allOnes_iff]

/-- What ADD_TWOPASS leaves, and the 2^F that it loses in the case of R103, are the exact sum modulo 2^N. Every carry of
the two passes but that one is either put into the next limb or leaves limb 0. -/
theorem pat_addTwoPass_add_lost (u v : FixedPoint w) :
    (addTwoPass u v).pat + (lostRipple u v).toNat * 2 ^ (3 * w) ≡ u.pat + v.pat [MOD 2 ^ (4 * w)] := by
  have sum0 : _ + (carryOut u v 0).toNat * 2 ^ w = _ := toNat_add_carry u.l0 v.l0
  have sum1 : _ + (carryOut u v 1).toNat * 2 ^ w = _ := toNat_add_carry u.l1 v.l1
  have sum2 : _ + (carryOut u v 2).toNat * 2 ^ w = _ := toNat_add_carry u.l2 v.l2
  have sum3 : _ + (carryOut u v 3).toNat * 2 ^ w = _ := toNat_add_carry u.l3 v.l3
  have first2 : _ + (secondCarry u v 2).toNat * 2 ^ w = _ := toNat_add_carryLimb (u.l2 + v.l2) (carryOut u v 3)
  have first1 : _ + (secondCarry u v 1).toNat * 2 ^ w = _ := toNat_add_carryLimb (u.l1 + v.l1) (carryOut u v 2)
  have second1 := toNat_add_carryLimb (u.l1 + v.l1 + carryLimb w (carryOut u v 2)) (secondCarry u v 2)
  rw [secondPass_carry] at second1
  obtain ⟨first, first0⟩ : ∃ k, (_ + carryLimb w (carryOut u v 1)).toNat + k * 2 ^ w = _ :=
    ⟨_, toNat_add_carryLimb (u.l0 + v.l0) (carryOut u v 1)⟩
  obtain ⟨second, second0⟩ : ∃ k, (_ + carryLimb w (secondCarry u v 1)).toNat + k * 2 ^ w = _ :=
    ⟨_, toNat_add_carryLimb (u.l0 + v.l0 + carryLimb w (carryOut u v 1)) (secondCarry u v 1)⟩
  have total : u.pat + v.pat = (addTwoPass u v).pat + (lostRipple u v).toNat * 2 ^ (3 * w)
      + ((carryOut u v 0).toNat + first + second) * 2 ^ (4 * w) := by
    rw [addTwoPass_eq, Nat.mul_comm 3, pow_mul]
    simp only [pat_base, patterns_base]
    generalize 2 ^ w = B at *
    zify at *
    linear_combination -sum3 - B * (sum2 + first2) - B ^ 2 * (sum1 + first1 + second1)
      - B ^ 3 * (sum0 + first0 + second0)
  rw [total]
  exact (Nat.add_mul_mod_self_right _ _ _).symm

/-- ADD_TWOPASS is ADD_FULL, less 2^F modulo 2^N in the case of R103. -/
theorem pat_addTwoPass (u v : FixedPoint w) :
    (addTwoPass u v).pat =
      if lostRipple u v then ((u.pat + v.pat) % 2 ^ (4 * w) + 2 ^ (4 * w) - 2 ^ (3 * w)) % 2 ^ (4 * w)
      else (u.pat + v.pat) % 2 ^ (4 * w) := by
  have value := pat_addTwoPass_add_lost u v
  have small := Nat.mod_eq_of_lt (addTwoPass u v).pat_lt
  split
  case isTrue lost =>
    have fits : 2 ^ (3 * w) ≤ (u.pat + v.pat) % 2 ^ (4 * w) + 2 ^ (4 * w) :=
      le_add_left (Nat.pow_le_pow_right two_pos (by omega))
    rw [lost, Bool.toNat_true, Nat.one_mul] at value
    refine small.symm.trans (Nat.ModEq.add_right_cancel' (2 ^ (3 * w)) (value.trans ?_))
    rw [Nat.sub_add_cancel fits, Nat.ModEq, Nat.add_mod_right, Nat.mod_mod]
  case isFalse kept =>
    rw [Bool.eq_false_iff.2 kept, Bool.toNat_false, Nat.zero_mul, Nat.add_zero] at value
    exact small.symm.trans value

/-! ### The algebra of ADD, and DBL (R104, R105) -/

theorem pat_add_full (x y : FixedPoint w) : (add .full x y).pat = (x.pat + y.pat) % 2 ^ (4 * w) := pat_addFull x y

theorem add_full_comm (x y : FixedPoint w) : add .full x y = add .full y x := by
  rw [← pat_inj, pat_add_full, pat_add_full, Nat.add_comm]

theorem add_full_assoc (x y z : FixedPoint w) :
    add .full (add .full x y) z = add .full x (add .full y z) := by
  rw [← pat_inj, pat_add_full, pat_add_full, pat_add_full, pat_add_full, Nat.mod_add_mod, Nat.add_mod_mod,
    Nat.add_assoc]

theorem add_full_zero (x : FixedPoint w) : add .full x zero = x := by
  rw [← pat_inj, pat_add_full, pat_zero, Nat.add_zero, Nat.mod_eq_of_lt x.pat_lt]

theorem add_full_neg (x : FixedPoint w) : add .full x x.neg = zero := by
  rw [← pat_inj, pat_add_full, pat_neg, Nat.add_mod_mod, Nat.add_sub_cancel' x.pat_lt.le, Nat.mod_self, pat_zero]

theorem add_twoPass_comm (x y : FixedPoint w) : add .twoPass x y = add .twoPass y x := by
  change addTwoPass x y = addTwoPass y x
  rw [← pat_inj, pat_addTwoPass, pat_addTwoPass, lostRipple_comm, Nat.add_comm x.pat]

/-- ulp + NEG(ulp) is -1.0 under TWO_PASS, so that a third addend NEG(ulp) tells the two groupings apart
(R103, R104). -/
theorem add_twoPass_not_assoc :
    add .twoPass (add .twoPass (ulps 1 : FixedPoint 32) (ulps 1).neg) (ulps 1).neg
      ≠ add .twoPass (ulps 1) (add .twoPass (ulps 1).neg (ulps 1).neg) := by decide

/-- The sum of a limb with itself is even and so not ONES: nothing is lost (R105). -/
theorem lostRipple_self (hw : 0 < w) (x : FixedPoint w) : lostRipple x x = false := by
  refine decide_eq_false fun lost => ?_
  obtain ⟨-, ones, -⟩ := lost
  obtain ⟨k, rfl⟩ := Nat.exists_eq_add_one.2 hw
  rw [← Nat.two_mul, Nat.pow_succ', Nat.mul_mod_mul_left] at ones
  have := Nat.two_pow_pos k
  omega

/-- DBL is ADD of a value to itself, under both carry modes (R105). -/
theorem dbl_eq_add_self (hw : 0 < w) (m : CarryMode) (x : FixedPoint w) : x.dbl = add m x x := by
  rw [← pat_inj, pat_dbl x hw, Nat.two_mul]
  cases m with
  | full => exact (pat_addFull x x).symm
  | twoPass => exact ((pat_addTwoPass x x).trans (if_neg (Bool.eq_false_iff.1 (lostRipple_self hw x)))).symm

/-- At width 0 the only pattern is 0. -/
theorem pat_width_zero (x : FixedPoint 0) : x.pat = 0 := Nat.lt_one_iff.1 x.pat_lt

end Sys2Proof.FixedPoint
end

section
/-! PROOFS. The commands ADD and DBL, and the algebra of the adder (spec/42_adder.md R101, R103 to R107). -/
namespace Sys2Proof.Machine

/-- Settles O12, by ADD's value and frame under FULL. -/
theorem addFullIsExact : Obligations.AddFullIsExact := fun _ rd ra rb full => exec_add_patF full rd ra rb

/-- Settles O13, by the pattern that the two carry passes leave. -/
theorem addTwoPassLosesOneRipple : Obligations.AddTwoPassLosesOneRipple := by
  intro s rd ra rb twoPass
  refine ⟨_, rfl, s.wroteOnly_advance rd _, ?_⟩
  rw [State.patF_writeF_advance, twoPass]
  refine (FixedPoint.pat_addTwoPass (s.readF ra) (s.readF rb)).trans ?_
  simp only [FixedPoint.lostRipple, decide_eq_true_eq, State.patF, State.patterns, State.unit]

/-- Settles O14: the laws of addition modulo 2^N under FULL, and what is left of them under TWO_PASS. -/
theorem adderAlgebra : Obligations.AdderAlgebra :=
  ⟨fun _ x y z => ⟨x.pat_add_full y, x.add_full_comm y, x.add_full_assoc y z, x.add_full_zero, x.add_full_neg,
    x.add_twoPass_comm y⟩, _, _, _, FixedPoint.add_twoPass_not_assoc⟩

/-- Settles O15, by the pattern of the shifted value. -/
theorem dblDoublesThePattern : Obligations.DblDoublesThePattern := fun s rd _ =>
  ⟨_, rfl, (s.patF_writeF_advance rd _).trans (FixedPoint.pat_dbl _ s.w_pos), s.wroteOnly_advance rd _⟩

/-- Settles O16, by the pattern of DBL; at width 0 there is only one value. -/
theorem dblIsAddOfItself : Obligations.DblIsAddOfItself := by
  intro w m x
  obtain rfl | hw := Nat.eq_zero_or_pos w
  · exact ⟨x.dbl.pat_width_zero.trans (Nat.mod_one _).symm,
      FixedPoint.pat_inj.1 (x.dbl.pat_width_zero.trans (FixedPoint.pat_width_zero _).symm)⟩
  · exact ⟨x.pat_dbl hw, x.dbl_eq_add_self hw m⟩

end Sys2Proof.Machine
end

section
/-! PROOFS. The wide multiply by halves, the closed form of MUL under FULL and what it gives for 1.0 and 0, and SQR as
MUL of a value by itself (spec/43_multiplier.md R108 to R115). -/
namespace Sys2Proof.FixedPoint

open Sys2Proof.Machine

variable {w : Nat}

/-! ### The wide multiply (R108) -/

theorem two_pow_eq_halves (even : w % 2 = 0) : 2 ^ w = 2 ^ (w / 2) * 2 ^ (w / 2) := by
  rw [← pow_add]
  congr 1
  omega

/-- R108's combination of the halves of a and b, to any base B, adds up to their product. -/
theorem halves_exact (B a b : Nat) :
    let mid := a % B * (b % B) / B + a % B * (b / B) % B + a / B * (b % B) % B
    (a / B * (b / B) + a % B * (b / B) / B + a / B * (b % B) / B + mid / B) * (B * B)
      + (mid % B * B + a % B * (b % B) % B) = a * b := by
  intro mid
  have ha := Nat.div_add_mod a B
  have hb := Nat.div_add_mod b B
  have h00 := Nat.div_add_mod (a % B * (b % B)) B
  have h01 := Nat.div_add_mod (a % B * (b / B)) B
  have h10 := Nat.div_add_mod (a / B * (b % B)) B
  have hmid : B * (mid / B) + mid % B = _ + _ + _ := Nat.div_add_mod mid B
  generalize a / B = a1, a % B = a0, b / B = b1, b % B = b0 at *
  zify at *
  linear_combination h00 + B * (h01 + h10 + hmid) + b * ha + (B * a1 + a0) * hb

/-- The half-word combination is exact at an even width (R108). -/
theorem wmulHalves_exact (even : w % 2 = 0) (a b : Nat) :
    (wmulHalves w a b).1 * 2 ^ w + (wmulHalves w a b).2 = a * b := by
  rw [two_pow_eq_halves even]
  exact halves_exact (2 ^ (w / 2)) a b

/-- lo of the half-word combination is two half-word digits, and so below 2^W. -/
theorem wmulHalves_snd_lt (even : w % 2 = 0) (a b : Nat) : (wmulHalves w a b).2 < 2 ^ w := by
  have pos : 0 < 2 ^ (w / 2) := Nat.two_pow_pos _
  rw [two_pow_eq_halves even]
  exact (Nat.add_lt_add_left (Nat.mod_lt _ pos) _).trans_le
    ((Nat.succ_mul _ _).symm.trans_le (Nat.mul_le_mul_right _ (Nat.mod_lt _ pos)))

/-- The half-word combination is the quotient and the remainder of the product by 2^W. -/
theorem wmulHalves_eq_div_mod (even : w % 2 = 0) (a b : Nat) :
    wmulHalves w a b = (a * b / 2 ^ w, a * b % 2 ^ w) := by
  have total : (wmulHalves w a b).2 + 2 ^ w * (wmulHalves w a b).1 = a * b := by
    rw [Nat.add_comm, Nat.mul_comm]
    exact wmulHalves_exact even a b
  obtain ⟨hi, lo⟩ := (Nat.div_mod_unique (Nat.two_pow_pos w)).2 ⟨total, wmulHalves_snd_lt even a b⟩
  exact Prod.ext hi.symm lo.symm

theorem wmul_eq_div_mod (a b : BitVec w) :
    wmul a b = (BitVec.ofNat w (a.toNat * b.toNat / 2 ^ w), BitVec.ofNat w (a.toNat * b.toNat % 2 ^ w)) :=
  Prod.ext rfl (BitVec.eq_of_toNat_eq (by simp [wmul]))

/-- T(i, j) with its two limbs as the remainder and the quotient of the product (R108, R110). -/
theorem partialProduct_eq_div_mod (u v : FixedPoint w) (i j : Nat) :
    partialProduct u v i j = ofLimbs fun k =>
      if k = i + j then BitVec.ofNat w ((u.limb i).toNat * (v.limb j).toNat % 2 ^ w)
      else if k + 1 = i + j then BitVec.ofNat w ((u.limb i).toNat * (v.limb j).toNat / 2 ^ w)
      else 0 := by
  simp only [partialProduct, wmul_eq_div_mod]

/-! ### MUL in either carry mode (R109, R111, R114) -/

theorem mulPairs_eq :
    mulPairs = [(0, 0), (0, 1), (1, 0), (0, 2), (1, 1), (2, 0), (0, 3), (1, 2), (2, 1), (3, 0)] := rfl

theorem sqrPairs_eq : sqrPairs = [(0, 1), (0, 2), (0, 3), (1, 2)] := rfl

theorem sqrDiagonal_eq : sqrDiagonal = [(0, 0), (1, 1)] := rfl

/-- What MUL makes of the magnitudes before it restores the sign: the accumulator with MUL_ROUND added (R111). -/
def roundedProduct (m : CarryMode) (u v : FixedPoint w) : FixedPoint w :=
  add m (accumulate m u.magnitude v.magnitude mulPairs zero) (ulps Config.mulRound)

/-- MUL negates the rounded product exactly when one operand is negative and the other is not (R111). -/
theorem mul_eq (m : CarryMode) (u v : FixedPoint w) :
    mul m u v = if u.negative = v.negative then roundedProduct m u v else (roundedProduct m u v).neg := by
  simp only [mul, roundedProduct]
  cases u.negative <;> cases v.negative <;> rfl

/-! ### The kept products (R111) -/

/-- The ten kept products by position, with the powers of the base 2^W written out. -/
theorem keptProducts_base (u v : FixedPoint w) :
    keptProducts u v =
      let a := u.magnitude
      let b := v.magnitude
      a.l0.toNat * b.l0.toNat * (2 ^ w) ^ 3
        + (a.l0.toNat * b.l1.toNat + a.l1.toNat * b.l0.toNat) * (2 ^ w) ^ 2
        + (a.l0.toNat * b.l2.toNat + a.l1.toNat * b.l1.toNat + a.l2.toNat * b.l0.toNat) * 2 ^ w
        + (a.l0.toNat * b.l3.toNat + a.l1.toNat * b.l2.toNat + a.l2.toNat * b.l1.toNat + a.l3.toNat * b.l0.toNat) := by
  have range : List.range 4 = [0, 1, 2, 3] := rfl
  simp only [keptProducts, range, limb, pow_mul, List.map_cons, List.map_nil, List.sum_cons, List.sum_nil,
    Nat.reduceAdd, Nat.reduceLeDiff, Nat.reduceSub, if_true, if_false]
  ring

theorem keptProducts_comm (u v : FixedPoint w) : keptProducts u v = keptProducts v u := by
  rw [keptProducts_base, keptProducts_base]
  ring

/-- The accumulator of MUL under FULL (R111). -/
theorem pat_accumulate_mulPairs (u v : FixedPoint w) :
    (accumulate .full u.magnitude v.magnitude mulPairs zero).pat ≡ keptProducts u v [MOD 2 ^ (4 * w)] := by
  refine (pat_accumulate u.magnitude v.magnitude mulPairs zero (by decide)).trans ?_
  rw [keptProducts_base, pat_zero]
  simp only [mulPairs_eq, List.map_cons, List.map_nil, List.sum_cons, List.sum_nil, limb]
  exact congrArg (· % _) (by ring)

/-- The accumulator of SQR under FULL: the doubled products off the diagonal stand for those on its two sides
(R114, R115). -/
theorem pat_accumulate_sqrPairs (u : FixedPoint w) :
    (accumulate .full u.magnitude u.magnitude sqrDiagonal
      (accumulate .full u.magnitude u.magnitude sqrPairs zero).dbl).pat ≡ keptProducts u u [MOD 2 ^ (4 * w)] := by
  have off := pat_accumulate u.magnitude u.magnitude sqrPairs zero (by decide)
  have diagonal := pat_accumulate u.magnitude u.magnitude sqrDiagonal
    (accumulate .full u.magnitude u.magnitude sqrPairs zero).dbl (by decide)
  rw [(dblIsAddOfItself w .full _).1] at diagonal
  refine (diagonal.trans (((Nat.mod_modEq _ _).trans (off.mul_left 2)).add_right _)).trans ?_
  rw [keptProducts_base, pat_zero]
  simp only [sqrPairs_eq, sqrDiagonal_eq, List.map_cons, List.map_nil, List.sum_cons, List.sum_nil, limb]
  exact congrArg (· % _) (by ring)

/-- Under FULL the accumulators of SQR and MUL hold the same sum (R115). -/
theorem sqr_full_eq_mul (x : FixedPoint w) : sqr .full x = mul .full x x := by
  have acc := ((pat_accumulate_sqrPairs x).trans (pat_accumulate_mulPairs x x).symm).eq_of_lt_of_lt
    (pat_lt _) (pat_lt _)
  rw [mul_eq, if_pos rfl, roundedProduct, ← pat_inj.1 acc]
  rfl

/-! ### The closed form of MUL under FULL (R111) -/

theorem three_lt_two_pow {n : Nat} (hn : 2 ≤ n) : 3 < 2 ^ n :=
  lt_of_lt_of_le (by decide) (Nat.pow_le_pow_right two_pos hn)

/-- Under FULL the rounded product is the sum of the kept products plus 3 ulp; from width 2 on a limb holds the 3. -/
theorem pat_roundedProduct_full (hw : 2 ≤ w) (u v : FixedPoint w) :
    (roundedProduct .full u v).pat = (keptProducts u v + 3) % 2 ^ (4 * w) := by
  rw [roundedProduct, pat_add_full, pat_ulps, Config.mulRound, Nat.mod_eq_of_lt (three_lt_two_pow hw)]
  exact (pat_accumulate_mulPairs u v).add_right 3

theorem pat_mul_full (hw : 2 ≤ w) (u v : FixedPoint w) :
    (mul .full u v).pat = if u.negative = v.negative then (keptProducts u v + 3) % 2 ^ (4 * w)
      else (2 ^ (4 * w) - (keptProducts u v + 3) % 2 ^ (4 * w)) % 2 ^ (4 * w) := by
  rw [mul_eq, ← pat_roundedProduct_full hw, ← pat_neg]
  exact apply_ite pat _ _ _

/-! ### MUL by 1.0 and by 0 (R113) -/

theorem mul_full_comm (hw : 2 ≤ w) (x y : FixedPoint w) : mul .full x y = mul .full y x := by
  rw [← pat_inj, pat_mul_full hw, pat_mul_full hw, keptProducts_comm]
  exact if_congr eq_comm rfl rfl

/-- The negation of a residue is the residue of any number that cancels it. -/
theorem neg_mod_of_add_modEq {n a b : Nat} (hn : 0 < n) (h : a + b ≡ 0 [MOD n]) : (n - a % n) % n = b % n := by
  have cancels : a % n + (n - a % n) ≡ 0 [MOD n] := by
    rw [Nat.add_sub_cancel' (Nat.mod_lt a hn).le]
    exact Nat.modEq_zero_iff_dvd.2 dvd_rfl
  exact Nat.ModEq.add_left_cancel' (a % n) (cancels.trans (((Nat.mod_modEq a n).add_right b).trans h).symm)

theorem negative_zero : (zero : FixedPoint w).negative = false := BitVec.msb_zero

theorem negative_one (hw : 2 ≤ w) : (⟨1, 0, 0, 0⟩ : FixedPoint w).negative = false := by
  obtain ⟨k, rfl⟩ := Nat.exists_eq_add_of_le hw
  rw [negative, BitVec.msb_eq_decide]
  simp

theorem magnitude_of_not_negative {x : FixedPoint w} (h : x.negative = false) : x.magnitude = x := by
  rw [magnitude, h, if_neg Bool.false_ne_true]

/-- The magnitude of a negative value, whose pattern is not 0, is 2^N less its pattern (R109). -/
theorem pat_magnitude_of_negative {x : FixedPoint w} (h : x.negative = true) :
    x.magnitude.pat = 2 ^ (4 * w) - x.pat := by
  have pos : x.pat ≠ 0 := fun z => by
    rw [pat_inj.1 (z.trans pat_zero.symm), negative_zero] at h
    cases h
  have bound := x.pat_lt
  rw [magnitude, if_pos h, pat_neg, Nat.mod_eq_of_lt (by omega)]

theorem keptProducts_zero (x : FixedPoint w) : keptProducts x zero = 0 := by
  rw [keptProducts_base, magnitude_of_not_negative negative_zero]
  simp [zero]

/-- The digits of 1.0 pick the products that are the magnitude's own digits (R113). -/
theorem keptProducts_one (hw : 2 ≤ w) (x : FixedPoint w) : keptProducts x ⟨1, 0, 0, 0⟩ = x.magnitude.pat := by
  have one : 1 % 2 ^ w = 1 := Nat.mod_eq_of_lt (Nat.one_lt_two_pow (by omega))
  rw [keptProducts_base, magnitude_of_not_negative (negative_one hw), pat_base]
  simp [one]

theorem pat_mul_full_one (hw : 2 ≤ w) (x : FixedPoint w) :
    (mul .full x ⟨1, 0, 0, 0⟩).pat =
      (if x.negative then x.pat + 2 ^ (4 * w) - 3 else x.pat + 3) % 2 ^ (4 * w) := by
  rw [pat_mul_full hw, keptProducts_one hw, negative_one hw]
  cases sign : x.negative with
  | false => rw [if_pos rfl, magnitude_of_not_negative sign, if_neg Bool.false_ne_true]
  | true =>
    have bound := x.pat_lt
    have round : 3 < 2 ^ (4 * w) := three_lt_two_pow (by omega)
    rw [if_neg Bool.false_ne_true.symm, if_pos rfl, pat_magnitude_of_negative sign]
    refine neg_mod_of_add_modEq (Nat.two_pow_pos _) (Nat.modEq_zero_iff_dvd.2 ⟨2, ?_⟩)
    omega

theorem pat_mul_full_zero (hw : 2 ≤ w) (x : FixedPoint w) :
    (mul .full x zero).pat = if x.negative then 2 ^ (4 * w) - 3 else 3 := by
  have round : 3 < 2 ^ (4 * w) := three_lt_two_pow (by omega)
  rw [pat_mul_full hw, keptProducts_zero, negative_zero, Nat.zero_add, Nat.mod_eq_of_lt round]
  cases x.negative with
  | false => rfl
  | true => exact Nat.mod_eq_of_lt (Nat.sub_lt (Nat.two_pow_pos _) three_pos)

end Sys2Proof.FixedPoint
end

section
/-! PROOFS. The wide multiply, and the commands MUL and SQR (spec/43_multiplier.md R108 to R117). -/
namespace Sys2Proof.Machine

/-- Settles O17: the half-word combination is the quotient and the remainder of the product by 2^W. -/
theorem wmulByHalvesIsExact : Obligations.WmulByHalvesIsExact := by
  intro w a b even
  have total := FixedPoint.wmulHalves_exact even a.toNat b.toNat
  simp only [FixedPoint.wmulHalves_eq_div_mod even] at total ⊢
  exact ⟨total, Nat.div_lt_of_lt_mul (Nat.mul_lt_mul'' a.isLt b.isLt), Nat.mod_lt _ (Nat.two_pow_pos w),
    FixedPoint.wmul_eq_div_mod a b⟩

/-- Settles O18, by the closed form of MUL and its frame. -/
theorem mulClosedForm : Obligations.MulClosedForm := by
  intro s rd ra rb full
  refine ⟨_, rfl, s.wroteOnly_advance rd _, ?_⟩
  rw [State.patF_writeF_advance, full]
  exact FixedPoint.pat_mul_full (le_trans (by decide) s.w_ge) (s.readF ra) (s.readF rb)

/-- Settles O19: the statement's sums are those of the model with WMUL written as a quotient and a remainder. -/
theorem mulAndSqrComplete : Obligations.MulAndSqrComplete := by
  refine ⟨?values, fun s rd ra rb => ⟨?mul, ?sqr⟩⟩
  case values =>
    intro w m x y mag term sum product
    have term_eq : term = FixedPoint.partialProduct := by
      funext u v i j
      exact (FixedPoint.partialProduct_eq_div_mod u v i j).symm
    have sum_eq (u v start : FixedPoint w) (pairs : List (Nat × Nat)) :
        FixedPoint.accumulate m u v pairs start = sum u v start pairs := by
      simp only [sum, term_eq, FixedPoint.accumulate]
    constructor
    · rw [FixedPoint.mul_eq, FixedPoint.roundedProduct, sum_eq, FixedPoint.mulPairs_eq]
      rfl
    · rw [FixedPoint.sqr, sum_eq, sum_eq, FixedPoint.sqrPairs_eq, FixedPoint.sqrDiagonal_eq]
      rfl
  case mul => exact ⟨_, rfl, s.wroteOnly_advance rd _, s.patF_writeF_advance rd _⟩
  case sqr => exact ⟨_, rfl, s.wroteOnly_advance rd _, s.patF_writeF_advance rd _⟩

/-- Settles O20: under FULL the two accumulators agree, and under TWO_PASS the rule's own x tells them apart. -/
theorem sqrIsMulOfItself : Obligations.SqrIsMulOfItself :=
  ⟨fun _ => FixedPoint.sqr_full_eq_mul, by decide, by decide⟩

/-- Settles O21, by the closed form of MUL at the products that 1.0 and 0 keep. -/
theorem mulByOneAndZero : Obligations.MulByOneAndZero := by
  intro d x y
  have hw : 2 ≤ d.bits := by cases d <;> decide
  exact ⟨x.mul_full_comm hw y, x.pat_mul_full_one hw, x.pat_mul_full_zero hw⟩

end Sys2Proof.Machine
end

section
/-! PROOFS. The checks of ESCAPE in their order, and the output words of a frame (spec/20_memory.md R50, R56, R64;
spec/44_escape.md R118 to R123, R125). -/
namespace Sys2Proof.Machine

/-! ### The ten checks (R121) -/

/-- The state that ESCAPE leaves on each answer of its checks. -/
def EscapeVerdict.outcome (s : State) (ra rb rc : Reg) (d : Word) : EscapeVerdict → State
  | .fault c addr => s.faultIn (.escape ra rb rc d) c addr
  | .empty => s.advance
  | .render => (State.renderInOrder (s.snapshot ra rb rc d) s (List.range (s.snapshot ra rb rc d).npix)).advance

section
variable (s : State) (ra rb rc : Reg) (d : Word)

@[simp] theorem EscapeVerdict.outcome_fault (c : Cause) (addr : Word) :
    (EscapeVerdict.fault c addr).outcome s ra rb rc d = s.faultIn (.escape ra rb rc d) c addr := rfl
@[simp] theorem EscapeVerdict.outcome_empty : EscapeVerdict.empty.outcome s ra rb rc d = s.advance := rfl
@[simp] theorem EscapeVerdict.outcome_render : EscapeVerdict.render.outcome s ra rb rc d =
    (State.renderInOrder (s.snapshot ra rb rc d) s (List.range (s.snapshot ra rb rc d).npix)).advance := rfl

theorem exec_escape_eq_outcome :
    exec (.escape ra rb rc d) s = .next ((s.escapeVerdict ra rb rc d).outcome s ra rb rc d) := by
  cases h : s.escapeVerdict ra rb rc d with
  | fault c addr => exact exec_escape_of_fault h
  | empty => exact exec_escape_of_empty h
  | render => exact exec_escape_of_render h

end

theorem State.inRange_eq_false_iff (s : State) (a n : Nat) : s.inRange a n = false ↔ s.memSize < a + n := by
  rw [State.inRange, decide_eq_false_iff_not, Nat.not_le]

/-- The bits of FLAGS above bit 0 (check 3). -/
theorem shiftRight_one_eq_zero_iff (x : Word) : x >>> 1 = 0 ↔ x.toNat / 2 = 0 := by
  rw [← BitVec.toNat_inj, BitVec.toNat_ushiftRight, Nat.shiftRight_eq_div_pow, Nat.pow_one]
  rfl

/-- RAW is 0 exactly where FLAGS is even (check 4). -/
theorem Snapshot.raw_eq_false_iff {w : Nat} (sn : Snapshot w) : sn.raw = false ↔ sn.flags.toNat % 2 = 0 := by
  rw [Snapshot.raw, BitVec.getLsbD, Nat.testBit_zero, decide_eq_false_iff_not]
  exact Nat.mod_two_ne_one

theorem State.valueBytes_pos (s : State) : 0 < s.valueBytes := by
  rw [State.valueBytes, State.w]
  cases s.dev.width <;> decide

/-- Settles O40: check by check the model's condition is the statement's; check 10 asks for two ranges that meet, and
neither of them is empty after check 5. -/
theorem escapeChecksInOrder : Obligations.EscapeChecksInOrder := by
  intro s ra rb rc d i table out npix flags tableEnd outEnd
  have tableWord : (s.snapshot ra rb rc d).table = BitVec.ofNat 32 table := rfl
  have outWord : (s.snapshot ra rb rc d).out = BitVec.ofNat 32 out := rfl
  have tableAddr : (BitVec.ofNat 32 table).toNat = table := s.toNat_wordAt _
  have outAddr : (BitVec.ofNat 32 out).toNat = out := s.toNat_wordAt _
  have flagBits : (s.snapshot ra rb rc d).flags.toNat = flags := s.toNat_wordAt _
  have palette : (s.snapshot ra rb rc d).palsize = s.palsize := rfl
  have grid : (s.snapshot ra rb rc d).npix = npix := congrArg₂ (· * ·) (s.toNat_wordAt _) (s.toNat_wordAt _)
  have tableLast : table + s.tableBytes npix = tableEnd := rfl
  have outLast : out + 4 * npix = outEnd := rfl
  have meet (pixels : npix ≠ 0) : out < tableEnd ∧ table < outEnd ↔ max out table < min outEnd tableEnd := by
    have bytes : 0 < s.tableBytes npix := Nat.mul_pos (Nat.mul_pos two_pos s.valueBytes_pos) (Nat.pos_of_ne_zero pixels)
    omega
  rw [exec_escape_eq_outcome, State.escapeVerdict, State.snapshotVerdict]
  simp only [apply_ite (EscapeVerdict.outcome s ra rb rc d), EscapeVerdict.outcome_fault, EscapeVerdict.outcome_empty,
    EscapeVerdict.outcome_render, State.inRange_eq_false_iff, shiftRight_one_eq_zero_iff, Snapshot.raw_eq_false_iff,
    palette, grid, tableWord, outWord, tableAddr, outAddr, tableLast, outLast, flagBits, ne_eq]
  by_cases empty : npix = 0
  · simp only [empty, if_true, i]
  · simp only [empty, if_false, meet empty, i]

/-! ### The output words of a frame (R118, R122) -/

theorem State.wordAt_congr (s t : State) (a : Nat) (h : ∀ b, a ≤ b → b < a + 4 → s.byteAt b = t.byteAt b) :
    s.wordAt a = t.wordAt a := congrArg (BitVec.ofNat 32) (s.memRead_congr t a 4 h)

/-- A word written is the word read (R50). -/
theorem State.wordAt_memWrite (s : State) (a : Nat) (v : Word) : (s.memWrite a 4 v.toNat).wordAt a = v := by
  rw [State.wordAt, State.memRead_memWrite]
  exact (congrArg (BitVec.ofNat 32) (Nat.mod_eq_of_lt v.isLt)).trans (by simp)

theorem State.wordAt_memWrite_outside (s : State) {a n b : Nat} (v : Nat) (h : b + 4 ≤ a ∨ a + n ≤ b) :
    (s.memWrite a n v).wordAt b = s.wordAt b := congrArg (BitVec.ofNat 32) (s.memRead_memWrite_outside a n v b 4 h)

/-- The pixels write inside the output buffer only (R118). -/
theorem State.byteAt_renderInOrder_outside {w : Nat} {sn : Snapshot w} (s : State) {order : List Nat}
    (pixels : ∀ k ∈ order, k < sn.npix) {b : Nat} (hb : b < sn.out.toNat ∨ sn.out.toNat + 4 * sn.npix ≤ b) :
    (State.renderInOrder sn s order).byteAt b = s.byteAt b := by
  induction order generalizing s with
  | nil => rfl
  | cons j order ih =>
    have hj := pixels j List.mem_cons_self
    exact (ih (State.renderPixel sn s j) fun k hk => pixels k (List.mem_cons_of_mem _ hk)).trans
      (s.byteAt_memWrite_outside _ _ _ _ (by omega))

theorem State.wordAt_renderPixel {w : Nat} (sn : Snapshot w) (s : State) (j k : Nat) :
    (State.renderPixel sn s j).wordAt (sn.out.toNat + 4 * k)
      = if k = j then s.pixelWord sn k else s.wordAt (sn.out.toNat + 4 * k) := by
  rw [State.renderPixel_eq]
  split
  · subst j
    exact s.wordAt_memWrite _ _
  · exact s.wordAt_memWrite_outside _ (by omega)

/-- After the pixels of a list, each word of the output buffer is that of its pixel, if it is in the list, as memory
stood before them (R64, R118, R122). -/
theorem State.wordAt_renderInOrder {w : Nat} {sn : Snapshot w} (apart : sn.Apart) (s : State) {order : List Nat}
    (pixels : ∀ k ∈ order, k < sn.npix) {k : Nat} (hk : k < sn.npix) :
    (State.renderInOrder sn s order).wordAt (sn.out.toNat + 4 * k)
      = if k ∈ order then s.pixelWord sn k else s.wordAt (sn.out.toNat + 4 * k) := by
  induction order generalizing s with
  | nil => rfl
  | cons j order ih =>
    have hj : j < sn.npix := pixels j List.mem_cons_self
    refine (ih (State.renderPixel sn s j) fun i hi => pixels i (List.mem_cons_of_mem _ hi)).trans ?_
    rw [s.pixelWord_renderPixel apart hj hk, s.wordAt_renderPixel sn j k]
    by_cases later : k ∈ order
    · rw [if_pos later, if_pos (List.mem_cons_of_mem j later)]
    · simp only [List.mem_cons, later, if_false, or_false]

/-- A list of pixels leaves everything outside the output buffer (R28, R118). -/
theorem State.storedOnly_renderInOrder {w : Nat} {sn : Snapshot w} (s : State) {order : List Nat}
    (pixels : ∀ k ∈ order, k < sn.npix) :
    s.StoredOnly (State.renderInOrder sn s order).advance sn.out.toNat (4 * sn.npix) where
  rest := congrArg State.advance (State.renderInOrder_same sn s order).eq
  memory _ hb := s.byteAt_renderInOrder_outside pixels hb

theorem State.wordAt_advance (s : State) (a : Nat) : s.advance.wordAt a = s.wordAt a :=
  State.wordAt_congr _ _ a fun _ _ _ => rfl

/-- Settles O41: the words that the pixels leave, and that they write nowhere else. -/
theorem escapeRendersEveryPixel : Obligations.EscapeRendersEveryPixel := by
  intro s ra rb rc d render sn
  have apart : sn.Apart := (s.escapeVerdict_render ra rb rc d render).disjoint
  have pixels : ∀ k ∈ List.range sn.npix, k < sn.npix := fun k => List.mem_range.1
  refine ⟨⟨rfl, rfl, rfl, rfl, rfl, rfl, rfl, rfl, rfl, rfl, rfl, rfl⟩, _, exec_escape_of_render render,
    s.storedOnly_renderInOrder pixels, fun k hk => ?_⟩
  have word := s.wordAt_renderInOrder apart pixels hk
  rw [if_pos (List.mem_range.2 hk)] at word
  exact (State.wordAt_advance _ _).trans word

end Sys2Proof.Machine
end

section
/-! PROOFS. The loop of a pixel, its output word, and its iteration with the orbits of 0 and 2 + 2i (spec/10_state.md R21;
spec/44_escape.md R123 to R125, R127, R130). -/
namespace Sys2Proof.Machine

/-! ### The loop of a pixel (R123, R127) -/

section
variable {w : Nat} {m : CarryMode} {cap : Word} {p : Pixel w}

theorem Pixel.goesOn_iff : p.goesOn m cap = true ↔ bailOk (FixedPoint.add m p.zr2 p.zi2) = true ∧ p.n < cap := by
  rw [Pixel.goesOn, Bool.and_eq_true, decide_eq_true_eq]

theorem Pixel.n_iterate_step (entry : p.n = 0) (j : Nat) : ((Pixel.step m)^[j] p).n = BitVec.ofNat 32 j := by
  induction j with
  | zero => exact entry
  | succ j ih =>
    rw [Function.iterate_succ_apply', BitVec.ofNat_add, ← ih]
    rfl

/-- The loop makes the steps before the first pixel at which its condition fails, where its bound lets it. -/
theorem Pixel.loop_eq_iterate {j k : Nat} (bound : j ≤ k)
    (goes : ∀ i, i < j → ((Pixel.step m)^[i] p).goesOn m cap = true)
    (stops : ((Pixel.step m)^[j] p).goesOn m cap = false) : Pixel.loop m cap k p = (Pixel.step m)^[j] p := by
  induction j generalizing p k with
  | zero =>
    have stops : p.goesOn m cap = false := stops
    cases k with
    | zero => rfl
    | succ k => rw [Pixel.loop, stops, if_neg Bool.false_ne_true, Function.iterate_zero_apply]
  | succ j ih =>
    obtain ⟨k, rfl⟩ : ∃ k', k = k' + 1 := ⟨k - 1, by omega⟩
    have first : p.goesOn m cap = true := goes 0 (Nat.succ_pos j)
    rw [Pixel.loop, if_pos first]
    exact ih (Nat.le_of_succ_le_succ bound) (fun i hi => goes (i + 1) (Nat.succ_lt_succ hi)) stops

/-- A pixel that has made CAP steps goes no further (R127). -/
theorem Pixel.stops_at_cap (entry : p.n = 0) : ((Pixel.step m)^[cap.toNat] p).goesOn m cap = false := by
  rw [← Bool.not_eq_true, Pixel.goesOn_iff, Pixel.n_iterate_step entry, BitVec.ofNat_toNat, BitVec.setWidth_eq]
  exact fun goes => BitVec.lt_irrefl cap goes.2

/-- Of the pixels that the steps give, one is the first at which the condition fails, after at most CAP steps (R127). -/
theorem Pixel.exists_first_stop (entry : p.n = 0) : ∃ j, j ≤ cap.toNat ∧
    (∀ i, i < j → ((Pixel.step m)^[i] p).goesOn m cap = true) ∧ ((Pixel.step m)^[j] p).goesOn m cap = false := by
  have ends : ∃ j, ((Pixel.step m)^[j] p).goesOn m cap = false := ⟨_, Pixel.stops_at_cap entry⟩
  exact ⟨Nat.find ends, Nat.find_min' ends (Pixel.stops_at_cap entry),
    fun i hi => Bool.eq_true_of_not_eq_false (Nat.find_min ends hi), Nat.find_spec ends⟩

end

/-- Settles O43: the loop ends at the first pixel at which its condition fails. -/
theorem pixelLoopEnds : Obligations.PixelLoopEnds := by
  intro w m sn oR oI p
  have entry : (Pixel.start m sn oR oI).n = 0 := rfl
  obtain ⟨j, bound, goes, stops⟩ := Pixel.exists_first_stop (m := m) (cap := sn.cap) entry
  have run : p = (Pixel.step m)^[j] (Pixel.start m sn oR oI) := Pixel.loop_eq_iterate bound goes stops
  have count : p.n.toNat = j := by
    rw [run, Pixel.n_iterate_step entry, BitVec.toNat_ofNat, Nat.mod_eq_of_lt (bound.trans_lt sn.cap.isLt)]
  rw [count]
  exact ⟨rfl, run ▸ stops, count.le.trans bound, run, goes⟩

/-! ### The output word (R125) -/

section
variable {w : Nat} {sn : Snapshot w} {n : Word}

theorem Snapshot.output_of_raw (raw : sn.raw = true) : sn.output n = n := if_pos raw

theorem Snapshot.output_of_escaped (palette : sn.raw = false) (escaped : n < sn.cap) :
    sn.output n = n % sn.palsize := by
  rw [Snapshot.output, palette, if_neg Bool.false_ne_true, if_pos escaped]

theorem Snapshot.output_of_capped (palette : sn.raw = false) (capped : ¬ n < sn.cap) :
    sn.output n = Config.noEscape := by
  rw [Snapshot.output, palette, if_neg Bool.false_ne_true, if_neg capped]

end

/-- Settles O44: n mod P is below P, and P is at most NOESC. -/
theorem outputWordMeaning : Obligations.OutputWordMeaning := by
  refine fun w sn n => ⟨Snapshot.output_of_raw, fun palette escaped sized => ?_, Snapshot.output_of_capped⟩
  have index : (n % sn.palsize).toNat < sn.palsize.toNat :=
    Nat.mod_lt _ (Nat.pos_of_ne_zero fun z => sized (BitVec.eq_of_toNat_eq z))
  have most : sn.palsize.toNat ≤ (0xFFFFFFFF : Word).toNat := Nat.le_pred_of_lt sn.palsize.isLt
  rw [Snapshot.output_of_escaped palette escaped]
  exact ⟨BitVec.toNat_umod, index, fun noesc => absurd (noesc ▸ index) (Nat.not_lt.2 most)⟩

/-! ### The iteration (R123, R124, R130) -/

/-- BAIL_OK asks whether the signed value is below 4: the integer limb is the value divided by 2^F (R21, R124). -/
theorem bailOk_iff {w : Nat} (hw : 0 < w) (x : FixedPoint w) : bailOk x = true ↔ x.sval < 4 * 2 ^ (3 * w) := by
  have unit : (0 : Int) < 2 ^ (3 * w) := by positivity
  have fraction : ((x.pat % 2 ^ (3 * w) : Nat) : Int) < 2 ^ (3 * w) := by
    exact_mod_cast Nat.mod_lt x.pat (Nat.two_pow_pos (3 * w))
  have integer : x.sval / 2 ^ (3 * w) = x.l0.toInt := by
    rw [x.sval_eq_limb0_add hw, Int.add_comm, Int.add_mul_ediv_right _ _ unit.ne',
      Int.ediv_eq_zero_of_lt (Int.natCast_nonneg _) fraction, zero_add]
  rw [bailOk, decide_eq_true_eq, ← integer, Int.ediv_lt_iff_lt_mul unit]

/-- After fewer than CAP steps the loop goes on where BAIL_OK holds. -/
theorem Pixel.goesOn_iterate_step {w : Nat} {m : CarryMode} {cap : Word} {p : Pixel w} (entry : p.n = 0) {j : Nat}
    (hj : j < cap.toNat)
    (inside : bailOk (FixedPoint.add m ((Pixel.step m)^[j] p).zr2 ((Pixel.step m)^[j] p).zi2) = true) :
    ((Pixel.step m)^[j] p).goesOn m cap = true := by
  rw [Pixel.goesOn_iff, Pixel.n_iterate_step entry, BitVec.lt_def, BitVec.toNat_ofNat,
    Nat.mod_eq_of_lt (hj.trans cap.isLt)]
  exact ⟨inside, hj⟩

/-- The values before the loop for a given c: z = 0 and n = 0 (R123, R130). -/
def Pixel.enter {w : Nat} (cr ci : FixedPoint w) : Pixel w :=
  ⟨cr, ci, ⟨0, 0, 0, 0⟩, ⟨0, 0, 0, 0⟩, ⟨0, 0, 0, 0⟩, ⟨0, 0, 0, 0⟩, 0⟩

/-- What the orbit of 0 holds after its n steps, from the first on (R130). -/
def Pixel.zeroOrbit (w : Nat) (n : Word) : Pixel w :=
  ⟨⟨0, 0, 0, 0⟩, ⟨0, 0, 0, 0⟩, ⟨0, 0, 0, 0⟩, ⟨0, 0, 0, 6⟩, ⟨0, 0, 0, 3⟩, ⟨0, 0, 0, 3⟩, n⟩

/-- BAIL_OK holds of the magnitude 0 with which every pixel begins. -/
theorem Pixel.bailOk_enter (d : Width) (cr ci : FixedPoint d.bits) :
    bailOk (FixedPoint.add .full (Pixel.enter cr ci).zr2 (Pixel.enter cr ci).zi2) = true := by
  have magnitude : bailOk (FixedPoint.add .full (⟨0, 0, 0, 0⟩ : FixedPoint d.bits) ⟨0, 0, 0, 0⟩) = true := by
    cases d <;> decide
  exact magnitude

/-- BAIL_OK holds of the magnitude 6 ulp that the orbit of 0 keeps. -/
theorem Pixel.bailOk_zeroOrbit (d : Width) (n : Word) :
    bailOk (FixedPoint.add .full (Pixel.zeroOrbit d.bits n).zr2 (Pixel.zeroOrbit d.bits n).zi2) = true := by
  have magnitude : bailOk (FixedPoint.add .full (⟨0, 0, 0, 3⟩ : FixedPoint d.bits) ⟨0, 0, 0, 3⟩) = true := by
    cases d <;> decide
  exact magnitude

theorem Pixel.step_enter_zero (d : Width) :
    (Pixel.enter ⟨0, 0, 0, 0⟩ ⟨0, 0, 0, 0⟩).step .full = Pixel.zeroOrbit d.bits 1 := by
  cases d <;> decide

/-- A step on the orbit of 0 changes the count alone, and what else it leaves does not depend on the count. -/
theorem Pixel.step_zeroOrbit (d : Width) (n : Word) :
    (Pixel.zeroOrbit d.bits n).step .full = Pixel.zeroOrbit d.bits (n + 1) := by
  have values : (Pixel.zeroOrbit d.bits 0).step .full = Pixel.zeroOrbit d.bits 1 := by cases d <;> decide
  exact congrArg (fun p => { p with n := n + 1 }) values

theorem Pixel.iterate_step_enter_zero (d : Width) (j : Nat) :
    (Pixel.step .full)^[j + 1] (Pixel.enter ⟨0, 0, 0, 0⟩ ⟨0, 0, 0, 0⟩)
      = Pixel.zeroOrbit d.bits (BitVec.ofNat 32 (j + 1)) := by
  induction j with
  | zero => exact Pixel.step_enter_zero d
  | succ j ih =>
    rw [Function.iterate_succ_apply', ih, Pixel.step_zeroOrbit, BitVec.ofNat_add (j + 1) 1]
    rfl

/-- c = 0 never escapes (R130). -/
theorem Pixel.loop_enter_zero (d : Width) {cap : Word} (hcap : cap ≠ 0) :
    Pixel.loop .full cap cap.toNat (Pixel.enter ⟨0, 0, 0, 0⟩ ⟨0, 0, 0, 0⟩) = Pixel.zeroOrbit d.bits cap := by
  obtain ⟨k, hk⟩ : ∃ k, cap.toNat = k + 1 :=
    Nat.exists_eq_succ_of_ne_zero fun z => hcap (BitVec.eq_of_toNat_eq z)
  refine (Pixel.loop_eq_iterate le_rfl (fun i hi => Pixel.goesOn_iterate_step rfl hi ?_)
    (Pixel.stops_at_cap rfl)).trans ?_
  · cases i with
    | zero => exact Pixel.bailOk_enter d _ _
    | succ i =>
      rw [Pixel.iterate_step_enter_zero]
      exact Pixel.bailOk_zeroOrbit d _
  · rw [hk, Pixel.iterate_step_enter_zero, ← hk, BitVec.ofNat_toNat, BitVec.setWidth_eq]

/-- What the orbit of 2 + 2i holds after its first step (R130). -/
def Pixel.twoEscaped (w : Nat) : Pixel w :=
  ⟨⟨2, 0, 0, 0⟩, ⟨2, 0, 0, 0⟩, ⟨2, 0, 0, 0⟩, ⟨2, 0, 0, 6⟩, ⟨4, 0, 0, 3⟩, ⟨4, 0, 0, 0x1B⟩, 1⟩

theorem Pixel.step_enter_two (d : Width) :
    (Pixel.enter ⟨2, 0, 0, 0⟩ ⟨2, 0, 0, 0⟩).step .full = Pixel.twoEscaped d.bits := by
  cases d <;> decide

/-- c = 2 + 2i escapes after one step (R130). -/
theorem Pixel.loop_enter_two (d : Width) {cap : Word} (hcap : cap ≠ 0) :
    Pixel.loop .full cap cap.toNat (Pixel.enter ⟨2, 0, 0, 0⟩ ⟨2, 0, 0, 0⟩) = Pixel.twoEscaped d.bits := by
  have pos : 0 < cap.toNat := Nat.pos_of_ne_zero fun z => hcap (BitVec.eq_of_toNat_eq z)
  have first : (Pixel.enter (w := d.bits) ⟨2, 0, 0, 0⟩ ⟨2, 0, 0, 0⟩).goesOn .full cap = true :=
    Pixel.goesOn_iff.2 ⟨Pixel.bailOk_enter d _ _, pos⟩
  refine (Pixel.loop_eq_iterate (j := 1) pos (fun i hi => ?_) ?_).trans (Pixel.step_enter_two d)
  · rw [Nat.lt_one_iff.1 hi]
    exact first
  · have escaped : bailOk (FixedPoint.add .full (⟨4, 0, 0, 3⟩ : FixedPoint d.bits) ⟨4, 0, 0, 0x1B⟩) = false := by
      cases d <;> decide
    rw [Function.iterate_one, Pixel.step_enter_two, Pixel.goesOn, Pixel.twoEscaped, escaped, Bool.false_and]

/-- Settles O45: the model's step with the bailout as a bound on the signed value, and the two orbits. -/
theorem pixelIteration : Obligations.PixelIteration := by
  intro d enter
  have hw : 0 < d.bits := by cases d <;> decide
  refine ⟨fun m sn oR oI => rfl, fun m cap p => ⟨?_, rfl, rfl, rfl, rfl, rfl, rfl, rfl⟩,
    fun cap hcap => Pixel.loop_enter_zero d hcap, fun cap hcap => Pixel.loop_enter_two d hcap, fun m c c' => rfl⟩
  rw [Pixel.goesOn_iff, bailOk_iff hw]

end Sys2Proof.Machine
end

section
/-! PROOFS. The command cycle at a decoded command, the words of NOP and HALT, MOV, and a host write to CTRL
(spec/30_encoding.md R70 to R76; spec/45_system_and_transfer.md R131 to R135, R139; spec/60_exceptions.md R143). -/
namespace Sys2Proof.Machine

/-! ### The words of a command (R74, R76) -/

/-- The decoder answers a command exactly for that command's own two words. -/
theorem decodeWords_eq_command_iff_words {w0 w1 : Word} {i : Instr} :
    decodeWords w0 w1 = .command i ↔ w0 = i.word0 ∧ w1 = i.word1 := by
  constructor
  · intro decoded
    obtain ⟨word0, word1⟩ := decodeThenEncode w0 w1 i decoded
    exact ⟨word0.symm, word1.symm⟩
  · rintro ⟨rfl, rfl⟩
    exact decodeWords_words i

theorem fieldOp_eq_zero {w0 : Word} (h : w0.toNat < 2 ^ 24) : fieldOp w0 = 0 := by
  apply BitVec.eq_of_toNat_eq
  rw [fieldOp, BitVec.extractLsb'_toNat, Nat.shiftRight_eq_div_pow, Nat.div_eq_of_lt h]
  rfl

theorem eq_nop_of_number_eq_zero {o : Opcode} (h : o.number = 0) : o = .nop := by
  have found : Opcode.ofNumber 0 = some o := Opcode.ofNumber_eq_some_iff.2 h.symm
  exact (Option.some.inj found).symm

/-- A command whose word0 has opcode 0 is NOP. -/
theorem eq_nop_of_decodeWords {w0 w1 : Word} {i : Instr} (h : w0.toNat < 2 ^ 24)
    (decoded : decodeWords w0 w1 = .command i) : i = .nop := by
  obtain ⟨o, accepts, rfl⟩ := decodeWords_eq_command_iff.1 decoded
  rw [eq_nop_of_number_eq_zero (accepts.number.symm.trans (fieldOp_eq_zero h)), Opcode.build]

/-- Settles O31: words of opcode 0 that are a command are NOP's own two words, which are 0. -/
theorem nopOnlyAdvances : Obligations.NopOnlyAdvances := by
  refine ⟨fun s => rfl, decodeWords_words .nop, fun w0 w1 small nonzero => ?_⟩
  cases decoded : decodeWords w0 w1 with
  | illegal e => exact ⟨e, rfl⟩
  | command i =>
    obtain rfl := eq_nop_of_decodeWords small decoded
    exact absurd (decodeWords_eq_command_iff_words.1 decoded) nonzero

/-- Settles O32: the words of HALT evaluate to 0x01000000 and 0. -/
theorem haltEndsTheRun : Obligations.HaltEndsTheRun :=
  ⟨fun _ => rfl, fun _ _ => decodeWords_eq_command_iff_words⟩

/-- Settles O34: MOV writes the value that ra held. -/
theorem movCopies : Obligations.MovCopies := fun s rd ra =>
  ⟨(s.writeF rd (s.readF ra)).advance, rfl, s.patF_writeF_advance rd _, s.wroteOnly_advance rd _⟩

/-! ### CTRL (R35, R133) -/

/-- A write to CTRL, by the value of bit 0 and of BUSY and FAULT. -/
theorem State.writeCtrl_eq (s : State) (v : Word) : s.writeCtrl v =
    if v.getLsbD 0 = false then { s with ie := v.getLsbD 1 }
    else if s.busy = true ∨ s.fault = true then { s with ie := v.getLsbD 1, herr := true }
    else { s with ie := v.getLsbD 1, busy := true, done := false, cp := s.cpStart } := by
  rw [State.writeCtrl]
  cases v.getLsbD 0 with
  | false => rfl
  | true =>
    show (if (s.busy || s.fault) = true then _ else _) = if s.busy = true ∨ s.fault = true then _ else _
    exact if_congr Bool.or_eq_true_iff rfl rfl

/-- Settles O49, by the equation of a write to CTRL. -/
theorem startOfARun : Obligations.StartOfARun := by
  intro s v rest h
  rw [step_write_control h (by decide) (by decide)]
  exact congrArg _ (State.writeCtrl_eq _ v)

/-! ### A step at a command (R73, R74, R131) -/

theorem State.extractLsb'_wordAt (s : State) (a : Nat) {k : Nat} (hk : k < 4) :
    (s.wordAt a).extractLsb' (8 * k) 8 = s.byteAt (a + k) := by
  apply BitVec.eq_of_toNat_eq
  rw [BitVec.extractLsb'_toNat, Nat.shiftRight_eq_div_pow, Nat.pow_mul]
  exact s.wordAt_byte a hk

/-- The bytes of the word at an address are the four bytes from it (R50). -/
theorem State.bytesOfWord_wordAt (s : State) (a : Nat) :
    bytesOfWord (s.wordAt a) = (List.range 4).map fun k => s.byteAt (a + k) := by
  show (List.range 4).map (fun k => (s.wordAt a).extractLsb' (8 * k) 8) = _
  exact List.map_congr_left fun k hk => s.extractLsb'_wordAt a (List.mem_range.1 hk)

/-- Decoding the eight bytes at an address is decoding the two words there (R70, R73). -/
theorem State.decode_eight_bytes (s : State) (a : Nat) : decode ((List.range 8).map fun k => s.byteAt (a + k)) =
    (decodeWords (s.wordAt a) (s.wordAt (a + 4)), []) := by
  rw [← decode_bytesOfWord, s.bytesOfWord_wordAt, s.bytesOfWord_wordAt]
  rfl

/-- The command cycle at a CP from which a command can be fetched and decoded is that command (R131). -/
theorem commandCycle_of_command {s : State} {i : Instr} (fetched : s.fetchFault = none)
    (decoded : decodeWords s.fetch0 s.fetch1 = .command i) : commandCycle s = exec i s := by
  rw [commandCycle, fetched]
  dsimp only
  rw [decoded]

/-- A step in which the host passes is a step in which it has no move left (R143). -/
theorem step_of_pass {s : State} {rest : List HostMove} (hb : s.busy = true) (hh : s.host = .pass :: rest) :
    step s = commandCycle { s with host := rest } :=
  (step_hostMove hh).trans (if_pos hb)

/-- Settles O5: the bytes at CP are the two words fetched, and the script of the host changes neither. -/
theorem stepRunsTheDecodedCommand : Obligations.StepRunsTheDecodedCommand := by
  intro s i rest hb aligned inside decoded
  have fetched : s.fetchFault = none := s.fetchFault_none.2 ⟨aligned, inside⟩
  have command : decodeWords s.fetch0 s.fetch1 = .command i :=
    (Prod.mk.inj ((s.decode_eight_bytes s.cp.toNat).symm.trans decoded)).1
  exact ⟨fun hh => (step_of_no_move hb hh).trans (commandCycle_of_command fetched command),
    fun hh => (step_of_pass hb hh).trans (commandCycle_of_command (s := { s with host := rest }) fetched command)⟩

end Sys2Proof.Machine
end

section
/-! PROOFS. A step with no run in progress, and the level of IRQ (spec/60_exceptions.md R147, R154, R155). -/
namespace Sys2Proof.Machine

/-! ### A step with no run in progress (R154, R155) -/

theorem deviceMove_of_idle {s : State} (hb : s.busy = false) : deviceMove s = .next s :=
  if_neg (ne_true_of_eq_false hb)

/-- Settles O8: with no move of the host left, the step is MZC's own move, which is idle while BUSY is 0. -/
theorem idleWithoutStart : Obligations.IdleWithoutStart := by
  intro s hb hh
  rw [step, machineMove, hh]
  exact deviceMove_of_idle hb

/-! ### The level of IRQ (R147) -/

theorem State.irq_eq_true_iff (s : State) : s.irq = true ↔ s.ie = true ∧ (s.done = true ∨ s.fault = true) := by
  rw [State.irq, Bool.and_eq_true, Bool.or_eq_true]

/-- Once a run has ended, with DONE or with FAULT, IRQ is IE. -/
theorem State.irq_eq_ie_of_ended {s : State} (ended : s.done = true ∨ s.fault = true) : s.irq = s.ie :=
  Bool.eq_iff_iff.2 (s.irq_eq_true_iff.trans (and_iff_left ended))

/-- Settles O48: a HALT sets DONE, a fault sets FAULT, and both leave IE as it was. -/
theorem interruptLevel : Obligations.InterruptLevel := by
  refine ⟨State.irq_eq_true_iff, fun s t halted => ?_, fun s c a w0 w1 => ?_⟩
  · obtain rfl : s.endRun = t := Host.Outcome.next.inj halted
    exact (State.irq_eq_ie_of_ended (.inl s.endRun_done)).trans s.endRun_ie
  · exact (State.irq_eq_ie_of_ended (.inr (s.takeFault_fault c a w0 w1))).trans (s.takeFault_ie c a w0 w1)

end Sys2Proof.Machine
end

section
/-! PROOFS. What a reset leaves, at power-on and during a run (spec/70_reset_and_hazards.md R155). -/
namespace Sys2Proof.Machine

/-- The values after a reset, for every device and any number of resets before; IRQ is inactive because IE is 0. -/
theorem State.atResetValues_resetOf (d : Device) (n : Nat) : (State.resetOf d n).AtResetValues where
  cp := rfl
  ie := rfl
  status := ⟨rfl, rfl, rfl, rfl⟩
  cpStart := rfl
  fcause := rfl
  faddr := rfl
  fcmd := ⟨rfl, rfl⟩
  palsize := rfl
  irq := rfl

/-- The reset values say nothing of the outside world: its moves to come and what it last read. -/
theorem State.AtResetValues.withOutside {s : State} (h : s.AtResetValues) (moves : List HostMove) (data : Word) :
    { s with host := moves, hostRData := data }.AtResetValues :=
  ⟨h.cp, h.ie, h.status, h.cpStart, h.fcause, h.faddr, h.fcmd, h.palsize, h.irq⟩

theorem State.atResetValues_platformReset (s : State) : s.platformReset.AtResetValues :=
  (State.atResetValues_resetOf s.dev (s.resets + 1)).withOutside s.host s.hostRData

@[simp] theorem State.platformReset_dev (s : State) : s.platformReset.dev = s.dev := rfl

/-- A step whose move is the platform's reset leaves the reset state, the rest of the script to come. -/
theorem step_of_reset {s : State} {rest : List HostMove} (h : s.host = .reset :: rest) :
    step s = .next { s with host := rest }.platformReset :=
  step_hostMove h

/-- Settles O55: both at power-on and by a reset move the state is that of `State.resetOf`, up to the outside world. -/
theorem resetValues : Obligations.ResetValues :=
  ⟨State.atResetValues_resetOf Config.defaultDevice 0, fun s rest h =>
    ⟨{ s with host := rest }.platformReset, step_of_reset h, State.platformReset_dev _,
      State.atResetValues_platformReset _⟩⟩

/-- Settles O57: the invariant after a reset of any device, `State.reset` being that of the default device. -/
theorem invariantAtReset : Obligations.InvariantAtReset :=
  ⟨State.inv_resetOf Config.defaultDevice 0, State.inv_resetOf⟩

end Sys2Proof.Machine
end
